-- ==== Sys2Proof/Word.lean ====
section
/-! DEFINITION. The two word types of the CORE block (rules R9, R13): bytes and 16-bit CPU words. -/

namespace Sys2Proof

/-- An 8-bit value: the registers A, X, Y, SP, the flags word P, one memory location (R9). -/
abbrev Byte := BitVec 8

/-- A 16-bit value: PC and a CPU address (R9). -/
abbrev Word := BitVec 16

end Sys2Proof
end

