-- ==== Sys2Proof/Machine/Bits.lean ====
section
/-! DEFINITION. The bit-field, sign-extension and byte-order helpers of rules R12 and R13. -/

namespace Sys2Proof.Machine

/-- `hi(w) = w[15:8]` (R13). It is also the page of an address (R114). -/
def hi (w : Word) : Byte := w.extractLsb' 8 8

/-- `lo(w) = w[7:0]` (R13). -/
def lo (w : Word) : Byte := w.extractLsb' 0 8

/-- `{h, l}`: the 16-bit value h*256 + l (R13). -/
def mkWord (h l : Byte) : Word := h ++ l

/-- `zext_16(v)` (R13). -/
def zext16 (v : Byte) : Word := v.zeroExtend 16

/-- `sext_8(v)` added at 16 bits: v read as a number in -128..127 (R13, R112). -/
def sext16 (v : Byte) : Word := v.signExtend 16

/-- Byte `v` with bit `n` replaced by `b` (R14: `P.C <- b` and the like). -/
def setBit (v : Byte) (n : Nat) (b : Bool) : Byte :=
  (v &&& ~~~(1#8 <<< n)) ||| (if b then 1#8 <<< n else 0#8)

/-- A carry bit as a byte. -/
def bitByte (b : Bool) : Byte := if b then 1#8 else 0#8

/-- The next address within the page of `a` (R108: `{hi(a), trunc_8(lo(a) + 1)}`). -/
def nextInPage (a : Word) : Word := mkWord (hi a) (lo a + 1#8)

/-- `n` cycles on the 64-bit counter (R44). -/
def cyc (n : Nat) : BitVec 64 := BitVec.ofNat 64 n

end Sys2Proof.Machine
end

