-- ==== Sys2Proof/Config.lean ====
section
/-! DEFINITION. What an implementation fixes (rule R10) and the free values. The parameters that a run of the
machine branches on are the plain record `Params`, which State carries and no step changes (assumption 3), so that a
statement about every state holds for every setting of them. The uninterpreted ones are opaque constants. -/

namespace Sys2Proof

/-- What a CPU store to $8000-$FFFF does (R67): the parameter `CPU_ROM_WRITE_MODE`. -/
inductive RomWriteMode where
  | registerLoad   -- the default: the write goes to the mapper's serial port
  | storageWrite   -- the write goes to the PRG byte the address reads from
  deriving DecidableEq, Repr

/-- The parameters of rule R10 that are not contents of a memory and not uninterpreted. -/
structure Params where
  /-- `PRG_SIZE` in bytes (R62). -/
  prgSize : Nat
  /-- `CHR_SIZE` in bytes, may be 0 (R62). -/
  chrSize : Nat
  /-- `CPU_ROM_WRITE_MODE`, default `RegisterLoad` (R67). -/
  romWriteMode : RomWriteMode
  /-- `HW_INT_PUSH_B`, default 1: the break bit NMI and IRQ service push (R369). -/
  hwIntPushB : Bool
  /-- `SELF_LOOP_ABORT`, default false: whether the self-branch watchdog exists (R270). -/
  selfLoopAbort : Bool
  deriving DecidableEq, Repr

namespace Config

/-- `EXT_READ` (R65): what the `n`-th read of the external region returns, at the CPU address `a`. No body: "an
unconstrained draw for each read". The draw number `n` is State's `extReads`. DESIGN CHOICE (assumption 4). -/
opaque extRead (n : Nat) (a : Word) : Byte

/-- `ILLEGAL_CYCLES` (R300): the cycles an illegal opcode is charged. No body: "A model takes it as an
uninterpreted function and proves nothing that depends on its values." DESIGN CHOICE (assumption 5). -/
opaque illegalCycles (op : Byte) : Nat

/-! What the CPU holds before the first Reset (R52): "the values of A, X, Y, SP, P, PC, the pending bits and the
counters are unspecified. A model must not give them a value". No bodies. DESIGN CHOICE (assumption 7). -/

/-- A before the first Reset. -/
opaque unsetA : Byte
/-- X before the first Reset. -/
opaque unsetX : Byte
/-- Y before the first Reset. -/
opaque unsetY : Byte
/-- SP before the first Reset. -/
opaque unsetSP : Byte
/-- PC before the first Reset. -/
opaque unsetPC : Word
/-- P before the first Reset. -/
opaque unsetP : Byte
/-- The cycle counter before the first Reset. -/
opaque unsetCycles : BitVec 64
/-- The stall counter before the first Reset. -/
opaque unsetStall : Nat
/-- The NMI latch before the first Reset. -/
opaque unsetNmi : Bool
/-- The IRQ latch before the first Reset. -/
opaque unsetIrq : Bool
/-- The watchdog's state before the first Reset, where the watchdog exists (R47). -/
opaque unsetLastBranch : Option (Word × Word)

/-- DESIGN CHOICE (assumption 2): the parameters of `Machine.State.reset`. Two PRG banks as in 95_test_vectors.md, no CHR, and the defaults
the spec gives for the other three (R67, R369, R270). -/
def defaultParams : Params where
  prgSize := 32768
  chrSize := 0
  romWriteMode := .registerLoad
  hwIntPushB := true
  selfLoopAbort := false

end Config

/-- The size constraints of R62 (PRG a positive multiple of 16384, CHR a multiple of 4096): "A model refuses a
configuration that breaks these constraints." -/
def Params.valid (p : Params) : Bool :=
  decide (0 < p.prgSize) && decide (p.prgSize % 16384 = 0) && decide (p.chrSize % 4096 = 0)

end Sys2Proof
end

