-- ==== Sys2Proof/Syntax.lean ====
section
/-! DEFINITION. The instruction set as data: addressing modes (R101, R117), mnemonics (R122, R312), the operand
forms each mnemonic has (R122), and `Instr`.

One row of spec/opcode_table.json is one constructor of `Instr` TOGETHER WITH one operand form of its argument:
the rows that share a mnemonic are that instruction's addressing modes, and the argument's type has exactly one
constructor for each of them. So the 151 legal rows are the 151 forms below, and the 105 rows `???` are
`illegal op` for the 105 illegal bytes (`Sys2Proof.Instr.WellFormed`). DESIGN CHOICE (assumption 22). -/

namespace Sys2Proof

/-- The thirteen addressing modes and the two pseudo-modes, in the order that numbers them (R117, R118). -/
inductive Mode where
  | absolute | absoluteX | absoluteY | accumulator | immediate | implied | indexedIndirect
  | indirect | indirectIndexed | relative | zeroPage | zeroPageX | zeroPageY
  | pseudo    -- "used only by the assembler for directives" (R118)
  | invalid   -- the mode of the 105 illegal entries (R118)
  deriving DecidableEq, Repr

/-- The 56 mnemonics in alphabetical order, and the placeholder `???` of every illegal opcode (R312). -/
inductive Mnemonic where
  | adc | and | asl | bcc | bcs | beq | bit | bmi | bne | bpl | brk | bvc | bvs | clc | cld
  | cli | clv | cmp | cpx | cpy | dec | dex | dey | eor | inc | inx | iny | jmp | jsr | lda
  | ldx | ldy | lsr | nop | ora | pha | php | pla | plp | rol | ror | rti | rts | sbc | sec
  | sed | sei | sta | stx | sty | tax | tay | tsx | txa | txs | tya
  | placeholder
  deriving DecidableEq, Repr

/-- An operand as its mode and the bytes that follow the opcode (R101): `l` is byte 1, a word is bytes 2 and 1. -/
inductive Operand where
  | imp
  | acc
  | imm (v : Byte)
  | zp (l : Byte)
  | zpx (l : Byte)
  | zpy (l : Byte)
  | rel (d : Byte)
  | izx (l : Byte)
  | izy (l : Byte)
  | abs (w : Word)
  | abx (w : Word)
  | aby (w : Word)
  | ind (w : Word)
  deriving DecidableEq, Repr

/-- The eight-mode group of R210: ADC, AND, CMP, EOR, LDA, ORA, SBC. -/
inductive AluMode where
  | imm (v : Byte) | zp (l : Byte) | zpx (l : Byte) | abs (w : Word)
  | abx (w : Word) | aby (w : Word) | izx (l : Byte) | izy (l : Byte)
  deriving DecidableEq, Repr

/-- The seven modes of STA (R174): the eight-mode group without the immediate form. -/
inductive StaMode where
  | zp (l : Byte) | zpx (l : Byte) | abs (w : Word)
  | abx (w : Word) | aby (w : Word) | izx (l : Byte) | izy (l : Byte)
  deriving DecidableEq, Repr

/-- The five modes of LDX (R172). -/
inductive LdxMode where
  | imm (v : Byte) | zp (l : Byte) | zpy (l : Byte) | abs (w : Word) | aby (w : Word)
  deriving DecidableEq, Repr

/-- The five modes of LDY (R173). -/
inductive LdyMode where
  | imm (v : Byte) | zp (l : Byte) | zpx (l : Byte) | abs (w : Word) | abx (w : Word)
  deriving DecidableEq, Repr

/-- The three modes of STX (R175). -/
inductive StxMode where
  | zp (l : Byte) | zpy (l : Byte) | abs (w : Word)
  deriving DecidableEq, Repr

/-- The three modes of STY (R176). -/
inductive StyMode where
  | zp (l : Byte) | zpx (l : Byte) | abs (w : Word)
  deriving DecidableEq, Repr

/-- The three modes of CPX and CPY (R218, R219). -/
inductive CpMode where
  | imm (v : Byte) | zp (l : Byte) | abs (w : Word)
  deriving DecidableEq, Repr

/-- The two modes of BIT (R216). -/
inductive BitMode where
  | zp (l : Byte) | abs (w : Word)
  deriving DecidableEq, Repr

/-- The four memory modes of INC and DEC (R241, R242). -/
inductive RmwMode where
  | zp (l : Byte) | zpx (l : Byte) | abs (w : Word) | abx (w : Word)
  deriving DecidableEq, Repr

/-- The five modes of ASL, LSR, ROL, ROR (R247 to R250): the accumulator or a memory byte. -/
inductive ShiftMode where
  | acc | zp (l : Byte) | zpx (l : Byte) | abs (w : Word) | abx (w : Word)
  deriving DecidableEq, Repr

/-- The two modes of JMP (R271). -/
inductive JmpMode where
  | abs (w : Word) | ind (w : Word)
  deriving DecidableEq, Repr

/-- A decoded instruction. A branch carries its displacement byte as encoded (R112). BRK carries nothing: its
padding byte is skipped and ignored (R124, R274). DEDUCED (assumption 11). -/
inductive Instr where
  -- 41_load_store.md
  | lda (m : AluMode) | ldx (m : LdxMode) | ldy (m : LdyMode)
  | sta (m : StaMode) | stx (m : StxMode) | sty (m : StyMode)
  -- 42_transfer_stack.md
  | tax | tay | txa | tya | tsx | txs | pha | php | pla | plp
  -- 43_arith_logic.md
  | adc (m : AluMode) | sbc (m : AluMode) | and (m : AluMode) | ora (m : AluMode) | eor (m : AluMode)
  | bit (m : BitMode) | cmp (m : AluMode) | cpx (m : CpMode) | cpy (m : CpMode)
  -- 44_incdec_shift.md
  | inc (m : RmwMode) | dec (m : RmwMode) | inx | iny | dex | dey
  | asl (m : ShiftMode) | lsr (m : ShiftMode) | rol (m : ShiftMode) | ror (m : ShiftMode)
  -- 45_control.md
  | bcc (d : Byte) | bcs (d : Byte) | beq (d : Byte) | bmi (d : Byte)
  | bne (d : Byte) | bpl (d : Byte) | bvc (d : Byte) | bvs (d : Byte)
  | jmp (m : JmpMode) | jsr (w : Word) | rts | brk | rti
  -- 46_flags_misc.md
  | clc | cld | cli | clv | sec | sed | sei | nop
  | illegal (op : Byte)   -- the 105 rows `???` (R123, R300)
  deriving DecidableEq, Repr

end Sys2Proof
end

