-- ==== Sys2Proof/Machine/Rom.lean ====
section
/-! DEFINITION. The instruction ROM (rules R116 to R123) and the mnemonic ROM (R312): 256 entries indexed by the
opcode byte, the one table the interpreter, the encoder's check and the disassembler read. -/

namespace Sys2Proof.Machine

/-- One ROM entry: the mnemonic (R312) and the InstructionInfo fields mode, size, cycles, pagecycles (R116). -/
structure RomEntry where
  mnemonic : Mnemonic
  mode : Mode
  size : Nat
  cycles : Nat
  pagecycles : Nat
  deriving DecidableEq, Repr

/-- An illegal entry (R123). Its `cycles` is filled in by `rom`, since it is `ILLEGAL_CYCLES(op)`. -/
def ill : RomEntry := ⟨.placeholder, .invalid, 0, 0, 0⟩

/-- Opcodes $00 to $0F (R121, R123). -/
def romRow0 : List RomEntry :=
  [⟨.brk, .implied, 2, 7, 0⟩, ⟨.ora, .indexedIndirect, 2, 6, 0⟩, ill, ill,
   ill, ⟨.ora, .zeroPage, 2, 3, 0⟩, ⟨.asl, .zeroPage, 2, 5, 0⟩, ill,
   ⟨.php, .implied, 1, 3, 0⟩, ⟨.ora, .immediate, 2, 2, 0⟩, ⟨.asl, .accumulator, 1, 2, 0⟩, ill,
   ill, ⟨.ora, .absolute, 3, 4, 0⟩, ⟨.asl, .absolute, 3, 6, 0⟩, ill]

/-- Opcodes $10 to $1F (R121, R123). -/
def romRow1 : List RomEntry :=
  [⟨.bpl, .relative, 2, 2, 0⟩, ⟨.ora, .indirectIndexed, 2, 5, 1⟩, ill, ill,
   ill, ⟨.ora, .zeroPageX, 2, 4, 0⟩, ⟨.asl, .zeroPageX, 2, 6, 0⟩, ill,
   ⟨.clc, .implied, 1, 2, 0⟩, ⟨.ora, .absoluteY, 3, 4, 1⟩, ill, ill,
   ill, ⟨.ora, .absoluteX, 3, 4, 1⟩, ⟨.asl, .absoluteX, 3, 7, 0⟩, ill]

/-- Opcodes $20 to $2F (R121, R123). -/
def romRow2 : List RomEntry :=
  [⟨.jsr, .absolute, 3, 6, 0⟩, ⟨.and, .indexedIndirect, 2, 6, 0⟩, ill, ill,
   ⟨.bit, .zeroPage, 2, 3, 0⟩, ⟨.and, .zeroPage, 2, 3, 0⟩, ⟨.rol, .zeroPage, 2, 5, 0⟩, ill,
   ⟨.plp, .implied, 1, 4, 0⟩, ⟨.and, .immediate, 2, 2, 0⟩, ⟨.rol, .accumulator, 1, 2, 0⟩, ill,
   ⟨.bit, .absolute, 3, 4, 0⟩, ⟨.and, .absolute, 3, 4, 0⟩, ⟨.rol, .absolute, 3, 6, 0⟩, ill]

/-- Opcodes $30 to $3F (R121, R123). -/
def romRow3 : List RomEntry :=
  [⟨.bmi, .relative, 2, 2, 0⟩, ⟨.and, .indirectIndexed, 2, 5, 1⟩, ill, ill,
   ill, ⟨.and, .zeroPageX, 2, 4, 0⟩, ⟨.rol, .zeroPageX, 2, 6, 0⟩, ill,
   ⟨.sec, .implied, 1, 2, 0⟩, ⟨.and, .absoluteY, 3, 4, 1⟩, ill, ill,
   ill, ⟨.and, .absoluteX, 3, 4, 1⟩, ⟨.rol, .absoluteX, 3, 7, 0⟩, ill]

/-- Opcodes $40 to $4F (R121, R123). -/
def romRow4 : List RomEntry :=
  [⟨.rti, .implied, 1, 6, 0⟩, ⟨.eor, .indexedIndirect, 2, 6, 0⟩, ill, ill,
   ill, ⟨.eor, .zeroPage, 2, 3, 0⟩, ⟨.lsr, .zeroPage, 2, 5, 0⟩, ill,
   ⟨.pha, .implied, 1, 3, 0⟩, ⟨.eor, .immediate, 2, 2, 0⟩, ⟨.lsr, .accumulator, 1, 2, 0⟩, ill,
   ⟨.jmp, .absolute, 3, 3, 0⟩, ⟨.eor, .absolute, 3, 4, 0⟩, ⟨.lsr, .absolute, 3, 6, 0⟩, ill]

/-- Opcodes $50 to $5F (R121, R123). -/
def romRow5 : List RomEntry :=
  [⟨.bvc, .relative, 2, 2, 0⟩, ⟨.eor, .indirectIndexed, 2, 5, 1⟩, ill, ill,
   ill, ⟨.eor, .zeroPageX, 2, 4, 0⟩, ⟨.lsr, .zeroPageX, 2, 6, 0⟩, ill,
   ⟨.cli, .implied, 1, 2, 0⟩, ⟨.eor, .absoluteY, 3, 4, 1⟩, ill, ill,
   ill, ⟨.eor, .absoluteX, 3, 4, 1⟩, ⟨.lsr, .absoluteX, 3, 7, 0⟩, ill]

/-- Opcodes $60 to $6F (R121, R123). -/
def romRow6 : List RomEntry :=
  [⟨.rts, .implied, 1, 6, 0⟩, ⟨.adc, .indexedIndirect, 2, 6, 0⟩, ill, ill,
   ill, ⟨.adc, .zeroPage, 2, 3, 0⟩, ⟨.ror, .zeroPage, 2, 5, 0⟩, ill,
   ⟨.pla, .implied, 1, 4, 0⟩, ⟨.adc, .immediate, 2, 2, 0⟩, ⟨.ror, .accumulator, 1, 2, 0⟩, ill,
   ⟨.jmp, .indirect, 3, 5, 0⟩, ⟨.adc, .absolute, 3, 4, 0⟩, ⟨.ror, .absolute, 3, 6, 0⟩, ill]

/-- Opcodes $70 to $7F (R121, R123). -/
def romRow7 : List RomEntry :=
  [⟨.bvs, .relative, 2, 2, 0⟩, ⟨.adc, .indirectIndexed, 2, 5, 1⟩, ill, ill,
   ill, ⟨.adc, .zeroPageX, 2, 4, 0⟩, ⟨.ror, .zeroPageX, 2, 6, 0⟩, ill,
   ⟨.sei, .implied, 1, 2, 0⟩, ⟨.adc, .absoluteY, 3, 4, 1⟩, ill, ill,
   ill, ⟨.adc, .absoluteX, 3, 4, 1⟩, ⟨.ror, .absoluteX, 3, 7, 0⟩, ill]

/-- Opcodes $80 to $8F (R121, R123). -/
def romRow8 : List RomEntry :=
  [ill, ⟨.sta, .indexedIndirect, 2, 6, 0⟩, ill, ill,
   ⟨.sty, .zeroPage, 2, 3, 0⟩, ⟨.sta, .zeroPage, 2, 3, 0⟩, ⟨.stx, .zeroPage, 2, 3, 0⟩, ill,
   ⟨.dey, .implied, 1, 2, 0⟩, ill, ⟨.txa, .implied, 1, 2, 0⟩, ill,
   ⟨.sty, .absolute, 3, 4, 0⟩, ⟨.sta, .absolute, 3, 4, 0⟩, ⟨.stx, .absolute, 3, 4, 0⟩, ill]

/-- Opcodes $90 to $9F (R121, R123). -/
def romRow9 : List RomEntry :=
  [⟨.bcc, .relative, 2, 2, 0⟩, ⟨.sta, .indirectIndexed, 2, 6, 0⟩, ill, ill,
   ⟨.sty, .zeroPageX, 2, 4, 0⟩, ⟨.sta, .zeroPageX, 2, 4, 0⟩, ⟨.stx, .zeroPageY, 2, 4, 0⟩, ill,
   ⟨.tya, .implied, 1, 2, 0⟩, ⟨.sta, .absoluteY, 3, 5, 0⟩, ⟨.txs, .implied, 1, 2, 0⟩, ill,
   ill, ⟨.sta, .absoluteX, 3, 5, 0⟩, ill, ill]

/-- Opcodes $A0 to $AF (R121, R123). -/
def romRowA : List RomEntry :=
  [⟨.ldy, .immediate, 2, 2, 0⟩, ⟨.lda, .indexedIndirect, 2, 6, 0⟩, ⟨.ldx, .immediate, 2, 2, 0⟩, ill,
   ⟨.ldy, .zeroPage, 2, 3, 0⟩, ⟨.lda, .zeroPage, 2, 3, 0⟩, ⟨.ldx, .zeroPage, 2, 3, 0⟩, ill,
   ⟨.tay, .implied, 1, 2, 0⟩, ⟨.lda, .immediate, 2, 2, 0⟩, ⟨.tax, .implied, 1, 2, 0⟩, ill,
   ⟨.ldy, .absolute, 3, 4, 0⟩, ⟨.lda, .absolute, 3, 4, 0⟩, ⟨.ldx, .absolute, 3, 4, 0⟩, ill]

/-- Opcodes $B0 to $BF (R121, R123). -/
def romRowB : List RomEntry :=
  [⟨.bcs, .relative, 2, 2, 0⟩, ⟨.lda, .indirectIndexed, 2, 5, 1⟩, ill, ill,
   ⟨.ldy, .zeroPageX, 2, 4, 0⟩, ⟨.lda, .zeroPageX, 2, 4, 0⟩, ⟨.ldx, .zeroPageY, 2, 4, 0⟩, ill,
   ⟨.clv, .implied, 1, 2, 0⟩, ⟨.lda, .absoluteY, 3, 4, 1⟩, ⟨.tsx, .implied, 1, 2, 0⟩, ill,
   ⟨.ldy, .absoluteX, 3, 4, 1⟩, ⟨.lda, .absoluteX, 3, 4, 1⟩, ⟨.ldx, .absoluteY, 3, 4, 1⟩, ill]

/-- Opcodes $C0 to $CF (R121, R123). -/
def romRowC : List RomEntry :=
  [⟨.cpy, .immediate, 2, 2, 0⟩, ⟨.cmp, .indexedIndirect, 2, 6, 0⟩, ill, ill,
   ⟨.cpy, .zeroPage, 2, 3, 0⟩, ⟨.cmp, .zeroPage, 2, 3, 0⟩, ⟨.dec, .zeroPage, 2, 5, 0⟩, ill,
   ⟨.iny, .implied, 1, 2, 0⟩, ⟨.cmp, .immediate, 2, 2, 0⟩, ⟨.dex, .implied, 1, 2, 0⟩, ill,
   ⟨.cpy, .absolute, 3, 4, 0⟩, ⟨.cmp, .absolute, 3, 4, 0⟩, ⟨.dec, .absolute, 3, 6, 0⟩, ill]

/-- Opcodes $D0 to $DF (R121, R123). -/
def romRowD : List RomEntry :=
  [⟨.bne, .relative, 2, 2, 0⟩, ⟨.cmp, .indirectIndexed, 2, 5, 1⟩, ill, ill,
   ill, ⟨.cmp, .zeroPageX, 2, 4, 0⟩, ⟨.dec, .zeroPageX, 2, 6, 0⟩, ill,
   ⟨.cld, .implied, 1, 2, 0⟩, ⟨.cmp, .absoluteY, 3, 4, 1⟩, ill, ill,
   ill, ⟨.cmp, .absoluteX, 3, 4, 1⟩, ⟨.dec, .absoluteX, 3, 7, 0⟩, ill]

/-- Opcodes $E0 to $EF (R121, R123). -/
def romRowE : List RomEntry :=
  [⟨.cpx, .immediate, 2, 2, 0⟩, ⟨.sbc, .indexedIndirect, 2, 6, 0⟩, ill, ill,
   ⟨.cpx, .zeroPage, 2, 3, 0⟩, ⟨.sbc, .zeroPage, 2, 3, 0⟩, ⟨.inc, .zeroPage, 2, 5, 0⟩, ill,
   ⟨.inx, .implied, 1, 2, 0⟩, ⟨.sbc, .immediate, 2, 2, 0⟩, ⟨.nop, .implied, 1, 2, 0⟩, ill,
   ⟨.cpx, .absolute, 3, 4, 0⟩, ⟨.sbc, .absolute, 3, 4, 0⟩, ⟨.inc, .absolute, 3, 6, 0⟩, ill]

/-- Opcodes $F0 to $FF (R121, R123). -/
def romRowF : List RomEntry :=
  [⟨.beq, .relative, 2, 2, 0⟩, ⟨.sbc, .indirectIndexed, 2, 5, 1⟩, ill, ill,
   ill, ⟨.sbc, .zeroPageX, 2, 4, 0⟩, ⟨.inc, .zeroPageX, 2, 6, 0⟩, ill,
   ⟨.sed, .implied, 1, 2, 0⟩, ⟨.sbc, .absoluteY, 3, 4, 1⟩, ill, ill,
   ill, ⟨.sbc, .absoluteX, 3, 4, 1⟩, ⟨.inc, .absoluteX, 3, 7, 0⟩, ill]

/-- The 256 entries in opcode order. -/
def romTable : List RomEntry :=
  romRow0 ++ romRow1 ++ romRow2 ++ romRow3 ++ romRow4 ++ romRow5 ++ romRow6 ++ romRow7 ++
  romRow8 ++ romRow9 ++ romRowA ++ romRowB ++ romRowC ++ romRowD ++ romRowE ++ romRowF

/-- The table's entry for an opcode byte, before R123 fills in an illegal entry's cycles. -/
def romEntry (op : Byte) : RomEntry := romTable.getD op.toNat ill

/-- An opcode byte is illegal when its table length is 0 (R21, R123). -/
def isIllegal (op : Byte) : Bool := (romEntry op).size == 0

/-- `ROM[op]` (R116), with `cycles = ILLEGAL_CYCLES(op)` in the illegal entries (R123). -/
def rom (op : Byte) : RomEntry :=
  if isIllegal op then { romEntry op with cycles := Config.illegalCycles op } else romEntry op

/-- How far S5 advances PC (R145): the size, or 1 for an illegal opcode. -/
def RomEntry.advance (e : RomEntry) : Nat := if e.size = 0 then 1 else e.size

/-- How many operand bytes the effective-address unit reads for a mode (R101, R102). Implied reads none (R113), so
BRK's padding byte is skipped and not read. -/
def operandBytes : Mode → Nat
  | .implied | .accumulator | .pseudo | .invalid => 0
  | .immediate | .zeroPage | .zeroPageX | .zeroPageY | .relative | .indexedIndirect | .indirectIndexed => 1
  | .absolute | .absoluteX | .absoluteY | .indirect => 2

/-- The mode's number (R117). Not observable by a program. -/
def modeIndex : Mode → Nat
  | .absolute => 0 | .absoluteX => 1 | .absoluteY => 2 | .accumulator => 3 | .immediate => 4
  | .implied => 5 | .indexedIndirect => 6 | .indirect => 7 | .indirectIndexed => 8 | .relative => 9
  | .zeroPage => 10 | .zeroPageX => 11 | .zeroPageY => 12 | .pseudo => 13 | .invalid => 14

/-- The mnemonics in the order of their 6-bit index 0 to 56 (R312). -/
def mnemonicList : List Mnemonic :=
  [.adc, .and, .asl, .bcc, .bcs, .beq, .bit, .bmi, .bne, .bpl, .brk, .bvc, .bvs, .clc, .cld, .cli, .clv, .cmp,
   .cpx, .cpy, .dec, .dex, .dey, .eor, .inc, .inx, .iny, .jmp, .jsr, .lda, .ldx, .ldy, .lsr, .nop, .ora, .pha] ++
  [.php, .pla, .plp, .rol, .ror, .rti, .rts, .sbc, .sec, .sed, .sei, .sta, .stx, .sty, .tax, .tay, .tsx, .txa,
   .txs, .tya, .placeholder]

/-- The mnemonic ROM's index for an opcode byte (R312). -/
def mnemonicIndex (op : Byte) : Nat := mnemonicList.idxOf (romEntry op).mnemonic

end Sys2Proof.Machine
end

