-- ==== Sys2Proof/Decode.lean ====
section
/-! DEFINITION. From instruction bytes to `Instr` and back. The decoder reads the instruction ROM's mode and the
mnemonic ROM (R121, R312); the encoder is written from the table of opcodes per mnemonic and mode (R122). -/

namespace Sys2Proof

open Sys2Proof.Machine (mkWord hi lo rom romEntry operandBytes)

/-! ### Operand forms by mode (R101). Byte 1 is `l`, byte 2 is `h`. -/

/-- The eight-mode group's form for a mode. -/
def aluMode (m : Mode) (l h : Byte) : Option AluMode :=
  match m with
  | .immediate => some (.imm l)
  | .zeroPage => some (.zp l)
  | .zeroPageX => some (.zpx l)
  | .absolute => some (.abs (mkWord h l))
  | .absoluteX => some (.abx (mkWord h l))
  | .absoluteY => some (.aby (mkWord h l))
  | .indexedIndirect => some (.izx l)
  | .indirectIndexed => some (.izy l)
  | _ => none

/-- STA's form for a mode. -/
def staMode (m : Mode) (l h : Byte) : Option StaMode :=
  match m with
  | .zeroPage => some (.zp l)
  | .zeroPageX => some (.zpx l)
  | .absolute => some (.abs (mkWord h l))
  | .absoluteX => some (.abx (mkWord h l))
  | .absoluteY => some (.aby (mkWord h l))
  | .indexedIndirect => some (.izx l)
  | .indirectIndexed => some (.izy l)
  | _ => none

/-- LDX's form for a mode. -/
def ldxMode (m : Mode) (l h : Byte) : Option LdxMode :=
  match m with
  | .immediate => some (.imm l)
  | .zeroPage => some (.zp l)
  | .zeroPageY => some (.zpy l)
  | .absolute => some (.abs (mkWord h l))
  | .absoluteY => some (.aby (mkWord h l))
  | _ => none

/-- LDY's form for a mode. -/
def ldyMode (m : Mode) (l h : Byte) : Option LdyMode :=
  match m with
  | .immediate => some (.imm l)
  | .zeroPage => some (.zp l)
  | .zeroPageX => some (.zpx l)
  | .absolute => some (.abs (mkWord h l))
  | .absoluteX => some (.abx (mkWord h l))
  | _ => none

/-- STX's form for a mode. -/
def stxMode (m : Mode) (l h : Byte) : Option StxMode :=
  match m with
  | .zeroPage => some (.zp l)
  | .zeroPageY => some (.zpy l)
  | .absolute => some (.abs (mkWord h l))
  | _ => none

/-- STY's form for a mode. -/
def styMode (m : Mode) (l h : Byte) : Option StyMode :=
  match m with
  | .zeroPage => some (.zp l)
  | .zeroPageX => some (.zpx l)
  | .absolute => some (.abs (mkWord h l))
  | _ => none

/-- CPX's and CPY's form for a mode. -/
def cpMode (m : Mode) (l h : Byte) : Option CpMode :=
  match m with
  | .immediate => some (.imm l)
  | .zeroPage => some (.zp l)
  | .absolute => some (.abs (mkWord h l))
  | _ => none

/-- BIT's form for a mode. -/
def bitMode (m : Mode) (l h : Byte) : Option BitMode :=
  match m with
  | .zeroPage => some (.zp l)
  | .absolute => some (.abs (mkWord h l))
  | _ => none

/-- INC's and DEC's form for a mode. -/
def rmwMode (m : Mode) (l h : Byte) : Option RmwMode :=
  match m with
  | .zeroPage => some (.zp l)
  | .zeroPageX => some (.zpx l)
  | .absolute => some (.abs (mkWord h l))
  | .absoluteX => some (.abx (mkWord h l))
  | _ => none

/-- A shift's form for a mode. -/
def shiftMode (m : Mode) (l h : Byte) : Option ShiftMode :=
  match m with
  | .accumulator => some .acc
  | .zeroPage => some (.zp l)
  | .zeroPageX => some (.zpx l)
  | .absolute => some (.abs (mkWord h l))
  | .absoluteX => some (.abx (mkWord h l))
  | _ => none

/-- JMP's form for a mode. -/
def jmpMode (m : Mode) (l h : Byte) : Option JmpMode :=
  match m with
  | .absolute => some (.abs (mkWord h l))
  | .indirect => some (.ind (mkWord h l))
  | _ => none

/-! ### Decoding -/

/-- The instruction of a mnemonic in a mode with the operand bytes `l` and `h`, if the mnemonic has that mode. -/
def build (n : Mnemonic) (m : Mode) (l h : Byte) : Option Instr :=
  match n with
  | .lda => (aluMode m l h).map .lda
  | .ldx => (ldxMode m l h).map .ldx
  | .ldy => (ldyMode m l h).map .ldy
  | .sta => (staMode m l h).map .sta
  | .stx => (stxMode m l h).map .stx
  | .sty => (styMode m l h).map .sty
  | .tax => some .tax
  | .tay => some .tay
  | .txa => some .txa
  | .tya => some .tya
  | .tsx => some .tsx
  | .txs => some .txs
  | .pha => some .pha
  | .php => some .php
  | .pla => some .pla
  | .plp => some .plp
  | .adc => (aluMode m l h).map .adc
  | .sbc => (aluMode m l h).map .sbc
  | .and => (aluMode m l h).map .and
  | .ora => (aluMode m l h).map .ora
  | .eor => (aluMode m l h).map .eor
  | .bit => (bitMode m l h).map .bit
  | .cmp => (aluMode m l h).map .cmp
  | .cpx => (cpMode m l h).map .cpx
  | .cpy => (cpMode m l h).map .cpy
  | .inc => (rmwMode m l h).map .inc
  | .dec => (rmwMode m l h).map .dec
  | .inx => some .inx
  | .iny => some .iny
  | .dex => some .dex
  | .dey => some .dey
  | .asl => (shiftMode m l h).map .asl
  | .lsr => (shiftMode m l h).map .lsr
  | .rol => (shiftMode m l h).map .rol
  | .ror => (shiftMode m l h).map .ror
  | .bcc => some (.bcc l)
  | .bcs => some (.bcs l)
  | .beq => some (.beq l)
  | .bmi => some (.bmi l)
  | .bne => some (.bne l)
  | .bpl => some (.bpl l)
  | .bvc => some (.bvc l)
  | .bvs => some (.bvs l)
  | .jmp => (jmpMode m l h).map .jmp
  | .jsr => some (.jsr (mkWord h l))
  | .rts => some .rts
  | .brk => some .brk
  | .rti => some .rti
  | .clc => some .clc
  | .cld => some .cld
  | .cli => some .cli
  | .clv => some .clv
  | .sec => some .sec
  | .sed => some .sed
  | .sei => some .sei
  | .nop => some .nop
  | .placeholder => none

/-- The instruction an opcode byte and its operand bytes are (R100, R125): "the same opcode byte always decodes the
same way". Total: a byte whose ROM entry names no instruction is an illegal opcode (R123). -/
def decodeOpcode (op l h : Byte) : Instr :=
  (build (romEntry op).mnemonic (romEntry op).mode l h).getD (.illegal op)

/-- Why a list of bytes is no instruction: it ends before the instruction does. No opcode byte is refused, since the
105 illegal bytes decode to `illegal`. -/
inductive DecodeError where
  /-- There is no byte at all. -/
  | noBytes
  /-- The opcode's length (R100) exceeds the bytes present. Safe: the machine itself reads as many as it needs. -/
  | truncated (op : Byte)
  deriving DecidableEq, Repr

/-- Decoding on any bytes: the instruction and the bytes after it, or the named reason. The length is a function of
the first byte alone (R100, R125), and an illegal opcode is one byte long (R145). -/
def decode : List Byte → Except DecodeError (Instr × List Byte)
  | [] => .error .noBytes
  | op :: rest =>
    if rest.length + 1 < (romEntry op).advance then .error (.truncated op)
    else .ok (decodeOpcode op (rest.getD 0 0#8) (rest.getD 1 0#8), rest.drop ((romEntry op).advance - 1))

/-- Byte `k` of a number laid out with its least significant byte first. -/
def byteOf (w k : Nat) : Byte := BitVec.ofNat 8 (w / 2 ^ (8 * k))

/-- The instruction read from an instruction whose bits are `w`, bit 0 the least significant bit of the opcode byte,
bits 15..8 byte 1 and bits 23..16 byte 2. Every bit from `nbits` on is 0. -/
def decodeTableWord (nbits w : Nat) : Option Instr :=
  let v := w % 2 ^ nbits
  match decode [byteOf v 0, byteOf v 1, byteOf v 2] with
  | .ok r => some r.1
  | .error _ => none

/-! ### Operands -/

/-- A form of the eight-mode group as an operand. -/
def AluMode.operand : AluMode → Operand
  | .imm v => .imm v | .zp l => .zp l | .zpx l => .zpx l | .abs w => .abs w
  | .abx w => .abx w | .aby w => .aby w | .izx l => .izx l | .izy l => .izy l

/-- STA's form as an operand. -/
def StaMode.operand : StaMode → Operand
  | .zp l => .zp l | .zpx l => .zpx l | .abs w => .abs w
  | .abx w => .abx w | .aby w => .aby w | .izx l => .izx l | .izy l => .izy l

/-- LDX's form as an operand. -/
def LdxMode.operand : LdxMode → Operand
  | .imm v => .imm v | .zp l => .zp l | .zpy l => .zpy l | .abs w => .abs w | .aby w => .aby w

/-- LDY's form as an operand. -/
def LdyMode.operand : LdyMode → Operand
  | .imm v => .imm v | .zp l => .zp l | .zpx l => .zpx l | .abs w => .abs w | .abx w => .abx w

/-- STX's form as an operand. -/
def StxMode.operand : StxMode → Operand
  | .zp l => .zp l | .zpy l => .zpy l | .abs w => .abs w

/-- STY's form as an operand. -/
def StyMode.operand : StyMode → Operand
  | .zp l => .zp l | .zpx l => .zpx l | .abs w => .abs w

/-- CPX's and CPY's form as an operand. -/
def CpMode.operand : CpMode → Operand
  | .imm v => .imm v | .zp l => .zp l | .abs w => .abs w

/-- BIT's form as an operand. -/
def BitMode.operand : BitMode → Operand
  | .zp l => .zp l | .abs w => .abs w

/-- INC's and DEC's form as an operand. -/
def RmwMode.operand : RmwMode → Operand
  | .zp l => .zp l | .zpx l => .zpx l | .abs w => .abs w | .abx w => .abx w

/-- A shift's form as an operand. -/
def ShiftMode.operand : ShiftMode → Operand
  | .acc => .acc | .zp l => .zp l | .zpx l => .zpx l | .abs w => .abs w | .abx w => .abx w

/-- JMP's form as an operand. -/
def JmpMode.operand : JmpMode → Operand
  | .abs w => .abs w | .ind w => .ind w

/-- The operand of an instruction (R101). -/
def Instr.operand : Instr → Operand
  | .lda m | .adc m | .sbc m | .and m | .ora m | .eor m | .cmp m => m.operand
  | .ldx m => m.operand
  | .ldy m => m.operand
  | .sta m => m.operand
  | .stx m => m.operand
  | .sty m => m.operand
  | .bit m => m.operand
  | .cpx m | .cpy m => m.operand
  | .inc m | .dec m => m.operand
  | .asl m | .lsr m | .rol m | .ror m => m.operand
  | .jmp m => m.operand
  | .jsr w => .abs w
  | .bcc d | .bcs d | .beq d | .bmi d | .bne d | .bpl d | .bvc d | .bvs d => .rel d
  | .tax | .tay | .txa | .tya | .tsx | .txs | .pha | .php | .pla | .plp => .imp
  | .inx | .iny | .dex | .dey | .rts | .brk | .rti => .imp
  | .clc | .cld | .cli | .clv | .sec | .sed | .sei | .nop | .illegal _ => .imp

/-! ### Encoding (R122) -/

/-- Opcodes of an instruction of the eight-mode group, in R122's column order IMM ZP ZPX ABS ABX ABY IZX IZY. -/
def aluOpcode (imm zp zpx abs abx aby izx izy : Byte) : AluMode → Byte
  | .imm _ => imm | .zp _ => zp | .zpx _ => zpx | .abs _ => abs
  | .abx _ => abx | .aby _ => aby | .izx _ => izx | .izy _ => izy

/-- Opcodes of a shift, in the order ACC ZP ZPX ABS ABX. -/
def shiftOpcode (acc zp zpx abs abx : Byte) : ShiftMode → Byte
  | .acc => acc | .zp _ => zp | .zpx _ => zpx | .abs _ => abs | .abx _ => abx

/-- Opcodes of INC or DEC, in the order ZP ZPX ABS ABX. -/
def rmwOpcode (zp zpx abs abx : Byte) : RmwMode → Byte
  | .zp _ => zp | .zpx _ => zpx | .abs _ => abs | .abx _ => abx

/-- Opcodes of CPX or CPY, in the order IMM ZP ABS. -/
def cpOpcode (imm zp abs : Byte) : CpMode → Byte
  | .imm _ => imm | .zp _ => zp | .abs _ => abs

/-- The opcode byte of an instruction (R122). -/
def Instr.opcode : Instr → Byte
  | .adc m => aluOpcode 0x69#8 0x65#8 0x75#8 0x6D#8 0x7D#8 0x79#8 0x61#8 0x71#8 m
  | .and m => aluOpcode 0x29#8 0x25#8 0x35#8 0x2D#8 0x3D#8 0x39#8 0x21#8 0x31#8 m
  | .cmp m => aluOpcode 0xC9#8 0xC5#8 0xD5#8 0xCD#8 0xDD#8 0xD9#8 0xC1#8 0xD1#8 m
  | .eor m => aluOpcode 0x49#8 0x45#8 0x55#8 0x4D#8 0x5D#8 0x59#8 0x41#8 0x51#8 m
  | .lda m => aluOpcode 0xA9#8 0xA5#8 0xB5#8 0xAD#8 0xBD#8 0xB9#8 0xA1#8 0xB1#8 m
  | .ora m => aluOpcode 0x09#8 0x05#8 0x15#8 0x0D#8 0x1D#8 0x19#8 0x01#8 0x11#8 m
  | .sbc m => aluOpcode 0xE9#8 0xE5#8 0xF5#8 0xED#8 0xFD#8 0xF9#8 0xE1#8 0xF1#8 m
  | .sta (.zp _) => 0x85#8
  | .sta (.zpx _) => 0x95#8
  | .sta (.abs _) => 0x8D#8
  | .sta (.abx _) => 0x9D#8
  | .sta (.aby _) => 0x99#8
  | .sta (.izx _) => 0x81#8
  | .sta (.izy _) => 0x91#8
  | .ldx (.imm _) => 0xA2#8
  | .ldx (.zp _) => 0xA6#8
  | .ldx (.zpy _) => 0xB6#8
  | .ldx (.abs _) => 0xAE#8
  | .ldx (.aby _) => 0xBE#8
  | .ldy (.imm _) => 0xA0#8
  | .ldy (.zp _) => 0xA4#8
  | .ldy (.zpx _) => 0xB4#8
  | .ldy (.abs _) => 0xAC#8
  | .ldy (.abx _) => 0xBC#8
  | .stx (.zp _) => 0x86#8
  | .stx (.zpy _) => 0x96#8
  | .stx (.abs _) => 0x8E#8
  | .sty (.zp _) => 0x84#8
  | .sty (.zpx _) => 0x94#8
  | .sty (.abs _) => 0x8C#8
  | .bit (.zp _) => 0x24#8
  | .bit (.abs _) => 0x2C#8
  | .cpx m => cpOpcode 0xE0#8 0xE4#8 0xEC#8 m
  | .cpy m => cpOpcode 0xC0#8 0xC4#8 0xCC#8 m
  | .inc m => rmwOpcode 0xE6#8 0xF6#8 0xEE#8 0xFE#8 m
  | .dec m => rmwOpcode 0xC6#8 0xD6#8 0xCE#8 0xDE#8 m
  | .asl m => shiftOpcode 0x0A#8 0x06#8 0x16#8 0x0E#8 0x1E#8 m
  | .lsr m => shiftOpcode 0x4A#8 0x46#8 0x56#8 0x4E#8 0x5E#8 m
  | .rol m => shiftOpcode 0x2A#8 0x26#8 0x36#8 0x2E#8 0x3E#8 m
  | .ror m => shiftOpcode 0x6A#8 0x66#8 0x76#8 0x6E#8 0x7E#8 m
  | .jmp (.abs _) => 0x4C#8
  | .jmp (.ind _) => 0x6C#8
  | .bcc _ => 0x90#8
  | .bcs _ => 0xB0#8
  | .beq _ => 0xF0#8
  | .bmi _ => 0x30#8
  | .bne _ => 0xD0#8
  | .bpl _ => 0x10#8
  | .bvc _ => 0x50#8
  | .bvs _ => 0x70#8
  | .brk => 0x00#8
  | .clc => 0x18#8
  | .cld => 0xD8#8
  | .cli => 0x58#8
  | .clv => 0xB8#8
  | .dex => 0xCA#8
  | .dey => 0x88#8
  | .inx => 0xE8#8
  | .iny => 0xC8#8
  | .jsr _ => 0x20#8
  | .nop => 0xEA#8
  | .pha => 0x48#8
  | .php => 0x08#8
  | .pla => 0x68#8
  | .plp => 0x28#8
  | .rti => 0x40#8
  | .rts => 0x60#8
  | .sec => 0x38#8
  | .sed => 0xF8#8
  | .sei => 0x78#8
  | .tax => 0xAA#8
  | .tay => 0xA8#8
  | .tsx => 0xBA#8
  | .txa => 0x8A#8
  | .txs => 0x9A#8
  | .tya => 0x98#8
  | .illegal op => op

/-- The bytes of an operand after the opcode, low byte first (R71, R101). -/
def Operand.bytes : Operand → List Byte
  | .imp | .acc => []
  | .imm v => [v]
  | .zp l | .zpx l | .zpy l | .izx l | .izy l => [l]
  | .rel d => [d]
  | .abs w | .abx w | .aby w | .ind w => [lo w, hi w]

/-- The bytes of an instruction. BRK's padding byte is emitted as $00 (R124, R345). -/
def encode (i : Instr) : List Byte :=
  i.opcode :: (i.operand.bytes ++ if i = .brk then [0x00#8] else [])

/-- The instruction's ROM entry (R116). -/
def Instr.info (i : Instr) : Machine.RomEntry := rom i.opcode

end Sys2Proof
end

