-- ==== Sys2Proof/Machine/Memory.lean ====
section
/-! DEFINITION. One byte-addressed storage as plain data: a list of (address, byte) pairs in one canonical form. RAM,
PRG and CHR (R49) are three of these. -/

namespace Sys2Proof.Machine

/-- A storage's listed bytes: addresses strictly rising, no entry equal to what an unlisted address holds. -/
abbrev Memory := List Host.Cell

/-- What a location no one has written or loaded holds. DESIGN CHOICE (assumption 1): $00, in RAM, PRG and CHR. -/
def unlistedByte : Byte := 0x00#8

/-- The byte at an address. -/
def Memory.read : Memory → Nat → Byte
  | [], _ => unlistedByte
  | (k, v) :: m, a => if k = a then v else Memory.read m a

/-- The storage with byte `v` at address `a`, in canonical form again: writing what an unlisted address holds removes
the entry. -/
def Memory.write : Memory → Nat → Byte → Memory
  | [], a, v => if v = unlistedByte then [] else [(a, v)]
  | (k, w) :: m, a, v =>
    if a < k then (if v = unlistedByte then (k, w) :: m else (a, v) :: (k, w) :: m)
    else if a = k then (if v = unlistedByte then m else (a, v) :: m)
    else (k, w) :: Memory.write m a v

/-- Every key is at least `n`, the keys rise strictly, and no entry holds the unlisted byte. -/
def Memory.wfFrom (n : Nat) : Memory → Bool
  | [] => true
  | (k, v) :: m => decide (n ≤ k) && decide (v ≠ unlistedByte) && Memory.wfFrom (k + 1) m

/-- The canonical form. -/
def Memory.wf (m : Memory) : Bool := Memory.wfFrom 0 m

/-- Every listed address is below `n`: the storage has `n` bytes. -/
def Memory.below (n : Nat) (m : Memory) : Bool := m.all (fun c => decide (c.1 < n))

/-- The storage that holds these bytes, the first entry of an address winning, and the unlisted byte elsewhere. -/
def Memory.ofCells : List Host.Cell → Memory
  | [] => []
  | c :: cs => (Memory.ofCells cs).write c.1 c.2

end Sys2Proof.Machine
end

