-- ==== Sys2Proof/Machine/State.lean ====
section
/-! DEFINITION. The machine's state (rule R54), the reasons a step can stop, and the state right after Reset. -/

namespace Sys2Proof.Machine

/-- What a step hands to the host besides its next state (R48, R65). No step reads it back. -/
inductive Event where
  /-- `EXT_WRITE(a, v)`: a write to the external region, a sink (R65). -/
  | extWrite (a : Word) (v : Byte)
  /-- The recoverable diagnostic `IllegalOpcode(op, addr)` (R48, R300, R361). -/
  | illegalOpcode (op : Byte) (addr : Word)
  deriving DecidableEq, Repr

/-- The whole state. Widths and meaning by rules R30 to R50. The last four fields are the model's own. -/
structure State where
  /-- Accumulator (R31). -/
  a : Byte
  /-- Index register X (R32). -/
  x : Byte
  /-- Index register Y (R33). -/
  y : Byte
  /-- Stack pointer (R34). -/
  sp : Byte
  /-- Program counter (R40). -/
  pc : Word
  /-- The flags word: bits N V U B D I Z C from 7 down to 0 (R35). -/
  p : Byte
  /-- The running cycle counter, wrapping at 64 bits (R44). -/
  cycles : BitVec 64
  /-- The stall counter (R45). -/
  stall : Nat
  /-- A pending NMI request (R46). -/
  nmiPending : Bool
  /-- A pending IRQ request (R46). -/
  irqPending : Bool
  /-- The watchdog's state: branch address and target (R47). Stays `none` while `selfLoopAbort` is false. -/
  lastBranch : Option (Word × Word)
  /-- Work RAM, keys 0 to 2047 (R64). -/
  ram : Memory
  /-- Cartridge program storage, keys below `PRG_SIZE` (R61, R62). -/
  prg : Memory
  /-- Cartridge character storage, keys below `CHR_SIZE` (R61, R62). -/
  chr : Memory
  /-- The mapper's serial shift register with its sentinel (R83). -/
  shift : BitVec 5
  /-- Mapper register `control` (R85). -/
  control : BitVec 5
  /-- Mapper register `chr_bank0` (R86). -/
  chrBank0 : BitVec 5
  /-- Mapper register `chr_bank1` (R86). -/
  chrBank1 : BitVec 5
  /-- Mapper register `prg_bank` (R87). -/
  prgBank : BitVec 5
  /-- The parameters of R10 this machine was built with. No step changes them. DESIGN CHOICE (assumption 3). -/
  params : Params
  /-- Whether `Reset()` has been called: before it, a step is refused (R52). DESIGN CHOICE (assumption 7). -/
  resetDone : Bool
  /-- How many reads of the external region have been made: the number of the next draw (R65).
  DESIGN CHOICE (assumption 4). -/
  extReads : Nat
  /-- What the machine has handed to the host, newest first (R48, R65). DESIGN CHOICE (assumption 6). -/
  events : List Event
  deriving DecidableEq, Repr

/-- The bank-aware accessors of R69. -/
inductive Accessor where
  | readBank
  | writeBank
  deriving DecidableEq, Repr

/-- Why the machine stops for good: the aborts of R361. An aborted core takes no further step (R152), which is what
an outcome without a next state says. DEDUCED (assumption 13). -/
inductive Fault where
  /-- `Abort(SelfLoop)` recording the branch address: raised by a taken branch to itself, twice in a row, when
  `selfLoopAbort` is true (R270). Safe: it is the outcome the spec states. -/
  | selfLoop (pc0 : Word)
  /-- `Abort(StorageBounds)`: raised by a bank-aware CHR access when `CHR_SIZE = 0` (R78). Records the accessor
  and its address, a bank and an offset (R361). Safe: it is the outcome the spec states. No instruction raises it. -/
  | storageBounds (accessor : Accessor) (bank : Int) (offset : Word)
  deriving DecidableEq, Repr

/-- Why the model gives no answer. -/
inductive Refusal where
  /-- An instruction without a meaning, by its mnemonic. No arm of `exec` raises it any more. Safe. -/
  | notModelled (mnemonic : String)
  /-- `Emulate()` or `CpuState()` before the first `Reset()` (R52, R404): "A model refuses". Safe. -/
  | notReset
  /-- A cartridge whose sizes break R62, rejected at load. Safe: "A model refuses a configuration that breaks these
  constraints." -/
  | badConfiguration
  deriving DecidableEq, Repr

/-- The outcome of an instruction or a step. -/
abbrev Result := Host.Outcome State Fault Refusal

/-- The machine right after `Reset()` (R51, R400), with the mapper in its power-on state (R90), no cartridge image and
nothing written to RAM, under the parameters of `Config.defaultParams`. PC is `Read16(0xFFFC)` (R42): the two vector
bytes are unlisted PRG bytes, so it is `unlistedByte` twice. `Machine.reset_is_powerOn_then_reset` (Laws/Host.lean)
proves that this is what the power-on state and `Reset()` give. DESIGN CHOICE (assumptions 1 and 2): the empty storages
and the parameters. -/
def State.reset : State where
  a := 0x00#8
  x := 0x00#8
  y := 0x00#8
  sp := 0xFD#8
  pc := 0x0000#16
  p := 0x24#8
  cycles := 0#64
  stall := 0
  nmiPending := false
  irqPending := false
  lastBranch := none
  ram := []
  prg := []
  chr := []
  shift := 0x10#5
  control := 0x0C#5
  chrBank0 := 0#5
  chrBank1 := 0#5
  prgBank := 0#5
  params := Config.defaultParams
  resetDone := true
  extReads := 0
  events := []

end Sys2Proof.Machine
end

