-- ==== Sys2Proof/Machine/Flags.lean ====
section
/-! DEFINITION. The flags word P (rules R35 to R39) and every flag computation of the instruction rules. -/

namespace Sys2Proof.Machine

/-! ### The bits of P (R35) -/

/-- The eight flags, by the spec's names. -/
inductive Flag where
  | c | z | i | d | b | u | v | n
  deriving DecidableEq, Repr

/-- A flag's bit of P (R35). -/
def flagBit : Flag → Nat
  | .c => 0 | .z => 1 | .i => 2 | .d => 3 | .b => 4 | .u => 5 | .v => 6 | .n => 7

/-- Reading a flag of a flags word. -/
def getFlag (f : Flag) (p : Byte) : Bool := p.getLsbD (flagBit f)

/-- A flags word with one flag replaced. -/
def setFlag (f : Flag) (v : Bool) (p : Byte) : Byte := setBit p (flagBit f) v

/-- A flag of the machine: `P.C` and the like (R14). -/
def State.flag (s : State) (f : Flag) : Bool := getFlag f s.p

/-- `P.f <- v` (R14). -/
def State.setF (s : State) (f : Flag) (v : Bool) : State := { s with p := setFlag f v s.p }

/-! ### Zero and negative (R155) -/

/-- P after `SetNZ(v)`: `P.Z <- (v = 0)` and `P.N <- v[7]`. -/
def nzFlags (v : Byte) (p : Byte) : Byte := setFlag .n (v.getLsbD 7) (setFlag .z (v == 0#8) p)

/-- `SetNZ(v)` (R155). -/
def State.setNZ (s : State) (v : Byte) : State := { s with p := nzFlags v s.p }

/-! ### Stacked flags (R37, R39) -/

/-- The byte pushed for P: `(P & 0xCF) | 0x20 | (bflag << 4)` (R39). -/
def pushedFlags (p : Byte) (bflag : Bool) : Byte := (p &&& 0xCF#8) ||| 0x20#8 ||| (bitByte bflag <<< 4)

/-- P as PLP and RTI load it from a stack byte: `(s & 0xEF) | 0x20` (R37). -/
def pulledFlags (v : Byte) : Byte := (v &&& 0xEF#8) ||| 0x20#8

/-! ### Add and subtract (R211, R212) -/

/-- `A + M + P.C` as an integer (R211). -/
def adcSum (a m : Byte) (c : Bool) : Nat := a.toNat + m.toNat + c.toNat

/-- The result byte of ADC: the sum modulo 256 (R211). -/
def adcResult (a m : Byte) (c : Bool) : Byte := BitVec.ofNat 8 (adcSum a m c)

/-- P after ADC: C is the carry out, V by the operand and result signs, then SetNZ (R211). P.D is ignored (R38). -/
def adcFlags (a m : Byte) (p : Byte) : Byte :=
  let c := getFlag .c p
  let r := adcResult a m c
  let v := (((a ^^^ m) &&& 0x80#8) == 0#8) && (((a ^^^ r) &&& 0x80#8) != 0#8)
  nzFlags r (setFlag .v v (setFlag .c (decide (adcSum a m c > 0xFF)) p))

/-- `A - M - (1 - P.C)` as an integer (R212). -/
def sbcDiff (a m : Byte) (c : Bool) : Int := (a.toNat : Int) - (m.toNat : Int) - (1 - (c.toNat : Int))

/-- The result byte of SBC: the difference modulo 256 (R212). -/
def sbcResult (a m : Byte) (c : Bool) : Byte := BitVec.ofInt 8 (sbcDiff a m c)

/-- P after SBC: C is no borrow, V by the operand and result signs, then SetNZ (R212). P.D is ignored (R38). -/
def sbcFlags (a m : Byte) (p : Byte) : Byte :=
  let c := getFlag .c p
  let r := sbcResult a m c
  let v := (((a ^^^ m) &&& 0x80#8) != 0#8) && (((a ^^^ r) &&& 0x80#8) != 0#8)
  nzFlags r (setFlag .v v (setFlag .c (decide (sbcDiff a m c ≥ 0)) p))

/-! ### Compare and bit test (R216, R217) -/

/-- P after a compare of `r` with `m`: C from the unsigned comparison, Z from equality, N from the difference (R217). -/
def cmpFlags (r m : Byte) (p : Byte) : Byte :=
  setFlag .n ((r - m).getLsbD 7) (setFlag .z (r == m) (setFlag .c (decide (r.toNat ≥ m.toNat)) p))

/-- P after BIT: Z from `A & M`, V and N from M's bits 6 and 7 (R216). -/
def bitFlags (a m : Byte) (p : Byte) : Byte :=
  setFlag .n (m.getLsbD 7) (setFlag .v (m.getLsbD 6) (setFlag .z ((a &&& m) == 0#8) p))

/-! ### Shifts and rotates (R247 to R250): the result byte and the carry out of a value and the carry in. -/

/-- ASL: `r <- v << 1`, C is bit 7 (R247). -/
def aslOut (v : Byte) (_c : Bool) : Byte × Bool := (v <<< 1, v.getLsbD 7)

/-- LSR: `r <- v >> 1`, C is bit 0 (R248). -/
def lsrOut (v : Byte) (_c : Bool) : Byte × Bool := (v >>> 1, v.getLsbD 0)

/-- ROL: `r <- (v << 1) | c`, C is bit 7 (R249). -/
def rolOut (v : Byte) (c : Bool) : Byte × Bool := ((v <<< 1) ||| bitByte c, v.getLsbD 7)

/-- ROR: `r <- (v >> 1) | (c << 7)`, C is bit 0 (R250). -/
def rorOut (v : Byte) (c : Bool) : Byte × Bool := ((v >>> 1) ||| (bitByte c <<< 7), v.getLsbD 0)

/-- P after a shift with result `r` and carry out `c`: C, then SetNZ (R240). -/
def shiftFlags (r : Byte) (c : Bool) (p : Byte) : Byte := nzFlags r (setFlag .c c p)

end Sys2Proof.Machine
end

