-- ==== Sys2Proof/Machine/Mapper.lean ====
section
/-! DEFINITION. The MMC1-like bank switch (rules R83 to R94): bank arithmetic, the derived offsets, the serial port. -/

namespace Sys2Proof.Machine

/-! ### Bank arithmetic (R62, R89) -/

/-- `NPRG`, the number of 16 KiB PRG banks (R62). -/
def nprg (p : Params) : Nat := p.prgSize / 16384

/-- `NCHR`, the number of 4 KiB CHR banks (R62). -/
def nchr (p : Params) : Nat := p.chrSize / 4096

/-- `prg_bank_offset(i)`: the index modulo the bank count, negative indices wrapping from the end (R89). -/
def prgBankOffset (p : Params) (i : Int) : Nat := (i % (nprg p : Int)).toNat * 16384

/-- `chr_bank_offset(i)`. It has no value when there is no CHR bank (R89). -/
def chrBankOffset (p : Params) (i : Int) : Option Nat :=
  if nchr p = 0 then none else some ((i % (nchr p : Int)).toNat * 4096)

/-! ### Register fields (R85 to R87) -/

/-- `control[1:0]`, the mirroring field: stored, drives nothing (R85, R91). -/
def mirroring (s : State) : Nat := (s.control.extractLsb' 0 2).toNat

/-- `control[3:2]` (R85). -/
def prgMode (s : State) : Nat := (s.control.extractLsb' 2 2).toNat

/-- `control[4]` (R85). -/
def chrMode (s : State) : Nat := (s.control.extractLsb' 4 1).toNat

/-- `p = prg_bank[3:0]` (R87). Bit 4 is stored and has no effect. -/
def prgSelect (s : State) : BitVec 4 := s.prgBank.extractLsb' 0 4

/-! ### The derived offsets (R88). Functions of the registers, so that they are recomputed whenever one changes
(DEDUCED, assumption 18). -/

/-- `prg_off[0]`: the PRG offset of the bank at $8000-$BFFF (R88). -/
def prgOff0 (s : State) : Nat :=
  match prgMode s with
  | 0 | 1 => prgBankOffset s.params ((prgSelect s &&& 0xE#4).toNat : Int)
  | 2 => prgBankOffset s.params 0
  | _ => prgBankOffset s.params ((prgSelect s).toNat : Int)

/-- `prg_off[1]`: the PRG offset of the bank at $C000-$FFFF (R88). -/
def prgOff1 (s : State) : Nat :=
  match prgMode s with
  | 0 | 1 => prgBankOffset s.params ((prgSelect s ||| 0x1#4).toNat : Int)
  | 2 => prgBankOffset s.params ((prgSelect s).toNat : Int)
  | _ => prgBankOffset s.params (-1)

/-- `chr_off[0]`: the CHR offset of half-window 0 (R86, R88). -/
def chrOff0 (s : State) : Option Nat :=
  match chrMode s with
  | 0 => chrBankOffset s.params ((s.chrBank0 &&& 0x1E#5).toNat : Int)
  | _ => chrBankOffset s.params (s.chrBank0.toNat : Int)

/-- `chr_off[1]`: the CHR offset of half-window 1 (R86, R88). -/
def chrOff1 (s : State) : Option Nat :=
  match chrMode s with
  | 0 => chrBankOffset s.params ((s.chrBank0 ||| 0x01#5).toNat : Int)
  | _ => chrBankOffset s.params (s.chrBank1.toNat : Int)

/-- `a[13:0]`: where in its 16 KiB bank an address lies (R66). -/
def inPrgBank (a : Word) : Nat := (a.extractLsb' 0 14).toNat

/-- The PRG byte an address of $8000-$FFFF shows (R63, R66). -/
def prgIndex (s : State) (a : Word) : Nat :=
  (if a < 0xC000#16 then prgOff0 s else prgOff1 s) + inPrgBank a

/-! ### The serial port (R83, R84) -/

/-- The empty value of the shift register: the sentinel alone (R83). -/
def shiftEmpty : BitVec 5 := 0x10#5

/-- `(shift >> 1) | (v[0] << 4)` (R83). -/
def shiftIn (sh : BitVec 5) (v : Byte) : BitVec 5 :=
  (sh >>> 1) ||| ((if v.getLsbD 0 then 1#5 else 0#5) <<< 4)

/-- `REG(a) <- v`: the register the completing write's address selects by `a[14:13]` (R84). -/
def loadRegister (a : Word) (v : BitVec 5) (s : State) : State :=
  match (a.extractLsb' 13 2).toNat with
  | 0 => { s with control := v }
  | 1 => { s with chrBank0 := v }
  | 2 => { s with chrBank1 := v }
  | _ => { s with prgBank := v }

/-- A write of byte `v` to address `a` through the serial port (R83). -/
def serialWrite (a : Word) (v : Byte) (s : State) : State :=
  if v.getLsbD 7 then { s with shift := shiftEmpty, control := s.control ||| 0x0C#5 }
  else if s.shift.getLsbD 0 then loadRegister a (shiftIn s.shift v) { s with shift := shiftEmpty }
  else { s with shift := shiftIn s.shift v }

end Sys2Proof.Machine
end

