-- ==== Sys2Proof/Machine/Ops.lean ====
section
/-! DEFINITION. The named operations over registers and memory: the address decoder (R63), the memory and stack
primitives (R15, R16), taking an interrupt (R368) and returning from one (R373). -/

namespace Sys2Proof.Machine

/-! ### Registers (R30) -/

/-- `A <- v`. -/
def State.setA (s : State) (v : Byte) : State := { s with a := v }
/-- `X <- v`. -/
def State.setX (s : State) (v : Byte) : State := { s with x := v }
/-- `Y <- v`. -/
def State.setY (s : State) (v : Byte) : State := { s with y := v }
/-- `SP <- v`. -/
def State.setSP (s : State) (v : Byte) : State := { s with sp := v }
/-- `P <- v`. -/
def State.setP (s : State) (v : Byte) : State := { s with p := v }
/-- `PC <- w`. -/
def State.setPC (s : State) (w : Word) : State := { s with pc := w }
/-- `cycles <- cycles + n`, modulo 2^64 (R44). -/
def State.addCycles (s : State) (n : Nat) : State := { s with cycles := s.cycles + cyc n }
/-- Hands an event to the host (R17, R48, R65). -/
def State.emit (s : State) (e : Event) : State := { s with events := e :: s.events }

/-! ### The address decoder (R63) -/

/-- $0000-$1FFF: work RAM, 2 KiB seen four times (R63). -/
def isRam (a : Word) : Bool := decide (a < 0x2000#16)

/-- $2000-$7FFF: the external region (R65). -/
def isExternal (a : Word) : Bool := decide (0x2000#16 ≤ a) && decide (a < 0x8000#16)

/-- `a[10:0]`: the work RAM byte an address of $0000-$1FFF names (R64). -/
def ramIndex (a : Word) : Nat := (a.extractLsb' 0 11).toNat

/-- The byte a one-byte read at `a` returns now, through the decoder (R63). In the external region it is the next
draw of `EXT_READ` (R65). -/
def State.peek (s : State) (a : Word) : Byte :=
  if isRam a then s.ram.read (ramIndex a)
  else if isExternal a then Config.extRead s.extReads a
  else s.prg.read (prgIndex s a)

/-- The state after a one-byte read at `a`: reads have no side effect (R75), so all that changes is the number of the
next draw, after a read of the external region. -/
def State.touch (s : State) (a : Word) : State :=
  { s with extReads := if isExternal a then s.extReads + 1 else s.extReads }

/-- `MemRead(a, 1)` (R15): the byte, and the state after the read. -/
def memRead (a : Word) (s : State) : Byte × State := (s.peek a, s.touch a)

/-- `MemWrite(a, 1, v)` (R15): a one-byte CPU write through the decoder (R63, R65, R67). -/
def memWrite (a : Word) (v : Byte) (s : State) : State :=
  if isRam a then { s with ram := s.ram.write (ramIndex a) v }
  else if isExternal a then s.emit (.extWrite a v)
  else
    match s.params.romWriteMode with
    | .registerLoad => serialWrite a v s
    | .storageWrite => { s with prg := s.prg.write (prgIndex s a) v }

/-- `Read16(a)`: little-endian, the second address wrapping at $FFFF (R15). DEDUCED (assumption 9): the low byte is read
first. -/
def read16 (a : Word) (s : State) : Word × State :=
  let l := memRead a s
  let h := memRead (a + 1#16) l.2
  (mkWord h.1 l.1, h.2)

/-- `Read16Bug(a)`: the high byte is read from the same page as the low byte (R108). -/
def read16Bug (a : Word) (s : State) : Word × State :=
  let l := memRead a s
  let h := memRead (nextInPage a) l.2
  (mkWord h.1 l.1, h.2)

/-! ### The stack (R16, R34) -/

/-- `0x0100 | SP`: the stack byte SP designates, always in page one (R34). -/
def stackAddr (sp : Byte) : Word := 0x0100#16 ||| zext16 sp

/-- `Push(v)`: write, then decrement modulo 256 (R16). -/
def push (v : Byte) (s : State) : State :=
  let t := memWrite (stackAddr s.sp) v s
  t.setSP (t.sp - 1#8)

/-- `Push16(w)`: the high byte first (R16). -/
def push16 (w : Word) (s : State) : State := push (lo w) (push (hi w) s)

/-- `Pull()`: increment modulo 256, then read (R16). -/
def pull (s : State) : Byte × State :=
  let t := s.setSP (s.sp + 1#8)
  memRead (stackAddr t.sp) t

/-- `Pull16()`: the low byte first (R16). -/
def pull16 (s : State) : Word × State :=
  let l := pull s
  let h := pull l.2
  (mkWord h.1 l.1, h.2)

/-! ### Taking an interrupt and returning (R368, R373) -/

/-- The NMI vector (R360). -/
def nmiVector : Word := 0xFFFA#16
/-- The reset vector (R360). -/
def resetVector : Word := 0xFFFC#16
/-- The vector IRQ and BRK share (R360). -/
def irqVector : Word := 0xFFFE#16

/-- The stack and vector sequence of NMI, IRQ and BRK: pushes PC and then the flags with the given break bit, sets
P.I, and loads PC from the vector (R274, R368). Nothing else of P changes. -/
def takeInterrupt (vector : Word) (bflag : Bool) (s : State) : State :=
  let t := push (pushedFlags s.p bflag) (push16 s.pc s)
  let r := read16 vector (t.setF .i true)
  r.2.setPC r.1

/-- `Enter(vector, bflag)`: the sequence and the fixed 7-cycle cost of interrupt service (R368, R370). -/
def enter (vector : Word) (bflag : Bool) (s : State) : State := (takeInterrupt vector bflag s).addCycles 7

/-- The return: pulls P as `(s & 0xEF) | 0x20` and then PC, with no +1 (R275, R373). -/
def returnFromInterrupt (s : State) : State :=
  let f := pull s
  let r := pull16 (f.2.setP (pulledFlags f.1))
  r.2.setPC r.1

end Sys2Proof.Machine
end

