-- ==== Sys2Proof/Machine/Operands.lean ====
section
/-! DEFINITION. The effective-address unit (rules R102 to R115), phases S4 and S5 of a step (R144, R145), the operand
value (R154), and the shapes that instruction rules share. -/

namespace Sys2Proof.Machine

/-! ### S4: the effective address -/

/-- What the effective-address unit yields: `ea`, `crossed`, and the state after its pointer reads. -/
structure Located where
  ea : Word
  crossed : Bool
  st : State
  deriving DecidableEq, Repr

/-- Indexing a base address: the sum modulo 2^16, and whether it left the base's page (R105, R111). -/
def indexed (base : Word) (index : Byte) (s : State) : Located :=
  let ea := base + zext16 index
  ⟨ea, hi base != hi ea, s⟩

/-- `EA(mode, pc0)` (R102 to R113), with PC still at the opcode. Implied and Accumulator compute none: their `ea` is
0 and nothing reads it (R113). DEDUCED (assumption 16). -/
def effAddr (o : Operand) (s : State) : Located :=
  match o with
  | .imp => ⟨0#16, false, s⟩
  | .acc => ⟨0#16, false, s⟩
  | .imm _ => ⟨s.pc + 1#16, false, s⟩
  | .zp l => ⟨zext16 l, false, s⟩
  | .zpx l => ⟨zext16 (l + s.x), false, s⟩
  | .zpy l => ⟨zext16 (l + s.y), false, s⟩
  | .rel d => ⟨s.pc + 2#16 + sext16 d, false, s⟩
  | .izx l => let r := read16Bug (zext16 (l + s.x)) s; ⟨r.1, false, r.2⟩
  | .izy l => let r := read16Bug (zext16 l) s; indexed r.1 r.2.y r.2
  | .abs w => ⟨w, false, s⟩
  | .abx w => indexed w s.x s
  | .aby w => indexed w s.y s
  | .ind w => let r := read16Bug w s; ⟨r.1, false, r.2⟩

/-! ### S5: the advance -/

/-- The page-crossing charge of S4 and the advance of S5 (R144, R145): PC moves past the instruction, and the base
cycles are charged, before the semantics run. -/
def advance (e : RomEntry) (crossed : Bool) (s : State) : State :=
  { s with
    pc := s.pc + BitVec.ofNat 16 e.advance
    cycles := s.cycles + cyc (if crossed then e.pagecycles else 0) + cyc e.cycles }

/-- S4 and S5 of an instruction whose opcode is at PC (R144, R145). -/
def start (i : Instr) (s : State) : Located :=
  let l := effAddr i.operand s
  ⟨l.ea, l.crossed, advance i.info l.crossed l.st⟩

/-! ### S6: operands -/

/-- The operand value M (R154): the immediate byte, the accumulator, or the byte at `ea`. DEDUCED (assumption 10): the
immediate byte is the fetched one. -/
def operandValue (o : Operand) (ea : Word) (s : State) : Byte × State :=
  match o with
  | .imm v => (v, s)
  | .acc => (s.a, s)
  | .imp | .rel _ | .zp _ | .zpx _ | .zpy _ | .izx _ | .izy _ | .abs _ | .abx _ | .aby _ | .ind _ => memRead ea s

/-- S4, S5 and the read of M: the operand value and the state the rest of S6 runs on. -/
def readM (i : Instr) (s : State) : Byte × State :=
  let l := start i s
  operandValue i.operand l.ea l.st

/-- A register-only or implied instruction: S4 and S5, then `f` (R190, R290). -/
def impliedForm (i : Instr) (f : State → State) (s : State) : Result := .next (f (start i s).st)

/-- An instruction that reads M and then applies `f` to it and the state (R170, R210). -/
def readForm (i : Instr) (f : Byte → State → State) (s : State) : Result :=
  let r := readM i s
  .next (f r.1 r.2)

/-- A store of register `reg` to `ea`: no read of `ea`, no flag (R170). -/
def storeForm (i : Instr) (reg : State → Byte) (s : State) : Result :=
  let l := start i s
  .next (memWrite l.ea (reg l.st) l.st)

/-- The RMW form of INC and DEC: one read, one write of `f v`, SetNZ (R240). -/
def rmwForm (i : Instr) (f : Byte → Byte) (s : State) : Result :=
  let l := start i s
  let v := memRead l.ea l.st
  .next ((memWrite l.ea (f v.1) v.2).setNZ (f v.1))

/-- A shift or rotate in its ACC form (`A <- r`) or its RMW form (one read, one write), with the carry update (R240). -/
def shiftForm (i : Instr) (f : Byte → Bool → Byte × Bool) (s : State) : Result :=
  let l := start i s
  let v := operandValue i.operand l.ea l.st
  let r := f v.1 (v.2.flag .c)
  let t := if i.operand = .acc then v.2.setA r.1 else memWrite l.ea r.1 v.2
  .next { t with p := shiftFlags r.1 r.2 t.p }

/-! ### Branches (R260, R269, R270) -/

/-- The extra cycles of a taken branch: 1, and 1 more when the target's page is not that of the next instruction
(R147, R269). -/
def takenCycles (next target : Word) : Nat := if hi next ≠ hi target then 2 else 1

/-- A conditional branch with its condition evaluated (R260), and the watchdog of R270 when it exists. -/
def branchForm (i : Instr) (cond : State → Bool) (s : State) : Result :=
  let l := start i s
  let t := l.st
  if cond t then
    if t.params.selfLoopAbort && decide (l.ea = s.pc) && decide (t.lastBranch = some (s.pc, s.pc)) then
      .fault (.selfLoop s.pc)
    else
      .next { t with
        pc := l.ea
        cycles := t.cycles + cyc (takenCycles t.pc l.ea)
        lastBranch := if t.params.selfLoopAbort then some (s.pc, l.ea) else t.lastBranch }
  else .next { t with lastBranch := if t.params.selfLoopAbort then none else t.lastBranch }

end Sys2Proof.Machine
end

