-- ==== Sys2Proof/Machine/ArithLogic.lean ====
section
/-! DEFINITION. Arithmetic, logical and compare instructions (rules R210 to R221). Each meaning is phases S4 to S6 of a step (R144 to R147),
on a state whose PC is at the opcode. -/

namespace Sys2Proof.Machine

/-- ADC: A becomes `A + M + C` modulo 256, and C, V, N, Z (R211). -/
def execAdc (m : AluMode) (s : State) : Result :=
  readForm (.adc m) (fun v t => (t.setA (adcResult t.a v (t.flag .c))).setP (adcFlags t.a v t.p)) s

/-- SBC: A becomes `A - M - (1 - C)` modulo 256, and C, V, N, Z (R212). -/
def execSbc (m : AluMode) (s : State) : Result :=
  readForm (.sbc m) (fun v t => (t.setA (sbcResult t.a v (t.flag .c))).setP (sbcFlags t.a v t.p)) s

/-- AND: `A <- A & M; SetNZ(A)` (R213). -/
def execAnd (m : AluMode) (s : State) : Result :=
  readForm (.and m) (fun v t => (t.setA (t.a &&& v)).setNZ (t.a &&& v)) s

/-- ORA: `A <- A | M; SetNZ(A)` (R214). -/
def execOra (m : AluMode) (s : State) : Result :=
  readForm (.ora m) (fun v t => (t.setA (t.a ||| v)).setNZ (t.a ||| v)) s

/-- EOR: `A <- A ^ M; SetNZ(A)` (R215). -/
def execEor (m : AluMode) (s : State) : Result :=
  readForm (.eor m) (fun v t => (t.setA (t.a ^^^ v)).setNZ (t.a ^^^ v)) s

/-- BIT: Z from `A & M`, V and N from M, A unchanged (R216). -/
def execBit (m : BitMode) (s : State) : Result :=
  readForm (.bit m) (fun v t => t.setP (bitFlags t.a v t.p)) s

/-- CMP: flags of A compared with M (R217). -/
def execCmp (m : AluMode) (s : State) : Result :=
  readForm (.cmp m) (fun v t => t.setP (cmpFlags t.a v t.p)) s

/-- CPX: flags of X compared with M (R218). -/
def execCpx (m : CpMode) (s : State) : Result :=
  readForm (.cpx m) (fun v t => t.setP (cmpFlags t.x v t.p)) s

/-- CPY: flags of Y compared with M (R219). -/
def execCpy (m : CpMode) (s : State) : Result :=
  readForm (.cpy m) (fun v t => t.setP (cmpFlags t.y v t.p)) s

end Sys2Proof.Machine
end

