-- ==== Sys2Proof/Machine/Control.lean ====
section
/-! DEFINITION. Branch, jump, subroutine and software-interrupt instructions (rules R260 to R276). Each meaning is phases S4 to S6 of a step (R144 to R147),
on a state whose PC is at the opcode. -/

namespace Sys2Proof.Machine

/-- BCC: branch if carry clear (R261). -/
def execBcc (d : Byte) (s : State) : Result :=
  branchForm (.bcc d) (fun t => !t.flag .c) s

/-- BCS: branch if carry set (R262). -/
def execBcs (d : Byte) (s : State) : Result :=
  branchForm (.bcs d) (fun t => t.flag .c) s

/-- BEQ: branch if zero set (R263). -/
def execBeq (d : Byte) (s : State) : Result :=
  branchForm (.beq d) (fun t => t.flag .z) s

/-- BMI: branch if negative set (R264). -/
def execBmi (d : Byte) (s : State) : Result :=
  branchForm (.bmi d) (fun t => t.flag .n) s

/-- BNE: branch if zero clear (R265). -/
def execBne (d : Byte) (s : State) : Result :=
  branchForm (.bne d) (fun t => !t.flag .z) s

/-- BPL: branch if negative clear (R266). -/
def execBpl (d : Byte) (s : State) : Result :=
  branchForm (.bpl d) (fun t => !t.flag .n) s

/-- BVC: branch if overflow clear (R267). -/
def execBvc (d : Byte) (s : State) : Result :=
  branchForm (.bvc d) (fun t => !t.flag .v) s

/-- BVS: branch if overflow set (R268). -/
def execBvs (d : Byte) (s : State) : Result :=
  branchForm (.bvs d) (fun t => t.flag .v) s

/-- JMP: `PC <- ea` (R271). -/
def execJmp (m : JmpMode) (s : State) : Result :=
  let l := start (.jmp m) s
  .next (l.st.setPC l.ea)

/-- JSR: `Push16(PC - 1); PC <- ea`, with PC past the instruction (R272). -/
def execJsr (w : Word) (s : State) : Result :=
  let l := start (.jsr w) s
  .next ((push16 (l.st.pc - 1#16) l.st).setPC l.ea)

/-- RTS: `PC <- Pull16() + 1` (R273). -/
def execRts (s : State) : Result :=
  impliedForm .rts (fun t => let r := pull16 t; r.2.setPC (r.1 + 1#16)) s

/-- BRK: the interrupt sequence with the break bit 1 through the IRQ vector, with PC past the padding byte (R274). Its 7
cycles are the ROM's, charged in S5. -/
def execBrk (s : State) : Result :=
  impliedForm .brk (takeInterrupt irqVector true) s

/-- RTI: pulls P and then PC (R275). -/
def execRti (s : State) : Result :=
  impliedForm .rti returnFromInterrupt s

end Sys2Proof.Machine
end

