-- ==== Sys2Proof/Machine/FlagsMisc.lean ====
section
/-! DEFINITION. Flag instructions, NOP and illegal opcodes (rules R290 to R300). Each meaning is phases S4 to S6 of a step (R144 to R147),
on a state whose PC is at the opcode. -/

namespace Sys2Proof.Machine

/-- CLC: `P.C <- 0` (R291). -/
def execClc (s : State) : Result :=
  impliedForm .clc (fun t => t.setF .c false) s

/-- CLD: `P.D <- 0` (R292). -/
def execCld (s : State) : Result :=
  impliedForm .cld (fun t => t.setF .d false) s

/-- CLI: `P.I <- 0` (R293). -/
def execCli (s : State) : Result :=
  impliedForm .cli (fun t => t.setF .i false) s

/-- CLV: `P.V <- 0` (R294). -/
def execClv (s : State) : Result :=
  impliedForm .clv (fun t => t.setF .v false) s

/-- SEC: `P.C <- 1` (R295). -/
def execSec (s : State) : Result :=
  impliedForm .sec (fun t => t.setF .c true) s

/-- SED: `P.D <- 1` (R296). -/
def execSed (s : State) : Result :=
  impliedForm .sed (fun t => t.setF .d true) s

/-- SEI: `P.I <- 1` (R297). -/
def execSei (s : State) : Result :=
  impliedForm .sei (fun t => t.setF .i true) s

/-- NOP: only the advance and its cycles (R298). -/
def execNop (s : State) : Result :=
  impliedForm .nop (fun t => t) s

/-- Illegal opcode: no operand, no register, flag or memory change; PC moves on by one byte, `ILLEGAL_CYCLES(op)` is
charged, and the host gets the recoverable diagnostic with the opcode's address (R300). -/
def execIllegal (op : Byte) (s : State) : Result :=
  let t : State := { s with pc := s.pc + 1#16, cycles := s.cycles + cyc (Config.illegalCycles op) }
  .next (t.emit (.illegalOpcode op s.pc))

end Sys2Proof.Machine
end

