-- ==== Sys2Proof/Machine/IncDecShift.lean ====
section
/-! DEFINITION. Increment, decrement, shift and rotate instructions (rules R240 to R250). Each meaning is phases S4 to S6 of a step (R144 to R147),
on a state whose PC is at the opcode. -/

namespace Sys2Proof.Machine

/-- INC: RMW with `f(v) = v + 1` modulo 256 (R241). -/
def execInc (m : RmwMode) (s : State) : Result :=
  rmwForm (.inc m) (fun v => v + 1#8) s

/-- DEC: RMW with `f(v) = v - 1` modulo 256 (R242). -/
def execDec (m : RmwMode) (s : State) : Result :=
  rmwForm (.dec m) (fun v => v - 1#8) s

/-- INX: `X <- X + 1; SetNZ(X)` (R243). -/
def execInx (s : State) : Result :=
  impliedForm .inx (fun t => (t.setX (t.x + 1#8)).setNZ (t.x + 1#8)) s

/-- INY: `Y <- Y + 1; SetNZ(Y)` (R244). -/
def execIny (s : State) : Result :=
  impliedForm .iny (fun t => (t.setY (t.y + 1#8)).setNZ (t.y + 1#8)) s

/-- DEX: `X <- X - 1; SetNZ(X)` (R245). -/
def execDex (s : State) : Result :=
  impliedForm .dex (fun t => (t.setX (t.x - 1#8)).setNZ (t.x - 1#8)) s

/-- DEY: `Y <- Y - 1; SetNZ(Y)` (R246). -/
def execDey (s : State) : Result :=
  impliedForm .dey (fun t => (t.setY (t.y - 1#8)).setNZ (t.y - 1#8)) s

/-- ASL of A or a memory byte (R247). -/
def execAsl (m : ShiftMode) (s : State) : Result :=
  shiftForm (.asl m) aslOut s

/-- LSR of A or a memory byte (R248). -/
def execLsr (m : ShiftMode) (s : State) : Result :=
  shiftForm (.lsr m) lsrOut s

/-- ROL of A or a memory byte (R249). -/
def execRol (m : ShiftMode) (s : State) : Result :=
  shiftForm (.rol m) rolOut s

/-- ROR of A or a memory byte (R250). -/
def execRor (m : ShiftMode) (s : State) : Result :=
  shiftForm (.ror m) rorOut s

end Sys2Proof.Machine
end

