-- ==== Sys2Proof/Machine/LoadStore.lean ====
section
/-! DEFINITION. Load and store instructions (rules R170 to R176). Each meaning is phases S4 to S6 of a step (R144 to R147),
on a state whose PC is at the opcode. -/

namespace Sys2Proof.Machine

/-- LDA: `A <- M; SetNZ(A)` (R171). -/
def execLda (m : AluMode) (s : State) : Result :=
  readForm (.lda m) (fun v t => (t.setA v).setNZ v) s

/-- LDX: `X <- M; SetNZ(X)` (R172). -/
def execLdx (m : LdxMode) (s : State) : Result :=
  readForm (.ldx m) (fun v t => (t.setX v).setNZ v) s

/-- LDY: `Y <- M; SetNZ(Y)` (R173). -/
def execLdy (m : LdyMode) (s : State) : Result :=
  readForm (.ldy m) (fun v t => (t.setY v).setNZ v) s

/-- STA: `MemWrite(ea, 1, A)` (R174). -/
def execSta (m : StaMode) (s : State) : Result :=
  storeForm (.sta m) State.a s

/-- STX: `MemWrite(ea, 1, X)` (R175). -/
def execStx (m : StxMode) (s : State) : Result :=
  storeForm (.stx m) State.x s

/-- STY: `MemWrite(ea, 1, Y)` (R176). -/
def execSty (m : StyMode) (s : State) : Result :=
  storeForm (.sty m) State.y s

end Sys2Proof.Machine
end

