-- ==== Sys2Proof/Machine/TransferStack.lean ====
section
/-! DEFINITION. Register transfer and stack instructions (rules R190 to R200). Each meaning is phases S4 to S6 of a step (R144 to R147),
on a state whose PC is at the opcode. -/

namespace Sys2Proof.Machine

/-- TAX: `X <- A; SetNZ(X)` (R191). -/
def execTax (s : State) : Result :=
  impliedForm .tax (fun t => (t.setX t.a).setNZ t.a) s

/-- TAY: `Y <- A; SetNZ(Y)` (R192). -/
def execTay (s : State) : Result :=
  impliedForm .tay (fun t => (t.setY t.a).setNZ t.a) s

/-- TXA: `A <- X; SetNZ(A)` (R193). -/
def execTxa (s : State) : Result :=
  impliedForm .txa (fun t => (t.setA t.x).setNZ t.x) s

/-- TYA: `A <- Y; SetNZ(A)` (R194). -/
def execTya (s : State) : Result :=
  impliedForm .tya (fun t => (t.setA t.y).setNZ t.y) s

/-- TSX: `X <- SP; SetNZ(X)` (R195). -/
def execTsx (s : State) : Result :=
  impliedForm .tsx (fun t => (t.setX t.sp).setNZ t.sp) s

/-- TXS: `SP <- X`, no flag (R196). -/
def execTxs (s : State) : Result :=
  impliedForm .txs (fun t => t.setSP t.x) s

/-- PHA: `Push(A)`, no flag (R197). -/
def execPha (s : State) : Result :=
  impliedForm .pha (fun t => push t.a t) s

/-- PHP: `Push((P & 0xCF) | 0x30)`, P unchanged (R198). -/
def execPhp (s : State) : Result :=
  impliedForm .php (fun t => push (pushedFlags t.p true) t) s

/-- PLA: `A <- Pull(); SetNZ(A)` (R199). -/
def execPla (s : State) : Result :=
  impliedForm .pla (fun t => let r := pull t; (r.2.setA r.1).setNZ r.1) s

/-- PLP: `s <- Pull(); P <- (s & 0xEF) | 0x20` (R200). -/
def execPlp (s : State) : Result :=
  impliedForm .plp (fun t => let r := pull t; r.2.setP (pulledFlags r.1)) s

end Sys2Proof.Machine
end

