-- ==== Sys2Proof/Machine/Fetch.lean ====
section
/-! DEFINITION. The phases of a step before an instruction runs: the stall (S1, R141), interrupt service (S2, R366)
and fetching (S3 and the operand bytes of S4, R143, R144). -/

namespace Sys2Proof.Machine

/-- S1: one stalled step (R141). Nothing else changes. -/
def stallStep (s : State) : State := { s with stall := s.stall - 1, cycles := s.cycles + cyc 1 }

/-- S2: at most one interrupt, NMI before IRQ, IRQ only while P.I = 0 (R366). -/
def serviceInterrupt (s : State) : State :=
  if s.nmiPending then enter nmiVector s.params.hwIntPushB { s with nmiPending := false }
  else if s.irqPending && !s.flag .i then enter irqVector s.params.hwIntPushB { s with irqPending := false }
  else s

/-- S3 and the operand reads of S4: the opcode at PC, then as many operand bytes as its mode has (R101, R102), each
address modulo 2^16 (R41). PC does not move. DEDUCED (assumptions 9 and 10). -/
def fetch (s : State) : Instr × State :=
  let op := memRead s.pc s
  let n := operandBytes (romEntry op.1).mode
  let l := if 1 ≤ n then memRead (s.pc + 1#16) op.2 else (0#8, op.2)
  let h := if 2 ≤ n then memRead (s.pc + 2#16) l.2 else (0#8, l.2)
  (decodeOpcode op.1 l.1 h.1, h.2)

end Sys2Proof.Machine
end

