-- ==== Sys2Proof/Machine/HostPort.lean ====
section
/-! DEFINITION. The host's entry points other than `Emulate()` (rule R19): power-on, Reset, NMI, IRQ, AddStall, the
byte accessors and CpuState. Each is a transaction of its own between steps (R80), DESIGN CHOICE (assumption 12). Text is a list of
characters. -/

namespace Sys2Proof.Machine

/-! ### Power-on and Reset -/

/-- The machine after power-on (R404): the loaded PRG and CHR, the draw `RAM_INIT`, the mapper's power-on state (R90).
The CPU registers, latches and counters are unspecified until the first Reset (R52): they are free values here, and a
step before Reset is refused. DESIGN CHOICE (assumption 7). -/
def State.powerOn (params : Params) (ramInit prg chr : Memory) : State where
  a := Config.unsetA
  x := Config.unsetX
  y := Config.unsetY
  sp := Config.unsetSP
  pc := Config.unsetPC
  p := Config.unsetP
  cycles := Config.unsetCycles
  stall := Config.unsetStall
  nmiPending := Config.unsetNmi
  irqPending := Config.unsetIrq
  lastBranch := if params.selfLoopAbort then Config.unsetLastBranch else none
  ram := ramInit
  prg := prg
  chr := chr
  shift := shiftEmpty
  control := 0x0C#5
  chrBank0 := 0#5
  chrBank1 := 0#5
  prgBank := 0#5
  params := params
  resetDone := false
  extReads := 0
  events := []

/-- Loading a cartridge, its images and the draw `RAM_INIT` given as lists of bytes: refused when the sizes break R62
or an image has a byte past its size. DESIGN CHOICE (assumption 19). -/
def load (params : Params) (ramInit prg chr : List Host.Cell) : Result :=
  if params.valid && Memory.below 2048 ramInit && Memory.below params.prgSize prg &&
      Memory.below params.chrSize chr then
    .next (State.powerOn params (.ofCells ramInit) (.ofCells prg) (.ofCells chr))
  else .refused .badConfiguration

/-- `Reset()` (R400): registers, flags, requests, counters, watchdog, and PC from the reset vector through the current
mapping. RAM, PRG, CHR and the mapper are left alone (R401). -/
def hostReset (s : State) : State :=
  let t := { s with
    a := 0#8
    x := 0#8
    y := 0#8
    sp := 0xFD#8
    p := 0x24#8
    nmiPending := false
    irqPending := false
    cycles := 0#64
    stall := 0
    lastBranch := none
    resetDone := true }
  let r := read16 resetVector t
  r.2.setPC r.1

/-! ### Requests and stalls -/

/-- `NMI()` (R363). -/
def hostNmi (s : State) : State := { s with nmiPending := true }

/-- `IRQ()` (R364). -/
def hostIrq (s : State) : State := { s with irqPending := true }

/-- `AddStall(n)` (R380). -/
def hostAddStall (n : Nat) (s : State) : State := { s with stall := s.stall + n }

/-! ### Byte accessors (R68, R69) -/

/-- `Read(a)`: the decoder's read (R68). -/
def hostRead (a : Word) (s : State) : Byte × State := memRead a s

/-- `Write(a, v)`: as a CPU write, but $8000-$FFFF always stores into PRG and never loads a mapper register (R68). -/
def hostWrite (a : Word) (v : Byte) (s : State) : State :=
  if isRam a || isExternal a then memWrite a v s
  else { s with prg := s.prg.write (prgIndex s a) v }

/-- `off[13:0]` in the PRG bank `bank` (R69, R89). -/
def prgBankIndex (bank : Int) (off : Word) (s : State) : Nat := prgBankOffset s.params bank + inPrgBank off

/-- `ReadBank(PRG, bank, off)` (R69). -/
def readBankPrg (bank : Int) (off : Word) (s : State) : Byte := s.prg.read (prgBankIndex bank off s)

/-- `WriteBank(PRG, bank, off, v)` (R69). -/
def writeBankPrg (bank : Int) (off : Word) (v : Byte) (s : State) : State :=
  { s with prg := s.prg.write (prgBankIndex bank off s) v }

/-- `off[11:0]` in the CHR bank `bank`, which exists only when there is a CHR bank (R69, R89). -/
def chrBankIndex (bank : Int) (off : Word) (s : State) : Option Nat :=
  (chrBankOffset s.params bank).map (· + (off.extractLsb' 0 12).toNat)

/-- `ReadBank(CHR, bank, off)`: aborts when `CHR_SIZE = 0` (R69, R78). -/
def readBankChr (bank : Int) (off : Word) (s : State) : Host.Outcome Byte Fault Refusal :=
  match chrBankIndex bank off s with
  | some k => .next (s.chr.read k)
  | none => .fault (.storageBounds .readBank bank off)

/-- `WriteBank(CHR, bank, off, v)`: aborts when `CHR_SIZE = 0` (R69, R78). -/
def writeBankChr (bank : Int) (off : Word) (v : Byte) (s : State) : Result :=
  match chrBankIndex bank off s with
  | some k => .next { s with chr := s.chr.write k v }
  | none => .fault (.storageBounds .writeBank bank off)

/-! ### CpuState (R53) -/

/-- One uppercase hex digit. -/
def hexDigit (v : BitVec 4) : Char :=
  ['0', '1', '2', '3', '4', '5', '6', '7', '8', '9', 'A', 'B', 'C', 'D', 'E', 'F'].getD v.toNat '0'

/-- `%02X` of a byte. -/
def hex2 (v : Byte) : List Char := [hexDigit (v.extractLsb' 4 4), hexDigit (v.extractLsb' 0 4)]

/-- `%04X` of a word. -/
def hex4 (w : Word) : List Char := hex2 (hi w) ++ hex2 (lo w)

/-- A flag's letter when set, `.` when clear; U shows as `-` (R53). -/
def flagChar (s : State) (f : Flag) (c : Char) : Char := if s.flag f then c else '.'

/-- The flag field between the brackets: N, V, U, B, D, I, Z, C (R53). -/
def flagText (s : State) : List Char :=
  [flagChar s .n 'N', flagChar s .v 'V', flagChar s .u '-', flagChar s .b 'B',
   flagChar s .d 'D', flagChar s .i 'I', flagChar s .z 'Z', flagChar s .c 'C']

/-- The `CpuState()` text of the registers and flags (R53). -/
def cpuText (s : State) : List Char :=
  ['A', ':'] ++ hex2 s.a ++ [' ', 'X', ':'] ++ hex2 s.x ++ [' ', 'Y', ':'] ++ hex2 s.y ++
  [' ', 'S', 'P', ':'] ++ hex2 s.sp ++ [' ', 'P', 'C', ':'] ++ hex4 s.pc ++ [' ', 'P', ':'] ++ hex2 s.p ++
  [' ', '['] ++ flagText s ++ [']']

/-- `CpuState()`: changes no state. Refused before the first Reset, when the registers have no value (R52).
DESIGN CHOICE (assumption 7). -/
def cpuState (s : State) : Host.Outcome String Fault Refusal :=
  if s.resetDone then .next (String.ofList (cpuText s)) else .refused .notReset

end Sys2Proof.Machine
end

