-- ==== Sys2Proof/Machine/Step.lean ====
section
/-! DEFINITION. `Emulate()`: one step (rule R150). -/

namespace Sys2Proof.Machine

/-- S2 to S8 of a step that is not stalled: interrupt service, fetch, and the instruction (R142 to R148). -/
def runInstruction (s : State) : Result :=
  let f := fetch (serviceInterrupt s)
  exec f.1 f.2

/-- One call of `Emulate()` (R140, R150). Refused before the first Reset (R52). A stall takes the whole step (R141). -/
def step (s : State) : Host.Outcome State Fault Refusal :=
  if s.resetDone then
    if s.stall > 0 then .next (stallStep s) else runInstruction s
  else .refused .notReset

/-- Byte `k` of the instruction whose bits are `w` below `nbits`, placed with a host `Write` (R68). -/
def placeByte (nbits w k : Nat) (s : State) : State :=
  hostWrite (s.pc + BitVec.ofNat 16 k) (byteOf (w % 2 ^ nbits) k) s

/-- `s` with an instruction stored where the next step fetches it: three bytes from PC on, placed as the host places
bytes (R68). The fetch needs a Reset before it, so a machine not yet reset is reset; it needs no stall and no serviceable
request, so those are cleared. In the external region no byte can be placed (R65), and `s` keeps its draws there. DESIGN CHOICE (assumption 8). -/
def State.withFetchWord (s : State) (nbits w : Nat) : State :=
  let u := if s.resetDone then s else hostReset s
  let t := { u with stall := 0, nmiPending := false, irqPending := false }
  placeByte nbits w 2 (placeByte nbits w 1 (placeByte nbits w 0 t))

end Sys2Proof.Machine
end

