-- ==== Sys2Proof/Machine/Disasm.lean ====
section
/-! DEFINITION. The disassembler's ROM lookup and rendering (rules R310 to R322). It reads the same ROM as the
interpreter (R311). Text is a list of characters; `disassemble` returns it as a String. -/

namespace Sys2Proof.Machine

/-- The text of a mnemonic (R312). -/
def mnemonicText : Mnemonic → List Char
  | .adc => ['A', 'D', 'C'] | .and => ['A', 'N', 'D'] | .asl => ['A', 'S', 'L'] | .bcc => ['B', 'C', 'C']
  | .bcs => ['B', 'C', 'S'] | .beq => ['B', 'E', 'Q'] | .bit => ['B', 'I', 'T'] | .bmi => ['B', 'M', 'I']
  | .bne => ['B', 'N', 'E'] | .bpl => ['B', 'P', 'L'] | .brk => ['B', 'R', 'K'] | .bvc => ['B', 'V', 'C']
  | .bvs => ['B', 'V', 'S'] | .clc => ['C', 'L', 'C'] | .cld => ['C', 'L', 'D'] | .cli => ['C', 'L', 'I']
  | .clv => ['C', 'L', 'V'] | .cmp => ['C', 'M', 'P'] | .cpx => ['C', 'P', 'X'] | .cpy => ['C', 'P', 'Y']
  | .dec => ['D', 'E', 'C'] | .dex => ['D', 'E', 'X'] | .dey => ['D', 'E', 'Y'] | .eor => ['E', 'O', 'R']
  | .inc => ['I', 'N', 'C'] | .inx => ['I', 'N', 'X'] | .iny => ['I', 'N', 'Y'] | .jmp => ['J', 'M', 'P']
  | .jsr => ['J', 'S', 'R'] | .lda => ['L', 'D', 'A'] | .ldx => ['L', 'D', 'X'] | .ldy => ['L', 'D', 'Y']
  | .lsr => ['L', 'S', 'R'] | .nop => ['N', 'O', 'P'] | .ora => ['O', 'R', 'A'] | .pha => ['P', 'H', 'A']
  | .php => ['P', 'H', 'P'] | .pla => ['P', 'L', 'A'] | .plp => ['P', 'L', 'P'] | .rol => ['R', 'O', 'L']
  | .ror => ['R', 'O', 'R'] | .rti => ['R', 'T', 'I'] | .rts => ['R', 'T', 'S'] | .sbc => ['S', 'B', 'C']
  | .sec => ['S', 'E', 'C'] | .sed => ['S', 'E', 'D'] | .sei => ['S', 'E', 'I'] | .sta => ['S', 'T', 'A']
  | .stx => ['S', 'T', 'X'] | .sty => ['S', 'T', 'Y'] | .tax => ['T', 'A', 'X'] | .tay => ['T', 'A', 'Y']
  | .tsx => ['T', 'S', 'X'] | .txa => ['T', 'X', 'A'] | .txs => ['T', 'X', 'S'] | .tya => ['T', 'Y', 'A']
  | .placeholder => ['?', '?', '?']

/-- Where the disassembler and the assembler find bytes: the CPU address space, or one PRG bank (R313, R330). -/
inductive Space where
  | cpu
  | bank (b : Nat)
  deriving DecidableEq, Repr

/-- One byte of a space (R313): the host read (R68), or `ReadBank(PRG, bank, a)` (R69). -/
def readSpace (sp : Space) (a : Word) (s : State) : Byte × State :=
  match sp with
  | .cpu => hostRead a s
  | .bank b => (readBankPrg (b : Int) a s, s)

/-- The bytes of the instruction at a cursor: exactly as many as its length, 1 for an illegal byte (R313, R314). -/
def fetchBytes (sp : Space) (cursor : Word) (s : State) : List Byte × State :=
  let op := readSpace sp cursor s
  let n := (romEntry op.1).advance
  if n ≤ 1 then ([op.1], op.2)
  else
    let l := readSpace sp (cursor + 1#16) op.2
    if n ≤ 2 then ([op.1, l.1], l.2)
    else
      let h := readSpace sp (cursor + 2#16) l.2
      ([op.1, l.1, h.1], h.2)

/-- Operand text by mode, from bytes 1 and 2 (R315). -/
def operandText (m : Mode) (b1 b2 : Byte) : List Char :=
  match m with
  | .implied | .invalid | .pseudo => []
  | .accumulator => ['A']
  | .immediate => ['#', '$'] ++ hex2 b1
  | .zeroPage => ['$'] ++ hex2 b1
  | .zeroPageX => ['$'] ++ hex2 b1 ++ [',', 'X']
  | .zeroPageY => ['$'] ++ hex2 b1 ++ [',', 'Y']
  | .relative => ['$'] ++ hex2 b1
  | .indexedIndirect => ['(', '$'] ++ hex2 b1 ++ [',', 'X', ')']
  | .indirectIndexed => ['(', '$'] ++ hex2 b1 ++ [')', ',', 'Y']
  | .absolute => ['$'] ++ hex2 b2 ++ hex2 b1
  | .absoluteX => ['$'] ++ hex2 b2 ++ hex2 b1 ++ [',', 'X']
  | .absoluteY => ['$'] ++ hex2 b2 ++ hex2 b1 ++ [',', 'Y']
  | .indirect => ['(', '$'] ++ hex2 b2 ++ hex2 b1 ++ [')']

/-- The target suffix of a Relative instruction (R316). -/
def targetText (m : Mode) (cursor : Word) (b1 : Byte) : List Char :=
  match m with
  | .relative => [' ', ';', ' ', '$'] ++ hex4 (cursor + 2#16 + sext16 b1)
  | .absolute | .absoluteX | .absoluteY | .accumulator | .immediate | .implied | .indexedIndirect
  | .indirect | .indirectIndexed | .zeroPage | .zeroPageX | .zeroPageY | .pseudo | .invalid => []

/-- `%02X` of a bank number: at least two uppercase hex digits (R317). -/
def bankText (b : Nat) : List Char :=
  let ds := (Nat.toDigits 16 b).map Char.toUpper
  List.replicate (2 - ds.length) '0' ++ ds

/-- The address field (R317). -/
def addressText (sp : Space) (cursor : Word) : List Char :=
  match sp with
  | .cpu => hex4 cursor
  | .bank b => bankText b ++ [':'] ++ hex4 cursor

/-- The hex dump: the bytes separated by one space, padded to 8 characters (R317). -/
def dumpText (bs : List Byte) : List Char :=
  let t := (bs.map hex2).intersperse [' '] |>.flatten
  t ++ List.replicate (8 - t.length) ' '

/-- The line of an instruction whose bytes have been read (R317, R318). -/
def lineText (sp : Space) (cursor : Word) (bs : List Byte) : List Char :=
  let e := romEntry (bs.getD 0 0#8)
  let b1 := bs.getD 1 0#8
  let o := operandText e.mode b1 (bs.getD 2 0#8)
  addressText sp cursor ++ [' ', ' '] ++ dumpText bs ++ [' ', ' '] ++ mnemonicText e.mnemonic ++
  (if o.isEmpty then [] else ' ' :: o) ++ targetText e.mode cursor b1

/-- What `Disassemble(cursor)` gives: the line, the cursor after it, and the state after its reads, which changes
only the number of the next external draw (R310, R319). -/
structure Disassembled where
  line : List Char
  cursor : Word
  st : State
  deriving DecidableEq, Repr

/-- `Disassemble(cursor)` in a space (R310 to R320). The cursor moves past the instruction modulo 2^16 (R319, R320). -/
def disassembleChars (sp : Space) (cursor : Word) (s : State) : Disassembled :=
  let f := fetchBytes sp cursor s
  ⟨lineText sp cursor f.1, cursor + BitVec.ofNat 16 f.1.length, f.2⟩

/-- The line as a String, and the cursor after it. -/
def disassemble (sp : Space) (cursor : Word) (s : State) : String × Word :=
  let d := disassembleChars sp cursor s
  (String.ofList d.line, d.cursor)

end Sys2Proof.Machine
end

