-- ==== Sys2Proof/Machine/Asm.lean ====
section
/-! DEFINITION. The assembler of rules R330 to R352: the toolchain that shares the instruction ROM with the
interpreter (R7). Its session is the caller's own object and no part of State (DEDUCED, assumption 14). Text is a list of
characters. DESIGN CHOICE (assumption 15): the corners that those rules leave open. -/

namespace Sys2Proof.Machine

/-! ### The session (R330) -/

/-- A symbol name's characters (R335). -/
abbrev SymbolName := List Char

/-- A fixup: the address to patch, the byte width (2 in the code table, where the mode decides), the symbol, and the
address space it was made in (R330). -/
structure Fixup where
  addr : Word
  width : Nat
  name : SymbolName
  space : Space
  deriving DecidableEq, Repr

/-- The three tables (R330). The fixup tables are kept in ascending address order, one entry an address. -/
structure Session where
  labels : List (SymbolName × Word)
  codeFixups : List Fixup
  dataFixups : List Fixup
  deriving DecidableEq, Repr

/-- `ResetSession()`, and a fresh session (R330). -/
def emptySession : Session := ⟨[], [], []⟩

/-- A label's value, if the table holds it (R336). -/
def lookupLabel (t : List (SymbolName × Word)) (n : SymbolName) : Option Word := t.lookup n

/-- Adds a label or overwrites it (R339, R340). -/
def setLabel (n : SymbolName) (v : Word) (t : List (SymbolName × Word)) : List (SymbolName × Word) :=
  (n, v) :: t.filter (fun e => e.1 ≠ n)

/-- Puts a fixup in a table, replacing any entry at that address (R347). -/
def addFixup (f : Fixup) : List Fixup → List Fixup
  | [] => [f]
  | g :: t =>
    if f.addr < g.addr then f :: g :: t
    else if f.addr = g.addr then f :: t
    else g :: addFixup f t

/-- The result codes None, End, Meta, UnknownOpcode, InvalidOperand, InvalidMode (R332). -/
inductive AsmCode where
  | codeNone | codeEnd | codeMeta | unknownOpcode | invalidOperand | invalidMode
  deriving DecidableEq, Repr

/-! ### Lexical rules (R334 to R337) -/

/-- A space or a tab (R334). -/
def isBlank (c : Char) : Bool := c = ' ' || c = '\t'

/-- The line without its comment and without spaces and tabs at its ends (R334). -/
def stripLine (l : List Char) : List Char :=
  (((l.takeWhile (· ≠ ';')).dropWhile isBlank).reverse.dropWhile isBlank).reverse

/-- The operand without spaces and tabs (R334). -/
def squeeze (l : List Char) : List Char := l.filter (fun c => !isBlank c)

/-- A letter or `_` (R335). -/
def isNameStart (c : Char) : Bool := c.isAlpha || c = '_'

/-- A letter, a digit or `_` (R335). -/
def isNameChar (c : Char) : Bool := c.isAlphanum || c = '_'

/-- A symbol name: a letter or `_`, then letters, digits and `_` (R335). -/
def isName (l : List Char) : Bool :=
  match l with
  | [] => false
  | c :: cs => isNameStart c && cs.all isNameChar

/-- The leading name of a text and the rest after it. -/
def splitName (l : List Char) : List Char × List Char := (l.takeWhile isNameChar, l.dropWhile isNameChar)

/-- A hex digit's value. -/
def hexValue (c : Char) : Option Nat :=
  if '0' ≤ c && c ≤ '9' then some (c.toNat - '0'.toNat)
  else if 'A' ≤ c && c ≤ 'F' then some (c.toNat - 'A'.toNat + 10)
  else if 'a' ≤ c && c ≤ 'f' then some (c.toNat - 'a'.toNat + 10)
  else none

/-- A decimal digit's value. -/
def decValue (c : Char) : Option Nat := if '0' ≤ c && c ≤ '9' then some (c.toNat - '0'.toNat) else none

/-- A number in a base, if every character is a digit of it. -/
def digitsValue (digit : Char → Option Nat) (base : Nat) : List Char → Nat → Option Nat
  | [], acc => some acc
  | c :: cs, acc =>
    match digit c with
    | some d => digitsValue digit base cs (acc * base + d)
    | none => none

/-- A value as written (R336). A hex literal keeps its digit count, which decides its width class (R337). -/
inductive Value where
  | hex (digits : Nat) (v : Nat)
  | dec (v : Nat)
  | star
  | sym (n : SymbolName)
  deriving DecidableEq, Repr

/-- Reading a value: `$` and 1 to 8 hex digits, decimal digits, `*`, or a symbol name (R336). -/
def parseValue (l : List Char) : Option Value :=
  match l with
  | [] => none
  | ['*'] => some .star
  | '$' :: ds =>
    if ds.isEmpty || ds.length > 8 then none else (digitsValue hexValue 16 ds 0).map (Value.hex ds.length)
  | c :: cs => if isName (c :: cs) then some (.sym (c :: cs)) else (digitsValue decValue 10 (c :: cs) 0).map .dec

/-- What a value is when its line is assembled: a number, or a symbol the table does not hold (R336). -/
inductive Resolved where
  | known (v : Nat) (byteClass : Bool)
  | unknown (n : SymbolName)
  deriving DecidableEq, Repr

/-- Resolving a value at a cursor, with its width class (R336, R337). -/
def resolve (t : List (SymbolName × Word)) (cursor : Word) (v : Value) : Resolved :=
  match v with
  | .hex d n => .known n (decide (d ≤ 2))
  | .dec n => .known n (decide (n < 256))
  | .star => .known cursor.toNat (decide (cursor.toNat < 256))
  | .sym n =>
    match lookupLabel t n with
    | some w => .known w.toNat (decide (w.toNat < 256))
    | none => .unknown n

/-- A value in an instruction operand: above $FFFF, or a hex literal of more than 4 digits, is no operand (R337). -/
def operandOf (t : List (SymbolName × Word)) (cursor : Word) (l : List Char) : Option Resolved :=
  match parseValue l with
  | none => none
  | some (.hex d n) => if d > 4 then none else some (resolve t cursor (.hex d n))
  | some v =>
    match resolve t cursor v with
    | .known n b => if n > 0xFFFF then none else some (.known n b)
    | .unknown n => some (.unknown n)

/-! ### Operand patterns and mode resolution (R343, R344) -/

/-- Whether a text ends in `suffix`, letters compared without case; the text before it. -/
def beforeSuffix (suffix l : List Char) : Option (List Char) :=
  let n := l.length - suffix.length
  if suffix.length ≤ l.length ∧ (l.drop n).map Char.toUpper = suffix then some (l.take n) else none

/-- A value constrained to be known and 0 to 255 (R343). -/
def byteOperand (m : Mode) (r : Option Resolved) : Option (Mode × Resolved) :=
  match r with
  | some (.known v b) => if v < 256 then some (m, .known v b) else none
  | some (.unknown _) | none => none

/-- A value whose width class chooses between two modes: unknown symbols are word-class (R337, R343). -/
def classOperand (byteMode wordMode : Mode) (r : Option Resolved) : Option (Mode × Resolved) :=
  match r with
  | some (.known v b) => some (if b then byteMode else wordMode, .known v b)
  | some (.unknown n) => some (wordMode, .unknown n)
  | none => none

/-- The parsed mode and value of a parenthesised operand, after its `(` (R343). -/
def parseParen (t : List (SymbolName × Word)) (cursor : Word) (l : List Char) : Option (Mode × Resolved) :=
  match beforeSuffix [',', 'X', ')'] l with
  | some v => byteOperand .indexedIndirect (operandOf t cursor v)
  | none =>
    match beforeSuffix [')', ',', 'Y'] l with
    | some v => byteOperand .indirectIndexed (operandOf t cursor v)
    | none =>
      match beforeSuffix [')'] l with
      | some v => (operandOf t cursor v).map (fun r => (.indirect, r))
      | none => none

/-- The parsed mode and value of an operand without spaces (R343). An operand without a value has value 0. -/
def parseOperand (t : List (SymbolName × Word)) (cursor : Word) (l : List Char) : Option (Mode × Resolved) :=
  match l with
  | [] => some (.implied, .known 0 true)
  | '#' :: v => byteOperand .immediate (operandOf t cursor v)
  | '(' :: v => parseParen t cursor v
  | c :: cs =>
    if cs.isEmpty && c.toUpper = 'A' then some (.accumulator, .known 0 true)
    else
      match beforeSuffix [',', 'X'] (c :: cs) with
      | some v => classOperand .zeroPageX .absoluteX (operandOf t cursor v)
      | none =>
        match beforeSuffix [',', 'Y'] (c :: cs) with
        | some v => classOperand .zeroPageY .absoluteY (operandOf t cursor v)
        | none => classOperand .zeroPage .absolute (operandOf t cursor (c :: cs))

/-- The opcode of a mnemonic in a mode, from the ROM (R122, R343). -/
def opcodeFor (n : Mnemonic) (m : Mode) : Option Byte :=
  ((List.range 256).map (BitVec.ofNat 8)).find? (fun op => (romEntry op).mnemonic = n && (romEntry op).mode = m)

/-- The absolute mode a zero-page mode widens to (R344). -/
def widened : Mode → Option Mode
  | .zeroPage => some .absolute
  | .zeroPageX => some .absoluteX
  | .zeroPageY => some .absoluteY
  | .absolute | .absoluteX | .absoluteY | .accumulator | .immediate | .implied | .indexedIndirect
  | .indirect | .indirectIndexed | .relative | .pseudo | .invalid => none

/-- The modes to try for a parsed mode, in order (R344). -/
def modeCandidates (p : Mode) : List Mode :=
  p :: (widened p).toList ++ (if p = .zeroPage ∨ p = .absolute then [.relative] else []) ++
  (if p = .implied then [.accumulator] else [])

/-- The first candidate the mnemonic has an opcode for (R344). -/
def resolveMode (n : Mnemonic) (p : Mode) : Option (Mode × Byte) :=
  (modeCandidates p).findSome? (fun m => (opcodeFor n m).map (fun op => (m, op)))

/-- The mnemonic of a name, letters compared without case (R335, R343). -/
def findMnemonic (l : List Char) : Option Mnemonic :=
  mnemonicList.find? (fun n => n ≠ .placeholder && mnemonicText n = l.map Char.toUpper)

/-! ### Emission (R345 to R347) -/

/-- What a line does when it succeeds: the bytes at the cursor, the new cursor, the session, the code. -/
structure Emitted where
  code : AsmCode
  bytes : List Byte
  cursor : Word
  session : Session
  deriving DecidableEq, Repr

/-- The signed 16-bit distance from `c` to `t` (R346). -/
def distance (t c : Word) : Int := ((t.toNat : Int) - (c.toNat : Int) + 0x8000) % 0x10000 - 0x8000

/-- The displacement byte, if the distance fits -128..127 (R346). -/
def displacement (t c : Word) : Option Byte :=
  let d := distance t c
  if -128 ≤ d ∧ d ≤ 127 then some (BitVec.ofInt 8 d) else none

/-- The word of a resolved operand: an unknown symbol's placeholder is 0 (R345). -/
def operandWord : Resolved → Word
  | .known v _ => BitVec.ofNat 16 v
  | .unknown _ => 0#16

/-- The operand bytes of an instruction in a mode at a cursor, or nothing when a branch is out of range
(R345, R346). -/
def operandEmit (m : Mode) (n : Mnemonic) (r : Resolved) (cursor : Word) : Option (List Byte) :=
  match m with
  | .immediate | .zeroPage | .zeroPageX | .zeroPageY | .indexedIndirect | .indirectIndexed =>
    some [lo (operandWord r)]
  | .absolute | .absoluteX | .absoluteY | .indirect => some [lo (operandWord r), hi (operandWord r)]
  | .relative =>
    match r with
    | .known v _ => (displacement (BitVec.ofNat 16 v) (cursor + 2#16)).map (fun d => [d])
    | .unknown _ => some [0#8]
  | .implied => some (if n = .brk then [0#8] else [])
  | .accumulator | .pseudo | .invalid => some []

/-- The session with the code fixup an unknown symbol makes at the operand's address (R347). -/
def codeFixup (sp : Space) (r : Resolved) (cursor : Word) (ss : Session) : Session :=
  match r with
  | .known _ _ => ss
  | .unknown n => { ss with codeFixups := addFixup ⟨cursor + 1#16, 2, n, sp⟩ ss.codeFixups }

/-- Assembling an instruction line: mnemonic, operand, mode, bytes (R343 to R347). -/
def assembleInstruction (sp : Space) (l : List Char) (cursor : Word) (ss : Session) : Except AsmCode Emitted :=
  let w := splitName l
  match findMnemonic w.1 with
  | none => .error .unknownOpcode
  | some n =>
    match parseOperand ss.labels cursor (squeeze w.2) with
    | none => .error .invalidOperand
    | some (p, r) =>
      match resolveMode n p with
      | none => .error .invalidMode
      | some (m, op) =>
        match operandEmit m n r cursor with
        | none => .error .invalidOperand
        | some bs =>
          .ok ⟨.codeNone, op :: bs, cursor + BitVec.ofNat 16 (romEntry op).size, codeFixup sp r cursor ss⟩

/-! ### Labels, assignments and directives (R339 to R342) -/

/-- A value that must be known and 0 to $FFFF (R340, R342). DESIGN CHOICE (assumption 15): a lone `A` here is a symbol, if
the table holds a label of that name. -/
def wordValue (ss : Session) (cursor : Word) (l : List Char) : Option Word :=
  match parseValue l with
  | none => none
  | some v =>
    match resolve ss.labels cursor v with
    | .known n _ => if n ≤ 0xFFFF then some (BitVec.ofNat 16 n) else none
    | .unknown _ => none

/-- The operands of a list: the texts between its commas. -/
def splitCommas : List Char → List (List Char)
  | [] => [[]]
  | c :: cs =>
    if c = ',' then [] :: splitCommas cs
    else
      match splitCommas cs with
      | [] => [[c]]
      | f :: r => (c :: f) :: r

/-- A data operand: an integer, or an unknown symbol (R341). The whole operand `A` is never a symbol (R335); here it
is InvalidOperand, DESIGN CHOICE (assumption 15). -/
inductive DataOperand where
  | value (v : Int)
  | later (n : SymbolName)
  deriving DecidableEq, Repr

/-- A literal's value, hex or decimal (R336). -/
def literalValue (l : List Char) : Option Nat :=
  match parseValue l with
  | some (.hex _ n) | some (.dec n) => some n
  | some .star | some (.sym _) | none => none

/-- Reading one data operand at the line's cursor (R341). -/
def dataOperand (ss : Session) (cursor : Word) (l : List Char) : Option DataOperand :=
  match l with
  | '-' :: ds => (literalValue ds).map (fun n => .value (-(n : Int)))
  | ['A'] | ['a'] => none
  | _ =>
    match parseValue l with
    | none => none
    | some v =>
      match resolve ss.labels cursor v with
      | .known n _ => some (.value (n : Int))
      | .unknown n => some (.later n)

/-- The `w` bytes of an integer modulo 2^(8w), low byte first (R341). -/
def dataBytes (w : Nat) (v : Int) : List Byte :=
  (List.range w).map (fun k => byteOf (v % (2 ^ (8 * w) : Nat)).toNat k)

/-- Emitting data operands one after the other from a cursor: bytes and data fixups (R341). -/
def emitData (sp : Space) (w : Nat) : List DataOperand → Word → Session → List Byte × Session
  | [], _, ss => ([], ss)
  | .value v :: os, c, ss =>
    let r := emitData sp w os (c + BitVec.ofNat 16 w) ss
    (dataBytes w v ++ r.1, r.2)
  | .later n :: os, c, ss =>
    let r := emitData sp w os (c + BitVec.ofNat 16 w) { ss with dataFixups := addFixup ⟨c, w, n, sp⟩ ss.dataFixups }
    (List.replicate w 0#8 ++ r.1, r.2)

/-- `.DB`, `.DW`, `.DD` with a comma-separated list (R341). -/
def assembleData (sp : Space) (w : Nat) (l : List Char) (cursor : Word) (ss : Session) : Except AsmCode Emitted :=
  match (splitCommas (squeeze l)).mapM (dataOperand ss cursor) with
  | none => .error .invalidOperand
  | some os =>
    let r := emitData sp w os cursor ss
    .ok ⟨.codeMeta, r.1, cursor + BitVec.ofNat 16 (w * os.length), r.2⟩

/-- The directives (R341, R342), by name without case. DESIGN CHOICE (assumption 15): blanks inside the value after `.ORG`
are dropped, as inside an operand (R334). -/
def assembleDirective (sp : Space) (name rest : List Char) (cursor : Word) (ss : Session) : Except AsmCode Emitted :=
  match name.map Char.toUpper with
  | ['D', 'B'] => assembleData sp 1 rest cursor ss
  | ['D', 'W'] => assembleData sp 2 rest cursor ss
  | ['D', 'D'] => assembleData sp 4 rest cursor ss
  | ['O', 'R', 'G'] =>
    match wordValue ss cursor (squeeze rest) with
    | some v => .ok ⟨.codeMeta, [], v, ss⟩
    | none => .error .invalidOperand
  | ['E', 'N', 'D'] =>
    if (squeeze rest).isEmpty then .ok ⟨.codeEnd, [], cursor, ss⟩ else .error .invalidOperand
  | _ => .error .unknownOpcode

/-- A stripped line, classified in the order of R338: blank, label, assignment, directive, instruction. DESIGN CHOICE
(assumption 15): blanks may stand between a label's name and its `:`; a directive's name is the longest run of name
characters, with no blank needed before its operand; every `NAME =` is an assignment, InvalidOperand when its text is no
value; blanks inside that text are dropped. -/
def assembleStripped (sp : Space) (l : List Char) (cursor : Word) (ss : Session) : Except AsmCode Emitted :=
  match l with
  | [] => .ok ⟨.codeNone, [], cursor, ss⟩
  | c :: cs =>
    let w := splitName l
    let rest := w.2.dropWhile isBlank
    match isName w.1, rest with
    | true, ':' :: after =>
      if after.isEmpty then .ok ⟨.codeMeta, [], cursor, { ss with labels := setLabel w.1 cursor ss.labels }⟩
      else .error .invalidOperand
    | true, '=' :: after =>
      match wordValue ss cursor (squeeze after) with
      | some v => .ok ⟨.codeMeta, [], cursor, { ss with labels := setLabel w.1 v ss.labels }⟩
      | none => .error .invalidOperand
    | _, _ =>
      let d := splitName cs
      if c = '.' && isName d.1 then assembleDirective sp d.1 d.2 cursor ss
      else assembleInstruction sp l cursor ss

/-! ### Writing, and the entry points (R331, R333, R348 to R350) -/

/-- One byte written through the host accessor of a space (R331). -/
def writeSpace (sp : Space) (a : Word) (v : Byte) (s : State) : State :=
  match sp with
  | .cpu => hostWrite a v s
  | .bank b => writeBankPrg (b : Int) a v s

/-- Bytes written from an address on, addresses modulo 2^16 (R345). -/
def writeBytes (sp : Space) : Word → List Byte → State → State
  | _, [], s => s
  | a, b :: bs, s => writeBytes sp (a + 1#16) bs (writeSpace sp a b s)

/-- What `Assemble(line, cursor)` gives back (R331). -/
structure Assembled where
  code : AsmCode
  cursor : Word
  session : Session
  st : State
  deriving DecidableEq, Repr

/-- `Assemble(line, cursor)` in a space: a failing line writes nothing and changes neither cursor nor session
(R331, R333). -/
def assemble (sp : Space) (line : List Char) (cursor : Word) (ss : Session) (s : State) : Assembled :=
  match assembleStripped sp (stripLine line) cursor ss with
  | .ok e => ⟨e.code, e.cursor, e.session, writeBytes sp cursor e.bytes s⟩
  | .error c => ⟨c, cursor, ss, s⟩

/-- `Unresolved symbol 'name' at $AAAA` (R348). -/
def unresolvedText (n : SymbolName) (a : Word) : List Char :=
  ['U', 'n', 'r', 'e', 's', 'o', 'l', 'v', 'e', 'd', ' ', 's', 'y', 'm', 'b', 'o', 'l', ' ', '\''] ++ n ++
  ['\'', ' ', 'a', 't', ' ', '$'] ++ hex4 a

/-- `Branch to 'name' out of range at $AAAA` (R348). -/
def rangeText (n : SymbolName) (a : Word) : List Char :=
  ['B', 'r', 'a', 'n', 'c', 'h', ' ', 't', 'o', ' ', '\''] ++ n ++
  ['\'', ' ', 'o', 'u', 't', ' ', 'o', 'f', ' ', 'r', 'a', 'n', 'g', 'e', ' ', 'a', 't', ' ', '$'] ++ hex4 a

/-- One code fixup: the mode is the ROM's for the byte before the operand (R348). -/
def applyCodeFixup (t : List (SymbolName × Word)) (f : Fixup) (s : State) : List (List Char) × State :=
  match lookupLabel t f.name with
  | none => ([unresolvedText f.name f.addr], s)
  | some v =>
    let op := readSpace f.space (f.addr - 1#16) s
    if (romEntry op.1).mode = .relative then
      match displacement v (f.addr + 1#16) with
      | some d => ([], writeSpace f.space f.addr d op.2)
      | none => ([rangeText f.name f.addr], op.2)
    else ([], writeBytes f.space f.addr [lo v, hi v] op.2)

/-- One data fixup: the value zero-extended to the width, low byte first (R349). -/
def applyDataFixup (t : List (SymbolName × Word)) (f : Fixup) (s : State) : List (List Char) × State :=
  match lookupLabel t f.name with
  | none => ([unresolvedText f.name f.addr], s)
  | some v => ([], writeBytes f.space f.addr (dataBytes f.width (v.toNat : Int)) s)

/-- A table of fixups in order, each resolved on its own (R350). -/
def applyAll (one : Fixup → State → List (List Char) × State) : List Fixup → State → List (List Char) × State
  | [], s => ([], s)
  | f :: fs, s =>
    let r := one f s
    let q := applyAll one fs r.2
    (r.1 ++ q.1, q.2)

/-- `ApplyFixups()`: code fixups, then data fixups, each in ascending address order; both tables end empty and the
labels are kept (R348 to R350). Returns the error strings, the session and the state. -/
def applyFixups (ss : Session) (s : State) : List (List Char) × Session × State :=
  let c := applyAll (applyCodeFixup ss.labels) ss.codeFixups s
  let d := applyAll (applyDataFixup ss.labels) ss.dataFixups c.2
  (c.1 ++ d.1, { ss with codeFixups := [], dataFixups := [] }, d.2)

end Sys2Proof.Machine
end

