-- ==== Sys2Proof/Machine/Emulate.lean ====
section
/-! DEFINITION. What `Emulate()` returns to its caller (rules R149, R150, R152): the cycles the step consumed and the
diagnostic it raised, read off the states before and after. -/

namespace Sys2Proof.Machine

/-- The diagnostic among the events of one step, if it raised one (R48, R300). -/
def diagnosticOf : List Event → Option (Byte × Word)
  | [] => none
  | .illegalOpcode op addr :: _ => some (op, addr)
  | .extWrite _ _ :: es => diagnosticOf es

/-- The events a step added, newest first. -/
def newEvents (s t : State) : List Event := t.events.take (t.events.length - s.events.length)

/-- `cycles - c0` (R149). DEDUCED (assumption 20): modulo 2^64. -/
def stepCycles (s t : State) : Nat := (t.cycles - s.cycles).toNat

/-- `Emulate()` with its return value: the next state, the step's cycle count, and the diagnostic (R150, R152). -/
def emulate (s : State) : Host.Outcome (State × Nat × Option (Byte × Word)) Fault Refusal :=
  match step s with
  | .next t => .next (t, stepCycles s t, diagnosticOf (newEvents s t))
  | .fault f => .fault f
  | .refused r => .refused r

end Sys2Proof.Machine
end

