-- ==== Sys2Proof/Safety.lean ====
section
/-! DEFINITION. The terms that claims about the machine use: the invariant of a running machine, what it means that a
part of the state is unchanged, and what a store does through the decoder. -/

namespace Sys2Proof.Machine

/-! ### The invariant -/

/-- The three storages are in canonical form and inside their sizes (R49, R62, R64). -/
def MemoryOk (s : State) : Prop :=
  s.ram.wf = true ∧ s.prg.wf = true ∧ s.chr.wf = true ∧
  s.ram.below 2048 = true ∧ s.prg.below s.params.prgSize = true ∧ s.chr.below s.params.chrSize = true

/-- "P.U = 1 and P.B = 0 hold at every step boundary after the first `Reset()`" (R37). -/
def FlagsOk (s : State) : Prop := s.flag .u = true ∧ s.flag .b = false

/-- The serial register holds its sentinel: some bit is set (R83). -/
def SentinelOk (s : State) : Prop := s.shift ≠ 0#5

/-- "Watchdog state `last_branch`, present only when `SELF_LOOP_ABORT` is true" (R47). -/
def WatchdogOk (s : State) : Prop := s.params.selfLoopAbort = false → s.lastBranch = none

/-- The invariant of a machine that has been reset with a legal cartridge. -/
def Invariant (s : State) : Prop :=
  s.params.valid = true ∧ s.resetDone = true ∧ MemoryOk s ∧ FlagsOk s ∧ SentinelOk s ∧ WatchdogOk s

/-! ### Unchanged parts -/

/-- Every byte reads as before: every CPU address that names storage, and every byte of the three storages. An
external address names no storage: each read there is a fresh draw (R65). -/
def SameBytes (s t : State) : Prop :=
  (∀ a : Word, isExternal a = false → t.peek a = s.peek a) ∧
  (∀ k, t.ram.read k = s.ram.read k) ∧ (∀ k, t.prg.read k = s.prg.read k) ∧ (∀ k, t.chr.read k = s.chr.read k)

/-- The mapper's five registers are unchanged (R50). -/
def SameMapper (s t : State) : Prop :=
  t.shift = s.shift ∧ t.control = s.control ∧ t.chrBank0 = s.chrBank0 ∧ t.chrBank1 = s.chrBank1 ∧
  t.prgBank = s.prgBank

/-- The flags outside a list are unchanged. -/
def FlagsSameBut (fs : List Flag) (s t : State) : Prop := ∀ f, f ∉ fs → t.flag f = s.flag f

/-- Requests, stall, parameters, CHR and the Reset mark are unchanged. -/
def SameControls (s t : State) : Prop :=
  t.stall = s.stall ∧ t.nmiPending = s.nmiPending ∧ t.irqPending = s.irqPending ∧ t.params = s.params ∧
  t.chr = s.chr ∧ t.resetDone = s.resetDone

/-- Memory, mapper, requests, stall, parameters and events are unchanged. -/
def SameStorage (s t : State) : Prop := SameBytes s t ∧ SameMapper s t ∧ SameControls s t ∧ t.events = s.events

/-- Everything outside the registers, P, PC, the cycle counter and the external draw number is unchanged. -/
def RestSame (s t : State) : Prop := SameStorage s t ∧ t.lastBranch = s.lastBranch

/-- A, X, Y, SP and P are unchanged. -/
def SameRegs (s t : State) : Prop := t.a = s.a ∧ t.x = s.x ∧ t.y = s.y ∧ t.sp = s.sp ∧ t.p = s.p

/-- The three index and accumulator registers are unchanged. -/
def SameAXY (s t : State) : Prop := t.a = s.a ∧ t.x = s.x ∧ t.y = s.y

/-- PC moved on by `n` bytes and `c` cycles were charged (R44, R145). -/
def Moved (n c : Nat) (s t : State) : Prop :=
  t.pc = s.pc + BitVec.ofNat 16 n ∧ t.cycles = s.cycles + BitVec.ofNat 64 c

/-- N and Z are those of `v`, and the flags outside `fs` are unchanged. -/
def NZOf (v : Byte) (fs : List Flag) (s t : State) : Prop :=
  t.flag .z = decide (v = 0#8) ∧ t.flag .n = v.getLsbD 7 ∧ FlagsSameBut (.n :: .z :: fs) s t

/-! ### The operand of an instruction, on the state its opcode is fetched in -/

/-- The effective address of an operand (R102 to R113). -/
def eaOf (o : Operand) (s : State) : Word := (effAddr o s).ea

/-- Whether the address computation crossed a page (R105, R111, R114). -/
def crossedOf (o : Operand) (s : State) : Bool := (effAddr o s).crossed

/-- The operand value M (R154): the immediate byte, A, or the byte at the effective address as it reads after the
mode's pointer reads. -/
def operandM (o : Operand) (s : State) : Byte :=
  match o with
  | .imm v => v
  | .acc => s.a
  | .imp | .rel _ | .zp _ | .zpx _ | .zpy _ | .izx _ | .izy _ | .abs _ | .abx _ | .aby _ | .ind _ =>
    (effAddr o s).st.peek (effAddr o s).ea

/-- How many external draws an operand's reads make: the two pointer bytes of the Indirect mode, or the one read of M
(R65, R77, R109, R154). `readsM` says whether the instruction reads M at all. -/
def operandDraws (readsM : Bool) (o : Operand) (s : State) : Nat :=
  match o with
  | .imp | .acc | .imm _ | .rel _ => 0
  | .ind w => (if isExternal w then 1 else 0) + (if isExternal (mkWord (hi w) (lo w + 1#8)) then 1 else 0)
  | .zp _ | .zpx _ | .zpy _ | .izx _ | .izy _ | .abs _ | .abx _ | .aby _ =>
    if readsM && isExternal (eaOf o s) then 1 else 0

/-- Whether an instruction reads the byte at its effective address (R154): not a store, a jump, a branch or an
instruction without an operand. -/
def readsM (i : Instr) : Bool :=
  match i with
  | .lda _ | .ldx _ | .ldy _ | .adc _ | .sbc _ | .and _ | .ora _ | .eor _ | .bit _ | .cmp _ | .cpx _ | .cpy _ => true
  | .inc _ | .dec _ | .asl _ | .lsr _ | .rol _ | .ror _ => true
  | .sta _ | .stx _ | .sty _ | .jmp _ | .jsr _ => false
  | .bcc _ | .bcs _ | .bne _ | .beq _ | .bpl _ | .bmi _ | .bvc _ | .bvs _ => false
  | .tax | .tay | .txa | .tya | .tsx | .txs | .pha | .php | .pla | .plp | .inx | .iny | .dex | .dey => false
  | .rts | .brk | .rti | .clc | .cld | .cli | .clv | .sec | .sed | .sei | .nop | .illegal _ => false

/-! ### Lengths and costs, from the mode tables of the spec and not from the ROM -/

/-- The bytes of an instruction with this operand, its opcode included (R101). BRK is the one exception (R124). -/
def formLength : Operand → Nat
  | .imp | .acc => 1
  | .imm _ | .zp _ | .zpx _ | .zpy _ | .rel _ | .izx _ | .izy _ => 2
  | .abs _ | .abx _ | .aby _ | .ind _ => 3

/-- The cycles of an instruction that reads M and writes no memory (R210, R414). No such instruction has the operands
of the last line. -/
def readCost (o : Operand) (s : State) : Nat :=
  match o with
  | .imm _ => 2
  | .zp _ => 3
  | .zpx _ | .zpy _ | .abs _ => 4
  | .abx _ | .aby _ => if crossedOf o s then 5 else 4
  | .izx _ => 6
  | .izy _ => if crossedOf o s then 6 else 5
  | .imp | .acc | .rel _ | .ind _ => 0

/-- The cycles of a store (R174, R414). -/
def storeCost : Operand → Nat
  | .zp _ => 3
  | .zpx _ | .zpy _ | .abs _ => 4
  | .abx _ | .aby _ => 5
  | .izx _ | .izy _ => 6
  | .imp | .acc | .imm _ | .rel _ | .ind _ => 0

/-- The cycles of a read-modify-write instruction, and of the Accumulator form of a shift (R240, R414). -/
def rmwCost : Operand → Nat
  | .acc => 2
  | .zp _ => 5
  | .zpx _ | .abs _ => 6
  | .abx _ => 7
  | .imp | .imm _ | .zpy _ | .rel _ | .izx _ | .izy _ | .aby _ | .ind _ => 0

/-- Whether a branch is taken (R261 to R268). -/
def branchTaken (i : Instr) (s : State) : Bool :=
  match i with
  | .bcc _ => !s.flag .c | .bcs _ => s.flag .c
  | .bne _ => !s.flag .z | .beq _ => s.flag .z
  | .bpl _ => !s.flag .n | .bmi _ => s.flag .n
  | .bvc _ => !s.flag .v | .bvs _ => s.flag .v
  | .lda _ | .ldx _ | .ldy _ | .sta _ | .stx _ | .sty _ => false
  | .tax | .tay | .txa | .tya | .tsx | .txs | .pha | .php | .pla | .plp => false
  | .adc _ | .sbc _ | .and _ | .ora _ | .eor _ | .bit _ | .cmp _ | .cpx _ | .cpy _ => false
  | .inc _ | .dec _ | .inx | .iny | .dex | .dey | .asl _ | .lsr _ | .rol _ | .ror _ => false
  | .jmp _ | .jsr _ | .rts | .brk | .rti => false
  | .clc | .cld | .cli | .clv | .sec | .sed | .sei | .nop | .illegal _ => false

/-- What a step that runs `i` charges in S4 to S7 (R151): the ROM's cycles, its page-crossing cycles when the address
computation crossed, and a taken branch's 1, or 2 when the target's page is not that of the next instruction. -/
def instrCost (i : Instr) (s : State) : Nat :=
  i.info.cycles + (if crossedOf i.operand s then i.info.pagecycles else 0) +
  (if branchTaken i s then (if hi (s.pc + 2#16) = hi (eaOf i.operand s) then 1 else 2) else 0)

/-- Whether S2 services a request (R366). -/
def serviced (s : State) : Bool := s.nmiPending || (s.irqPending && !s.flag .i)

/-- How many of the `n` bytes from `pc` on lie in the external region: the draws that fetching them makes (R65). -/
def fetchDraws (n : Nat) (pc : Word) : Nat :=
  ((List.range n).filter (fun k => isExternal (pc + BitVec.ofNat 16 k))).length

/-! ### Encodings -/

/-- The bytes decode to the instruction, whatever follows them. -/
def Codes (bs : List Byte) (i : Instr) : Prop := ∀ rest, decode (bs ++ rest) = .ok (i, rest)

/-- The encodings of the eight-mode group, in the column order of R122. -/
def AluCodes (mk : AluMode → Instr) (imm zp zpx abs abx aby izx izy : Byte) : Prop :=
  ∀ l h, Codes [imm, l] (mk (.imm l)) ∧ Codes [zp, l] (mk (.zp l)) ∧ Codes [zpx, l] (mk (.zpx l)) ∧
    Codes [abs, l, h] (mk (.abs (mkWord h l))) ∧ Codes [abx, l, h] (mk (.abx (mkWord h l))) ∧
    Codes [aby, l, h] (mk (.aby (mkWord h l))) ∧ Codes [izx, l] (mk (.izx l)) ∧ Codes [izy, l] (mk (.izy l))

/-- The encodings of CPX and CPY. -/
def CpCodes (mk : CpMode → Instr) (imm zp abs : Byte) : Prop :=
  ∀ l h, Codes [imm, l] (mk (.imm l)) ∧ Codes [zp, l] (mk (.zp l)) ∧ Codes [abs, l, h] (mk (.abs (mkWord h l)))

/-- The encodings of INC and DEC. -/
def RmwCodes (mk : RmwMode → Instr) (zp zpx abs abx : Byte) : Prop :=
  ∀ l h, Codes [zp, l] (mk (.zp l)) ∧ Codes [zpx, l] (mk (.zpx l)) ∧
    Codes [abs, l, h] (mk (.abs (mkWord h l))) ∧ Codes [abx, l, h] (mk (.abx (mkWord h l)))

/-- The encodings of a shift or rotate. -/
def ShiftCodes (mk : ShiftMode → Instr) (acc zp zpx abs abx : Byte) : Prop :=
  Codes [acc] (mk .acc) ∧
  ∀ l h, Codes [zp, l] (mk (.zp l)) ∧ Codes [zpx, l] (mk (.zpx l)) ∧
    Codes [abs, l, h] (mk (.abs (mkWord h l))) ∧ Codes [abx, l, h] (mk (.abx (mkWord h l)))

/-! ### Stores and pushes -/

/-- What storing byte `v` at CPU address `a` does to everything it can touch (R63, R64, R65, R67): work RAM, an event,
the mapper's serial port, or the PRG byte the address shows. `s` is the state whose mapping the store goes through.
Every other byte reads as before, at its storage address and at every CPU address. -/
def Stored (a : Word) (v : Byte) (s t : State) : Prop :=
  (isRam a = true →
    t.ram.read (ramIndex a) = v ∧ (∀ k, k ≠ ramIndex a → t.ram.read k = s.ram.read k) ∧
    (∀ k, t.prg.read k = s.prg.read k) ∧ SameMapper s t ∧ t.events = s.events ∧
    (∀ b : Word, isRam b = true → ramIndex b = ramIndex a → t.peek b = v) ∧
    (∀ b : Word, isExternal b = false → (isRam b = true → ramIndex b ≠ ramIndex a) → t.peek b = s.peek b)) ∧
  (isExternal a = true →
    t.events = .extWrite a v :: s.events ∧ (∀ k, t.ram.read k = s.ram.read k) ∧
    (∀ k, t.prg.read k = s.prg.read k) ∧ SameMapper s t ∧
    (∀ b : Word, isExternal b = false → t.peek b = s.peek b)) ∧
  (0x8000#16 ≤ a → s.params.romWriteMode = .registerLoad →
    (∀ k, t.ram.read k = s.ram.read k) ∧ (∀ k, t.prg.read k = s.prg.read k) ∧ SameMapper (serialWrite a v s) t ∧
    t.events = s.events ∧ (∀ b : Word, isRam b = true → t.peek b = s.peek b)) ∧
  (0x8000#16 ≤ a → s.params.romWriteMode = .storageWrite →
    t.prg.read (prgIndex s a) = v ∧ (∀ k, k ≠ prgIndex s a → t.prg.read k = s.prg.read k) ∧
    (∀ k, t.ram.read k = s.ram.read k) ∧ SameMapper s t ∧ t.events = s.events ∧ t.peek a = v ∧
    (∀ b : Word, isExternal b = false → (0x8000#16 ≤ b → prgIndex s b ≠ prgIndex s a) → t.peek b = s.peek b))

/-- The work RAM byte of the `j`-th push from a state with stack pointer `sp`: page one, SP counting down modulo 256
(R16, R34). -/
def stackCell (sp : Byte) (j : Nat) : Nat := 256 + (sp - BitVec.ofNat 8 j).toNat

/-- Pushing these bytes, the first one first: SP moves down by their number, each byte stands where SP pointed when it
was pushed, and every other byte, the mapper and the events are unchanged (R16). -/
def Pushed (bs : List Byte) (s t : State) : Prop :=
  t.sp = s.sp - BitVec.ofNat 8 bs.length ∧
  (∀ j (h : j < bs.length), t.ram.read (stackCell s.sp j) = bs[j] ∧ t.peek (stackAddr (s.sp - BitVec.ofNat 8 j)) = bs[j]) ∧
  (∀ k, (∀ j, j < bs.length → k ≠ stackCell s.sp j) → t.ram.read k = s.ram.read k) ∧
  (∀ b : Word, isExternal b = false → (isRam b = true → ∀ j, j < bs.length → ramIndex b ≠ stackCell s.sp j) →
    t.peek b = s.peek b) ∧
  (∀ k, t.prg.read k = s.prg.read k) ∧ SameMapper s t ∧ SameControls s t ∧ t.events = s.events ∧
  t.lastBranch = s.lastBranch

/-- The byte `n` pulls above the stack pointer (R16). -/
def stackByte (s : State) (n : Nat) : Byte := s.peek (stackAddr (s.sp + BitVec.ofNat 8 n))

/-- The 16-bit word at a vector, little-endian (R360). -/
def vectorWord (s : State) (vector : Word) : Word := mkWord (s.peek (vector + 1#16)) (s.peek vector)

/-! ### Serial writes to the mapper (R83) -/

/-- The 5-bit value whose bit `k` is the `k`-th argument. -/
def fiveBits (b0 b1 b2 b3 b4 : Bool) : BitVec 5 :=
  BitVec.ofNat 5 (b0.toNat + 2 * b1.toNat + 4 * b2.toNat + 8 * b3.toNat + 16 * b4.toNat)

/-- Five CPU stores to `a` of bytes whose bit 0 is given and whose other bits are 0 (R93). -/
def writeFive (a : Word) (b0 b1 b2 b3 b4 : Bool) (s : State) : State :=
  memWrite a (bitByte b4) (memWrite a (bitByte b3) (memWrite a (bitByte b2) (memWrite a (bitByte b1)
    (memWrite a (bitByte b0) s))))

/-! ### Branches -/

/-- What a conditional branch does with its condition evaluated (R260, R269, R270): PC, cycles and the watchdog in
each of the two cases where it completes. A branch writes no register, no flag and no memory. -/
def BranchCompletes (i : Instr) (d : Byte) (cond : Bool) (s : State) : Prop :=
  let next := s.pc + 2#16
  let target := BitVec.ofInt 16 ((s.pc.toNat : Int) + 2 + d.toInt)
  (cond = false →
    ∃ t, exec i s = .next t ∧ Moved 2 2 s t ∧ SameRegs s t ∧ SameStorage s t ∧
      t.lastBranch = (if s.params.selfLoopAbort then none else s.lastBranch)) ∧
  (cond = true → ¬ (s.params.selfLoopAbort = true ∧ target = s.pc ∧ s.lastBranch = some (s.pc, s.pc)) →
    ∃ t, exec i s = .next t ∧ t.pc = target ∧
      t.cycles = s.cycles + (if hi next = hi target then 3#64 else 4#64) ∧ SameRegs s t ∧ SameStorage s t ∧
      t.lastBranch = (if s.params.selfLoopAbort then some (s.pc, target) else s.lastBranch))

end Sys2Proof.Machine
end

