-- ==== Sys2Proof/Certificates/Slice0/Obligations.lean ====
section
/-! DEFINITION. The statements for the provers. Each docstring names the rule of spec/ it formalises. A statement
without hypotheses on the state holds of every state, reachable or not. -/

open Sys2Proof Sys2Proof.Machine

/-! ### Encoding -/

/-- Decoding the bytes of a well-formed instruction gives it back and leaves what follows (R100, R122, R124). -/
def Obligations.DecodeAfterEncode : Prop :=
  ∀ (i : Instr) (rest : List Byte), i.WellFormed → decode (encode i ++ rest) = .ok (i, rest)

/-- Whatever bytes decode to an instruction are its encoding, except that BRK's second byte may be any byte (R124). -/
def Obligations.EncodeAfterDecode : Prop :=
  ∀ (bs rest : List Byte) (i : Instr), decode bs = .ok (i, rest) →
    i.WellFormed ∧ (i ≠ .brk → encode i ++ rest = bs) ∧ (i = .brk → ∃ pad : Byte, bs = 0x00#8 :: pad :: rest)

/-- The 105 illegal bytes and their ROM entries; no other byte decodes to an illegal instruction (R123). -/
def Obligations.IllegalOpcodeSet : Prop :=
  illegalBytes.length = 105 ∧ illegalBytes.Nodup ∧
  ∀ op : Byte,
    (op ∈ illegalBytes →
      rom op = ⟨.placeholder, .invalid, 0, Config.illegalCycles op, 0⟩ ∧ Codes [op] (.illegal op)) ∧
    (op ∉ illegalBytes → (rom op).size ≠ 0 ∧ (rom op).mode ≠ .invalid ∧ ∀ l h, decodeOpcode op l h ≠ .illegal op)

/-- Words written out from the opcode map, one or two for each family (R120, R101). -/
def Obligations.SampleEncodings : Prop :=
  decode [0xBD#8, 0xF0#8, 0x12#8] = .ok (.lda (.abx 0x12F0#16), []) ∧
  decode [0x96#8, 0x10#8] = .ok (.stx (.zpy 0x10#8), []) ∧
  decode [0x48#8] = .ok (.pha, []) ∧
  decode [0x71#8, 0x20#8] = .ok (.adc (.izy 0x20#8), []) ∧
  decode [0x7E#8, 0xF0#8, 0x00#8] = .ok (.ror (.abx 0x00F0#16), []) ∧
  decode [0xD0#8, 0xFC#8] = .ok (.bne 0xFC#8, []) ∧
  decode [0x6C#8, 0xFF#8, 0x10#8] = .ok (.jmp (.ind 0x10FF#16), []) ∧
  decode [0x00#8, 0x12#8] = .ok (.brk, []) ∧
  decode [0x78#8] = .ok (.sei, []) ∧
  decode [0x02#8, 0x78#8] = .ok (.illegal 0x02#8, [0x78#8])

/-! ### The step -/

/-- A step that is not stalled services at most one request and then runs the instruction whose bytes stand at PC, on
the state those reads leave (R142, R143, R150). Choices of the model: `exec` is phases S4 to S7 with PC at the opcode
(assumption 21), and each of the opcode and operand bytes that lies in the external region is one draw counted in
`extReads` (assumption 4), where BRK's padding byte is not read (assumption 11). -/
def Obligations.StepRunsDecodedInstruction : Prop :=
  ∀ (s : State) (i : Instr) (rest : List Byte), s.resetDone = true → s.stall = 0 →
    let u := serviceInterrupt s
    let b0 := memRead u.pc u
    let b1 := memRead (u.pc + 1#16) b0.2
    let b2 := memRead (u.pc + 2#16) b1.2
    decode [b0.1, b1.1, b2.1] = .ok (i, rest) →
    step s = exec i { u with extReads := u.extReads + fetchDraws (1 + i.operand.bytes.length) u.pc }

/-- A stalled step counts the stall down, costs one cycle and changes nothing else; `AddStall` adds to the stall
(R141, R380). -/
def Obligations.StalledStepOnlyCounts : Prop :=
  (∀ s : State, s.resetDone = true → 0 < s.stall →
    step s = .next { s with stall := s.stall - 1, cycles := s.cycles + 1#64 } ∧
    emulate s = .next ({ s with stall := s.stall - 1, cycles := s.cycles + 1#64 }, 1, none)) ∧
  (∀ (s : State) (n : Nat), hostAddStall n s = { s with stall := s.stall + n } ∧ hostAddStall 0 s = s)

/-- A step is refused exactly before the first Reset, under that name; a loaded machine is such a machine
(R52, R404). -/
def Obligations.StepRefusedOnlyBeforeReset : Prop :=
  (∀ (s : State) (r : Refusal), step s = .refused r ↔ (s.resetDone = false ∧ r = .notReset)) ∧
  (∀ (p : Params) (r g c : List Host.Cell) (t : State), load p r g c = .next t →
    step t = .refused .notReset ∧ step (hostReset t) ≠ .refused .notReset)

/-- Every step after Reset completes when there is no watchdog: no instruction halts the machine and no data stops it
(R140, R152, R153). -/
def Obligations.EveryStepCompletes : Prop :=
  ∀ s : State, s.resetDone = true → s.params.selfLoopAbort = false → ∃ t, step s = .next t

/-- The one fault of a step is the watchdog's abort on a branch to itself (R152, R270, R361). -/
def Obligations.OnlyTheWatchdogFaults : Prop :=
  ∀ (s : State) (f : Fault), step s = .fault f →
    let u := serviceInterrupt s
    f = .selfLoop u.pc ∧ s.params.selfLoopAbort = true ∧ s.lastBranch = some (u.pc, u.pc) ∧
    branchTaken (fetch u).1 (fetch u).2 = true ∧ eaOf (fetch u).1.operand (fetch u).2 = u.pc

/-- A step's cycle count (R151): 1 for a stalled step; otherwise 7 for a serviced request, the ROM's cycles, its
page-crossing cycles when the address computation crossed, and a taken branch's extra cycles. -/
def Obligations.StepCycleCount : Prop :=
  ∀ s t : State, step s = .next t →
    (0 < s.stall → t.cycles = s.cycles + 1#64) ∧
    (s.stall = 0 →
      let f := fetch (serviceInterrupt s)
      t.cycles = s.cycles + BitVec.ofNat 64 ((if serviced s then 7 else 0) + instrCost f.1 f.2))

/-- The invariant of a machine that was reset with a legal cartridge holds after every step from a state that has it,
reachable or not: storages in canonical form and inside their sizes, P.U = 1 and P.B = 0 (R37), a serial register
that holds its sentinel (R83), no watchdog state without a watchdog (R47). -/
def Obligations.StepKeepsInvariant : Prop := ∀ s t : State, Invariant s → step s = .next t → Invariant t

/-- The invariant holds right after reset, and after `Reset()` of any loaded cartridge. That `State.reset` has two empty
PRG banks and zeroed RAM is the model's choice (assumptions 1 and 2); the second part holds for every image. -/
def Obligations.ResetMeetsInvariant : Prop :=
  Invariant State.reset ∧ ∀ (p : Params) (r g c : List Host.Cell) (t : State), load p r g c = .next t → Invariant (hostReset t)

/-- With the default mode of CPU stores, no step changes a byte of PRG, whatever it runs (R67, R408). -/
def Obligations.ProgramStorageIsReadOnly : Prop :=
  ∀ s t : State, s.params.romWriteMode = .registerLoad → step s = .next t →
    t.prg = s.prg ∧ t.params = s.params

/-- No instruction raises, withdraws or delays a request, touches CHR or changes a parameter, and none but PLP and RTI
changes P.U or P.B (R36, R37, R61, R365, R377). -/
def Obligations.InstructionsLeaveControlsAlone : Prop :=
  ∀ (i : Instr) (s t : State), exec i s = .next t →
    SameControls s t ∧ (i ≠ .plp → i ≠ .rti → t.flag .u = s.flag .u ∧ t.flag .b = s.flag .b)

/-! ### Interrupts -/

/-- Which request S2 services (R366): NMI first, IRQ only while P.I = 0, and the serviced request is cleared. -/
def Obligations.InterruptSelection : Prop :=
  ∀ s : State,
    (s.nmiPending = true →
      serviceInterrupt s = enter 0xFFFA#16 s.params.hwIntPushB { s with nmiPending := false } ∧
      (serviceInterrupt s).nmiPending = false ∧ (serviceInterrupt s).irqPending = s.irqPending) ∧
    (s.nmiPending = false → s.irqPending = true → s.flag .i = false →
      serviceInterrupt s = enter 0xFFFE#16 s.params.hwIntPushB { s with irqPending := false } ∧
      (serviceInterrupt s).irqPending = false) ∧
    (s.nmiPending = false → (s.irqPending = false ∨ s.flag .i = true) → serviceInterrupt s = s)

/-- Taking an interrupt (R368): the return address high byte first, the flags with the break bit forced, P.I, the vector,
7 cycles, and nothing else. -/
def Obligations.InterruptEntry : Prop :=
  ∀ (s : State) (vector : Word) (b : Bool), MemoryOk s → (vector = 0xFFFA#16 ∨ vector = 0xFFFE#16) →
    let t := enter vector b s
    Pushed [hi s.pc, lo s.pc, (s.p &&& 0xCF#8) ||| 0x20#8 ||| (if b then 0x10#8 else 0x00#8)] s t ∧
    t.flag .i = true ∧ FlagsSameBut [.i] s t ∧ t.pc = vectorWord s vector ∧ t.cycles = s.cycles + 7#64 ∧
    SameAXY s t

/-- `NMI()` only sets its latch, repeated calls collapse, and the next step that is not stalled services the request
whatever P.I holds (R363). -/
def Obligations.NmiCannotBeMasked : Prop :=
  ∀ s : State,
    hostNmi s = { s with nmiPending := true } ∧ hostNmi (hostNmi s) = hostNmi s ∧
    ∀ t, s.nmiPending = true → s.stall = 0 → step s = .next t →
      t.nmiPending = false ∧ t.irqPending = s.irqPending ∧
      step s = exec (fetch (enter 0xFFFA#16 s.params.hwIntPushB { s with nmiPending := false })).1
        (fetch (enter 0xFFFA#16 s.params.hwIntPushB { s with nmiPending := false })).2

/-- `IRQ()` only sets its latch; a masked IRQ is deferred and not dropped; only its service and `Reset()` clear it
(R364). -/
def Obligations.MaskedIrqIsDeferred : Prop :=
  ∀ s : State,
    hostIrq s = { s with irqPending := true } ∧
    (∀ t, s.irqPending = true → s.flag .i = true → step s = .next t → t.irqPending = true) ∧
    (∀ t, s.irqPending = true → t.irqPending = false → step s = .next t →
      s.stall = 0 ∧ s.nmiPending = false ∧ s.flag .i = false) ∧
    (hostReset s).irqPending = false

/-- Returning from an interrupt entry restores P (U set, B clear), PC and SP (R373). -/
def Obligations.ReturnAfterEntry : Prop :=
  ∀ (s : State) (vector : Word) (b : Bool), MemoryOk s → FlagsOk s → (vector = 0xFFFA#16 ∨ vector = 0xFFFE#16) →
    ∃ t, exec .rti (enter vector b s) = .next t ∧ t.pc = s.pc ∧ t.p = s.p ∧ t.sp = s.sp ∧ SameAXY s t

/-! ### Reset, power-on and the host's accessors -/

/-- What `Reset()` does (R400) and what it leaves alone (R401); a second call has the same effect (R403). -/
def Obligations.ResetProcedure : Prop :=
  ∀ s : State,
    let t := hostReset s
    t.a = 0x00#8 ∧ t.x = 0x00#8 ∧ t.y = 0x00#8 ∧ t.sp = 0xFD#8 ∧ t.p = 0x24#8 ∧
    t.nmiPending = false ∧ t.irqPending = false ∧ t.cycles = 0#64 ∧ t.stall = 0 ∧ t.lastBranch = none ∧
    t.pc = vectorWord s 0xFFFC#16 ∧
    SameBytes s t ∧ SameMapper s t ∧ t.params = s.params ∧ t.events = s.events ∧ hostReset t = t

/-- The mapper's power-on state, its offsets, and that `Reset()` leaves both (R90). -/
def Obligations.MapperPowerOnState : Prop :=
  ∀ (p : Params) (r g c : List Host.Cell) (t : State), load p r g c = .next t →
    ∀ u, (u = t ∨ u = hostReset t) →
      u.shift = 0x10#5 ∧ u.control = 0x0C#5 ∧ u.chrBank0 = 0#5 ∧ u.chrBank1 = 0#5 ∧ u.prgBank = 0#5 ∧
      prgOff0 u = 0 ∧ prgOff1 u = (p.prgSize / 16384 - 1) * 16384

/-- Loading is refused exactly when the sizes break the constraints (R62) or an image reaches past its size. The second
ground, and that an image is a list of (address, byte) pairs, are the model's choice (assumption 19). -/
def Obligations.LoadChecksSizes : Prop :=
  ∀ (p : Params) (r g c : List Host.Cell),
    ((∃ t, load p r g c = .next t) ↔
      (0 < p.prgSize ∧ p.prgSize % 16384 = 0 ∧ p.chrSize % 4096 = 0 ∧
        (∀ e ∈ r, e.1 < 2048) ∧ (∀ e ∈ g, e.1 < p.prgSize) ∧ (∀ e ∈ c, e.1 < p.chrSize))) ∧
    ((¬ ∃ t, load p r g c = .next t) → load p r g c = .refused .badConfiguration)

/-- A host `Write` to $8000-$FFFF stores one byte into PRG in every mode and changes nothing else of the state; elsewhere
the host accessors are the CPU's (R68). -/
def Obligations.HostWritePlacesBytes : Prop :=
  ∀ (s : State) (a : Word) (v : Byte), MemoryOk s →
    hostRead a s = memRead a s ∧
    (a < 0x8000#16 → hostWrite a v s = memWrite a v s) ∧
    (0x8000#16 ≤ a →
      let t := hostWrite a v s
      t = { s with prg := t.prg } ∧ t.peek a = v ∧ t.prg.read (prgIndex s a) = v ∧
      ∀ k, k ≠ prgIndex s a → t.prg.read k = s.prg.read k)

/-- The bank-aware accessors (R69, R78): where they read, inside the storage; that a write is read back and changes
nothing else of the state; the abort of a CHR access without CHR, which records the accessor and its address (R361); and
that no CPU address of $8000-$FFFF reaches past PRG. -/
def Obligations.BankAwareAccess : Prop :=
  ∀ (s : State) (bank : Int) (off : Word) (v : Byte), MemoryOk s → s.params.valid = true →
    let n : Int := (s.params.prgSize / 16384 : Nat)
    let m : Int := (s.params.chrSize / 4096 : Nat)
    let k := (bank % n).toNat * 16384 + off.toNat % 16384
    let q := (bank % m).toNat * 4096 + off.toNat % 4096
    let u := writeBankPrg bank off v s
    k < s.params.prgSize ∧ readBankPrg bank off s = s.prg.read k ∧
    u = { s with prg := u.prg } ∧ readBankPrg bank off u = v ∧ (∀ j, j ≠ k → u.prg.read j = s.prg.read j) ∧
    (s.params.chrSize = 0 →
      readBankChr bank off s = .fault (.storageBounds .readBank bank off) ∧
      writeBankChr bank off v s = .fault (.storageBounds .writeBank bank off)) ∧
    (s.params.chrSize ≠ 0 →
      q < s.params.chrSize ∧ readBankChr bank off s = .next (s.chr.read q) ∧
      ∃ t, writeBankChr bank off v s = .next t ∧ t = { s with chr := t.chr } ∧ readBankChr bank off t = .next v ∧
        ∀ j, j ≠ q → t.chr.read j = s.chr.read j) ∧
    ∀ a : Word, 0x8000#16 ≤ a → prgIndex s a < s.params.prgSize

/-! ### Memory and mapper -/

/-- Work RAM (R64): the initial content, a write seen through all four addresses of its byte, and every other byte and
`Reset()` leaving it alone. -/
def Obligations.WorkRamIsMirrored : Prop :=
  (∀ (p : Params) (r g c : Memory) (a : Word), a < 0x2000#16 →
    (State.powerOn p r g c).peek a = r.read (a.toNat % 2048)) ∧
  ∀ (s : State) (a : Word) (v : Byte), MemoryOk s → a < 0x2000#16 →
    (∀ b : Word, b < 0x2000#16 → b.toNat % 2048 = a.toNat % 2048 → (memWrite a v s).peek b = v) ∧
    (∀ b : Word, b < 0x2000#16 → b.toNat % 2048 ≠ a.toNat % 2048 → (memWrite a v s).peek b = s.peek b) ∧
    (hostReset s).peek a = s.peek a

/-- Reads and external writes (R65, R75): a read outside the external region changes nothing, so that repeating it gives
the same byte; each read inside it is a draw, and a write there changes no CORE state. That the draws are numbered by
`extReads` (assumption 4) and that a write is recorded in `events` (assumption 6) is the model's choice. -/
def Obligations.ExternalRegion : Prop :=
  ∀ (s : State) (a : Word) (v : Byte),
    (isExternal a = true ↔ (0x2000#16 ≤ a ∧ a < 0x8000#16)) ∧
    (isExternal a = false → (memRead a s).2 = s ∧ memRead a (memRead a s).2 = memRead a s) ∧
    (isExternal a = true →
      memRead a s = (Config.extRead s.extReads a, { s with extReads := s.extReads + 1 }) ∧
      memWrite a v s = { s with events := .extWrite a v :: s.events })

/-- What a CPU store to $8000-$FFFF does in each mode (R67): a write through the serial port (SerialPort), or one byte of
PRG and nothing else of the state. -/
def Obligations.CpuStoreToProgramSpace : Prop :=
  ∀ (s : State) (a : Word) (v : Byte), MemoryOk s → 0x8000#16 ≤ a →
    (s.params.romWriteMode = .registerLoad → memWrite a v s = serialWrite a v s ∧ (memWrite a v s).prg = s.prg) ∧
    (s.params.romWriteMode = .storageWrite →
      let t := memWrite a v s
      t = { s with prg := t.prg } ∧ t.peek a = v ∧ t.prg.read (prgIndex s a) = v ∧
      ∀ k, k ≠ prgIndex s a → t.prg.read k = s.prg.read k)

/-- One write through the serial port (R83): bit 7 resets the shift register and sets `control | 0x0C`; a write that
does not complete shifts its bit 0 in; one that completes loads the register its address selects (R84) and empties the
shift register. Five writes with bit 7 clear load the five bits, first write lowest. -/
def Obligations.SerialPort : Prop :=
  (∀ (s : State) (a : Word) (v : Byte), v.getLsbD 7 = true →
    serialWrite a v s = { s with shift := 0x10#5, control := s.control ||| 0x0C#5 }) ∧
  (∀ (s : State) (a : Word) (v : Byte), v.getLsbD 7 = false → s.shift.getLsbD 0 = false →
    serialWrite a v s =
      { s with shift := (s.shift >>> 1) ||| (if v.getLsbD 0 then 0x10#5 else 0x00#5) }) ∧
  (∀ (s : State) (a : Word) (v : Byte), v.getLsbD 7 = false → s.shift.getLsbD 0 = true → 0x8000#16 ≤ a →
    let w := (s.shift >>> 1) ||| (if v.getLsbD 0 then 0x10#5 else 0x00#5)
    let t := serialWrite a v s
    (a < 0xA000#16 → t = { s with shift := 0x10#5, control := w }) ∧
    (0xA000#16 ≤ a → a < 0xC000#16 → t = { s with shift := 0x10#5, chrBank0 := w }) ∧
    (0xC000#16 ≤ a → a < 0xE000#16 → t = { s with shift := 0x10#5, chrBank1 := w }) ∧
    (0xE000#16 ≤ a → t = { s with shift := 0x10#5, prgBank := w })) ∧
  (∀ (s : State) (a1 a2 a3 a4 a : Word) (v1 v2 v3 v4 v5 : Byte), s.shift = 0x10#5 →
    v1.getLsbD 7 = false → v2.getLsbD 7 = false → v3.getLsbD 7 = false → v4.getLsbD 7 = false →
    v5.getLsbD 7 = false → 0x8000#16 ≤ a →
    let w := fiveBits (v1.getLsbD 0) (v2.getLsbD 0) (v3.getLsbD 0) (v4.getLsbD 0) (v5.getLsbD 0)
    let t := serialWrite a v5 (serialWrite a4 v4 (serialWrite a3 v3 (serialWrite a2 v2 (serialWrite a1 v1 s))))
    (a < 0xA000#16 → t = { s with control := w }) ∧
    (0xA000#16 ≤ a → a < 0xC000#16 → t = { s with chrBank0 := w }) ∧
    (0xC000#16 ≤ a → a < 0xE000#16 → t = { s with chrBank1 := w }) ∧
    (0xE000#16 ≤ a → t = { s with prgBank := w }))

/-- Which PRG byte each window shows and where the CHR half-windows lie, for every mode and bank number (R66, R88,
R89). -/
def Obligations.BankWindows : Prop :=
  ∀ (s : State) (a : Word), s.params.valid = true →
    let n := s.params.prgSize / 16384
    let m := s.params.chrSize / 4096
    let p := s.prgBank.toNat % 16
    let mode := s.control.toNat / 4 % 4
    let c0 := s.chrBank0.toNat
    (0x8000#16 ≤ a → a < 0xC000#16 →
      (mode ≤ 1 → s.peek a = s.prg.read ((p - p % 2) % n * 16384 + a.toNat % 16384)) ∧
      (mode = 2 → s.peek a = s.prg.read (a.toNat % 16384)) ∧
      (mode = 3 → s.peek a = s.prg.read (p % n * 16384 + a.toNat % 16384))) ∧
    (0xC000#16 ≤ a →
      (mode ≤ 1 → s.peek a = s.prg.read ((p - p % 2 + 1) % n * 16384 + a.toNat % 16384)) ∧
      (mode = 2 → s.peek a = s.prg.read (p % n * 16384 + a.toNat % 16384)) ∧
      (mode = 3 → s.peek a = s.prg.read ((n - 1) * 16384 + a.toNat % 16384))) ∧
    (m = 0 → chrOff0 s = none ∧ chrOff1 s = none) ∧
    (m ≠ 0 →
      (s.control.getLsbD 4 = false →
        chrOff0 s = some ((c0 - c0 % 2) % m * 4096) ∧ chrOff1 s = some ((c0 - c0 % 2 + 1) % m * 4096)) ∧
      (s.control.getLsbD 4 = true →
        chrOff0 s = some (c0 % m * 4096) ∧ chrOff1 s = some (s.chrBank1.toNat % m * 4096)))

/-- The source's bank-switch example (R93): 0,0,1,1,0 to $8000 and 1,1,0,0,0 to $E000 show bank 3 in the low window and
the last bank in the high one; with `control[3:2]` already 3, the second five writes suffice. -/
def Obligations.MapperWorkedExample : Prop :=
  ∀ s : State, s.params.valid = true → s.params.romWriteMode = .registerLoad → s.shift = 0x10#5 →
    let n := s.params.prgSize / 16384
    (let t := writeFive 0xE000#16 true true false false false (writeFive 0x8000#16 false false true true false s)
     t.control = 0x0C#5 ∧ t.prgBank = 0x03#5 ∧ t.shift = 0x10#5 ∧
     prgOff0 t = 3 % n * 16384 ∧ prgOff1 t = (n - 1) * 16384) ∧
    (s.control.toNat / 4 % 4 = 3 →
      let t := writeFive 0xE000#16 true true false false false s
      t.control = s.control ∧ t.prgBank = 0x03#5 ∧ prgOff0 t = 3 % n * 16384 ∧ prgOff1 t = (n - 1) * 16384)

/-- The stack primitives (R16): pushes count down and pulls count up through page one, modulo 256. -/
def Obligations.StackPrimitives : Prop :=
  ∀ (s : State) (v : Byte) (w : Word), MemoryOk s →
    Pushed [v] s (push v s) ∧ Pushed [hi w, lo w] s (push16 w s) ∧
    pull s = (stackByte s 1, { s with sp := s.sp + 1#8 }) ∧
    pull16 s = (mkWord (stackByte s 2) (stackByte s 1), { s with sp := s.sp + 2#8 }) ∧
    pull16 (push16 w s) = (w, { s with ram := (push16 w s).ram })

/-! ### Effective addresses -/

/-- The effective address and the page-crossing bit of each mode (R103, R105, R106, R107, R109, R110, R111, R112), and
the operand value M (R154). `peek` outside the external region reads memory as it stands, and only the Indirect mode can
make a draw. Choices of the model: a pointer's low byte is the earlier of its two draws (assumption 9), and the
immediate operand is the fetched byte with no second read (assumption 10). -/
def Obligations.EffectiveAddresses : Prop :=
  ∀ s : State,
    (∀ w, eaOf (.abs w) s = w ∧ crossedOf (.abs w) s = false) ∧
    (∀ w, eaOf (.abx w) s = BitVec.ofNat 16 (w.toNat + s.x.toNat) ∧
      crossedOf (.abx w) s = (hi w != hi (BitVec.ofNat 16 (w.toNat + s.x.toNat)))) ∧
    (∀ w, eaOf (.aby w) s = BitVec.ofNat 16 (w.toNat + s.y.toNat) ∧
      crossedOf (.aby w) s = (hi w != hi (BitVec.ofNat 16 (w.toNat + s.y.toNat)))) ∧
    (∀ l, (eaOf (.zp l) s).toNat = l.toNat ∧ crossedOf (.zp l) s = false) ∧
    (∀ l, (eaOf (.zpx l) s).toNat = (l.toNat + s.x.toNat) % 256 ∧ crossedOf (.zpx l) s = false) ∧
    (∀ l, (eaOf (.zpy l) s).toNat = (l.toNat + s.y.toNat) % 256 ∧ crossedOf (.zpy l) s = false) ∧
    (∀ v, eaOf (.imm v) s = s.pc + 1#16 ∧ crossedOf (.imm v) s = false) ∧
    (∀ l, eaOf (.izx l) s = mkWord (s.peek (zext16 (l + s.x + 1#8))) (s.peek (zext16 (l + s.x))) ∧
      crossedOf (.izx l) s = false) ∧
    (∀ (l : Byte) (base : Word), base = mkWord (s.peek (zext16 (l + 1#8))) (s.peek (zext16 l)) →
      eaOf (.izy l) s = BitVec.ofNat 16 (base.toNat + s.y.toNat) ∧
      crossedOf (.izy l) s = (hi base != hi (BitVec.ofNat 16 (base.toNat + s.y.toNat)))) ∧
    (∀ w, eaOf (.ind w) s = mkWord ((s.touch w).peek (mkWord (hi w) (lo w + 1#8))) (s.peek w) ∧
      crossedOf (.ind w) s = false) ∧
    (∀ d, eaOf (.rel d) s = BitVec.ofInt 16 ((s.pc.toNat : Int) + 2 + d.toInt) ∧ crossedOf (.rel d) s = false) ∧
    (∀ v, operandM (.imm v) s = v) ∧ operandM .acc s = s.a ∧
    (∀ l, operandM (.zp l) s = s.peek (eaOf (.zp l) s) ∧ operandM (.zpx l) s = s.peek (eaOf (.zpx l) s) ∧
      operandM (.zpy l) s = s.peek (eaOf (.zpy l) s) ∧ operandM (.izx l) s = s.peek (eaOf (.izx l) s) ∧
      operandM (.izy l) s = s.peek (eaOf (.izy l) s)) ∧
    (∀ w, operandM (.abs w) s = s.peek (eaOf (.abs w) s) ∧ operandM (.abx w) s = s.peek (eaOf (.abx w) s) ∧
      operandM (.aby w) s = s.peek (eaOf (.aby w) s))

/-- Reads of the external region (R65, R77, R154): an instruction makes one draw for each pointer byte of the Indirect
mode and one for M where they lie there, a read-modify-write instruction one and not two, and a store, a branch, a
stack instruction or a jump to an Absolute target none. Choices of the model: the draws are counted in `extReads`
(assumption 4), and the immediate operand is the fetched byte and makes none (assumption 10). -/
def Obligations.OperandReads : Prop :=
  ∀ (i : Instr) (s t : State), exec i s = .next t → t.extReads = s.extReads + operandDraws (readsM i) i.operand s

/-! ### Loads and stores -/

/-- LDA, LDX and LDY (R171, R172, R173): encodings, result, N and Z, length, cycles, and the frame. -/
def Obligations.LoadInstructions : Prop :=
  AluCodes .lda 0xA9#8 0xA5#8 0xB5#8 0xAD#8 0xBD#8 0xB9#8 0xA1#8 0xB1#8 ∧
  (∀ l h, Codes [0xA2#8, l] (.ldx (.imm l)) ∧ Codes [0xA6#8, l] (.ldx (.zp l)) ∧ Codes [0xB6#8, l] (.ldx (.zpy l)) ∧
    Codes [0xAE#8, l, h] (.ldx (.abs (mkWord h l))) ∧ Codes [0xBE#8, l, h] (.ldx (.aby (mkWord h l)))) ∧
  (∀ l h, Codes [0xA0#8, l] (.ldy (.imm l)) ∧ Codes [0xA4#8, l] (.ldy (.zp l)) ∧ Codes [0xB4#8, l] (.ldy (.zpx l)) ∧
    Codes [0xAC#8, l, h] (.ldy (.abs (mkWord h l))) ∧ Codes [0xBC#8, l, h] (.ldy (.abx (mkWord h l)))) ∧
  (∀ (m : AluMode) (s : State), ∃ t, exec (.lda m) s = .next t ∧
    t.a = operandM m.operand s ∧ NZOf (operandM m.operand s) [] s t ∧ t.x = s.x ∧ t.y = s.y ∧ t.sp = s.sp ∧
    RestSame s t ∧ Moved (formLength m.operand) (readCost m.operand s) s t) ∧
  (∀ (m : LdxMode) (s : State), ∃ t, exec (.ldx m) s = .next t ∧
    t.x = operandM m.operand s ∧ NZOf (operandM m.operand s) [] s t ∧ t.a = s.a ∧ t.y = s.y ∧ t.sp = s.sp ∧
    RestSame s t ∧ Moved (formLength m.operand) (readCost m.operand s) s t) ∧
  (∀ (m : LdyMode) (s : State), ∃ t, exec (.ldy m) s = .next t ∧
    t.y = operandM m.operand s ∧ NZOf (operandM m.operand s) [] s t ∧ t.a = s.a ∧ t.x = s.x ∧ t.sp = s.sp ∧
    RestSame s t ∧ Moved (formLength m.operand) (readCost m.operand s) s t)

/-- STA, STX and STY (R174, R175, R176): encodings, the byte stored at the effective address, no register and no flag,
length, cycles without a page-crossing charge, and every other byte unchanged. -/
def Obligations.StoreInstructions : Prop :=
  (∀ l h, Codes [0x85#8, l] (.sta (.zp l)) ∧ Codes [0x95#8, l] (.sta (.zpx l)) ∧
    Codes [0x8D#8, l, h] (.sta (.abs (mkWord h l))) ∧ Codes [0x9D#8, l, h] (.sta (.abx (mkWord h l))) ∧
    Codes [0x99#8, l, h] (.sta (.aby (mkWord h l))) ∧ Codes [0x81#8, l] (.sta (.izx l)) ∧
    Codes [0x91#8, l] (.sta (.izy l)) ∧ Codes [0x86#8, l] (.stx (.zp l)) ∧ Codes [0x96#8, l] (.stx (.zpy l)) ∧
    Codes [0x8E#8, l, h] (.stx (.abs (mkWord h l))) ∧ Codes [0x84#8, l] (.sty (.zp l)) ∧
    Codes [0x94#8, l] (.sty (.zpx l)) ∧ Codes [0x8C#8, l, h] (.sty (.abs (mkWord h l)))) ∧
  (∀ l h, decodeOpcode 0x89#8 l h = .illegal 0x89#8) ∧
  (∀ (m : StaMode) (s : State), MemoryOk s → ∃ t, exec (.sta m) s = .next t ∧
    Stored (eaOf m.operand s) s.a s t ∧ SameRegs s t ∧ SameControls s t ∧ t.lastBranch = s.lastBranch ∧
    Moved (formLength m.operand) (storeCost m.operand) s t) ∧
  (∀ (m : StxMode) (s : State), MemoryOk s → ∃ t, exec (.stx m) s = .next t ∧
    Stored (eaOf m.operand s) s.x s t ∧ SameRegs s t ∧ SameControls s t ∧ t.lastBranch = s.lastBranch ∧
    Moved (formLength m.operand) (storeCost m.operand) s t) ∧
  (∀ (m : StyMode) (s : State), MemoryOk s → ∃ t, exec (.sty m) s = .next t ∧
    Stored (eaOf m.operand s) s.y s t ∧ SameRegs s t ∧ SameControls s t ∧ t.lastBranch = s.lastBranch ∧
    Moved (formLength m.operand) (storeCost m.operand) s t)

/-! ### Transfers and the stack -/

/-- TAX, TAY, TXA, TYA, TSX and TXS (R191 to R196): encodings, the copied byte, N and Z of it except for TXS, 2 cycles,
and the frame. -/
def Obligations.TransferInstructions : Prop :=
  (Codes [0xAA#8] .tax ∧ Codes [0xA8#8] .tay ∧ Codes [0x8A#8] .txa ∧ Codes [0x98#8] .tya ∧ Codes [0xBA#8] .tsx ∧
    Codes [0x9A#8] .txs) ∧
  ∀ s : State,
    (∃ t, exec .tax s = .next t ∧ t.x = s.a ∧ NZOf s.a [] s t ∧ t.a = s.a ∧ t.y = s.y ∧ t.sp = s.sp ∧ RestSame s t ∧
      Moved 1 2 s t) ∧
    (∃ t, exec .tay s = .next t ∧ t.y = s.a ∧ NZOf s.a [] s t ∧ t.a = s.a ∧ t.x = s.x ∧ t.sp = s.sp ∧ RestSame s t ∧
      Moved 1 2 s t) ∧
    (∃ t, exec .txa s = .next t ∧ t.a = s.x ∧ NZOf s.x [] s t ∧ t.x = s.x ∧ t.y = s.y ∧ t.sp = s.sp ∧ RestSame s t ∧
      Moved 1 2 s t) ∧
    (∃ t, exec .tya s = .next t ∧ t.a = s.y ∧ NZOf s.y [] s t ∧ t.x = s.x ∧ t.y = s.y ∧ t.sp = s.sp ∧ RestSame s t ∧
      Moved 1 2 s t) ∧
    (∃ t, exec .tsx s = .next t ∧ t.x = s.sp ∧ NZOf s.sp [] s t ∧ t.a = s.a ∧ t.y = s.y ∧ t.sp = s.sp ∧ RestSame s t ∧
      Moved 1 2 s t) ∧
    (∃ t, exec .txs s = .next t ∧ t.sp = s.x ∧ t.p = s.p ∧ SameAXY s t ∧ RestSame s t ∧ Moved 1 2 s t)

/-- PHA and PHP (R197, R198): the byte pushed, with U and B forced for PHP; P and the other registers unchanged. -/
def Obligations.PushInstructions : Prop :=
  (Codes [0x48#8] .pha ∧ Codes [0x08#8] .php) ∧
  ∀ s : State, MemoryOk s →
    (∃ t, exec .pha s = .next t ∧ Pushed [s.a] s t ∧ SameAXY s t ∧ t.p = s.p ∧ Moved 1 3 s t) ∧
    (∃ t, exec .php s = .next t ∧ Pushed [(s.p &&& 0xCF#8) ||| 0x30#8] s t ∧ SameAXY s t ∧ t.p = s.p ∧ Moved 1 3 s t)

/-- PLA and PLP (R199, R200): the byte pulled into A with N and Z, or into P with B cleared and U set. -/
def Obligations.PullInstructions : Prop :=
  (Codes [0x68#8] .pla ∧ Codes [0x28#8] .plp) ∧
  ∀ s : State,
    (∃ t, exec .pla s = .next t ∧ t.a = stackByte s 1 ∧ NZOf (stackByte s 1) [] s t ∧ t.sp = s.sp + 1#8 ∧ t.x = s.x ∧
      t.y = s.y ∧ RestSame s t ∧ Moved 1 4 s t) ∧
    (∃ t, exec .plp s = .next t ∧ t.p = (stackByte s 1 &&& 0xEF#8) ||| 0x20#8 ∧ t.flag .u = true ∧ t.flag .b = false ∧
      t.sp = s.sp + 1#8 ∧ SameAXY s t ∧ RestSame s t ∧ Moved 1 4 s t)

/-! ### Arithmetic, logic and compares -/

/-- ADC (R211): the binary sum with carry, the four flags by the exact sum, whatever P.D holds, and the frame. -/
def Obligations.AddWithCarry : Prop :=
  AluCodes .adc 0x69#8 0x65#8 0x75#8 0x6D#8 0x7D#8 0x79#8 0x61#8 0x71#8 ∧
  ∀ (m : AluMode) (s : State),
    let v := operandM m.operand s
    let sum := s.a.toNat + v.toNat + (if s.flag .c then 1 else 0)
    ∃ t, exec (.adc m) s = .next t ∧ t.a = BitVec.ofNat 8 sum ∧ t.flag .c = decide (sum > 255) ∧
      t.flag .v = (decide ((s.a ^^^ v) &&& 0x80#8 = 0#8) && decide ((s.a ^^^ t.a) &&& 0x80#8 ≠ 0#8)) ∧
      NZOf t.a [.c, .v] s t ∧ t.x = s.x ∧ t.y = s.y ∧ t.sp = s.sp ∧ RestSame s t ∧
      Moved (formLength m.operand) (readCost m.operand s) s t

/-- SBC (R212): the binary difference with borrow, the four flags, whatever P.D holds, and the frame. The equality with
ADC of the complement, which R212 infers, is in OverflowFormula. -/
def Obligations.SubtractWithBorrow : Prop :=
  AluCodes .sbc 0xE9#8 0xE5#8 0xF5#8 0xED#8 0xFD#8 0xF9#8 0xE1#8 0xF1#8 ∧
  ∀ (m : AluMode) (s : State),
    let v := operandM m.operand s
    let diff : Int := (s.a.toNat : Int) - v.toNat - (1 - (if s.flag .c then 1 else 0))
    ∃ t, exec (.sbc m) s = .next t ∧ t.a = BitVec.ofInt 8 diff ∧ t.flag .c = decide (diff ≥ 0) ∧
      t.flag .v = (decide ((s.a ^^^ v) &&& 0x80#8 ≠ 0#8) && decide ((s.a ^^^ t.a) &&& 0x80#8 ≠ 0#8)) ∧
      NZOf t.a [.c, .v] s t ∧ t.x = s.x ∧ t.y = s.y ∧ t.sp = s.sp ∧ RestSame s t ∧
      Moved (formLength m.operand) (readCost m.operand s) s t

/-- What the spec infers of ADC and SBC: the two forms of the overflow formula agree (R221), and SBC is ADC of the
complement (R212). That V is signed overflow is this statement's own reading of the formula. -/
def Obligations.OverflowFormula : Prop :=
  ∀ (v : Byte) (s : State),
    (∃ t, exec (.adc (.imm v)) s = .next t ∧ t.flag .v = ((~~~(s.a ^^^ v)) &&& (s.a ^^^ t.a)).getLsbD 7 ∧
      (t.flag .v = true ↔ t.a.toInt ≠ s.a.toInt + v.toInt + (if s.flag .c then 1 else 0))) ∧
    (∃ t, exec (.sbc (.imm v)) s = .next t ∧ t.flag .v = ((s.a ^^^ v) &&& (s.a ^^^ t.a)).getLsbD 7 ∧
      (t.flag .v = true ↔ t.a.toInt ≠ s.a.toInt - v.toInt - (if s.flag .c then 0 else 1))) ∧
    exec (.sbc (.imm v)) s = exec (.adc (.imm (v ^^^ 0xFF#8))) s

/-- P.D has no effect on ADC and SBC: flipping it before changes nothing after but itself (R38). -/
def Obligations.DecimalFlagIsInert : Prop :=
  ∀ (m : AluMode) (s : State) (d : Bool),
    (∃ t, exec (.adc m) s = .next t ∧ exec (.adc m) (s.setF .d d) = .next (t.setF .d d) ∧ t.flag .d = s.flag .d) ∧
    (∃ t, exec (.sbc m) s = .next t ∧ exec (.sbc m) (s.setF .d d) = .next (t.setF .d d) ∧ t.flag .d = s.flag .d)

/-- AND, ORA and EOR (R213, R214, R215). -/
def Obligations.LogicInstructions : Prop :=
  AluCodes .and 0x29#8 0x25#8 0x35#8 0x2D#8 0x3D#8 0x39#8 0x21#8 0x31#8 ∧
  AluCodes .ora 0x09#8 0x05#8 0x15#8 0x0D#8 0x1D#8 0x19#8 0x01#8 0x11#8 ∧
  AluCodes .eor 0x49#8 0x45#8 0x55#8 0x4D#8 0x5D#8 0x59#8 0x41#8 0x51#8 ∧
  ∀ (m : AluMode) (s : State),
    let v := operandM m.operand s
    (∃ t, exec (.and m) s = .next t ∧ t.a = s.a &&& v ∧ NZOf (s.a &&& v) [] s t ∧ t.x = s.x ∧ t.y = s.y ∧ t.sp = s.sp ∧
      RestSame s t ∧ Moved (formLength m.operand) (readCost m.operand s) s t) ∧
    (∃ t, exec (.ora m) s = .next t ∧ t.a = s.a ||| v ∧ NZOf (s.a ||| v) [] s t ∧ t.x = s.x ∧ t.y = s.y ∧ t.sp = s.sp ∧
      RestSame s t ∧ Moved (formLength m.operand) (readCost m.operand s) s t) ∧
    (∃ t, exec (.eor m) s = .next t ∧ t.a = s.a ^^^ v ∧ NZOf (s.a ^^^ v) [] s t ∧ t.x = s.x ∧ t.y = s.y ∧ t.sp = s.sp ∧
      RestSame s t ∧ Moved (formLength m.operand) (readCost m.operand s) s t)

/-- BIT (R216): Z from `A & M`, V and N from M, and nothing else. -/
def Obligations.BitTest : Prop :=
  (∀ l h, Codes [0x24#8, l] (.bit (.zp l)) ∧ Codes [0x2C#8, l, h] (.bit (.abs (mkWord h l)))) ∧
  ∀ (m : BitMode) (s : State),
    let v := operandM m.operand s
    ∃ t, exec (.bit m) s = .next t ∧ t.flag .z = decide (s.a &&& v = 0#8) ∧ t.flag .v = v.getLsbD 6 ∧
      t.flag .n = v.getLsbD 7 ∧ FlagsSameBut [.z, .v, .n] s t ∧ SameAXY s t ∧ t.sp = s.sp ∧ RestSame s t ∧
      Moved (formLength m.operand) (readCost m.operand s) s t

/-- CMP, CPX and CPY (R217, R218, R219): unsigned comparison in C, equality in Z, the difference's bit 7 in N, V and
every register unchanged. -/
def Obligations.CompareInstructions : Prop :=
  AluCodes .cmp 0xC9#8 0xC5#8 0xD5#8 0xCD#8 0xDD#8 0xD9#8 0xC1#8 0xD1#8 ∧
  CpCodes .cpx 0xE0#8 0xE4#8 0xEC#8 ∧ CpCodes .cpy 0xC0#8 0xC4#8 0xCC#8 ∧
  (∀ (m : AluMode) (s : State),
    let v := operandM m.operand s
    ∃ t, exec (.cmp m) s = .next t ∧ t.flag .c = decide (v.toNat ≤ s.a.toNat) ∧ t.flag .z = decide (s.a = v) ∧
      t.flag .n = (s.a - v).getLsbD 7 ∧ FlagsSameBut [.c, .z, .n] s t ∧ SameAXY s t ∧ t.sp = s.sp ∧ RestSame s t ∧
      Moved (formLength m.operand) (readCost m.operand s) s t) ∧
  (∀ (m : CpMode) (s : State),
    let v := operandM m.operand s
    (∃ t, exec (.cpx m) s = .next t ∧ t.flag .c = decide (v.toNat ≤ s.x.toNat) ∧ t.flag .z = decide (s.x = v) ∧
      t.flag .n = (s.x - v).getLsbD 7 ∧ FlagsSameBut [.c, .z, .n] s t ∧ SameAXY s t ∧ t.sp = s.sp ∧ RestSame s t ∧
      Moved (formLength m.operand) (readCost m.operand s) s t) ∧
    (∃ t, exec (.cpy m) s = .next t ∧ t.flag .c = decide (v.toNat ≤ s.y.toNat) ∧ t.flag .z = decide (s.y = v) ∧
      t.flag .n = (s.y - v).getLsbD 7 ∧ FlagsSameBut [.c, .z, .n] s t ∧ SameAXY s t ∧ t.sp = s.sp ∧ RestSame s t ∧
      Moved (formLength m.operand) (readCost m.operand s) s t))

/-! ### Increment, decrement, shift and rotate -/

/-- INC and DEC (R241, R242): one read and one write of the byte at the effective address, N and Z, C and V unchanged. -/
def Obligations.MemoryIncrement : Prop :=
  RmwCodes .inc 0xE6#8 0xF6#8 0xEE#8 0xFE#8 ∧ RmwCodes .dec 0xC6#8 0xD6#8 0xCE#8 0xDE#8 ∧
  ∀ (m : RmwMode) (s : State), MemoryOk s →
    let v := operandM m.operand s
    (∃ t, exec (.inc m) s = .next t ∧ Stored (eaOf m.operand s) (v + 1#8) s t ∧ NZOf (v + 1#8) [] s t ∧ SameAXY s t ∧
      t.sp = s.sp ∧ SameControls s t ∧ t.lastBranch = s.lastBranch ∧
      Moved (formLength m.operand) (rmwCost m.operand) s t) ∧
    (∃ t, exec (.dec m) s = .next t ∧ Stored (eaOf m.operand s) (v - 1#8) s t ∧ NZOf (v - 1#8) [] s t ∧ SameAXY s t ∧
      t.sp = s.sp ∧ SameControls s t ∧ t.lastBranch = s.lastBranch ∧
      Moved (formLength m.operand) (rmwCost m.operand) s t)

/-- INX, INY, DEX and DEY (R243 to R246): modulo 256, N and Z, C and V unchanged, 2 cycles. -/
def Obligations.IndexIncrement : Prop :=
  (Codes [0xE8#8] .inx ∧ Codes [0xC8#8] .iny ∧ Codes [0xCA#8] .dex ∧ Codes [0x88#8] .dey) ∧
  ∀ s : State,
    (∃ t, exec .inx s = .next t ∧ t.x = s.x + 1#8 ∧ NZOf (s.x + 1#8) [] s t ∧ t.a = s.a ∧ t.y = s.y ∧ t.sp = s.sp ∧
      RestSame s t ∧ Moved 1 2 s t) ∧
    (∃ t, exec .iny s = .next t ∧ t.y = s.y + 1#8 ∧ NZOf (s.y + 1#8) [] s t ∧ t.a = s.a ∧ t.x = s.x ∧ t.sp = s.sp ∧
      RestSame s t ∧ Moved 1 2 s t) ∧
    (∃ t, exec .dex s = .next t ∧ t.x = s.x - 1#8 ∧ NZOf (s.x - 1#8) [] s t ∧ t.a = s.a ∧ t.y = s.y ∧ t.sp = s.sp ∧
      RestSame s t ∧ Moved 1 2 s t) ∧
    (∃ t, exec .dey s = .next t ∧ t.y = s.y - 1#8 ∧ NZOf (s.y - 1#8) [] s t ∧ t.a = s.a ∧ t.x = s.x ∧ t.sp = s.sp ∧
      RestSame s t ∧ Moved 1 2 s t)

/-- ASL, LSR, ROL and ROR (R247 to R250): encodings; on the accumulator the result in A; on memory one read and one
write of the byte at the effective address; the bit shifted out in C, N and Z, length and cycles. -/
def Obligations.ShiftInstructions : Prop :=
  ShiftCodes .asl 0x0A#8 0x06#8 0x16#8 0x0E#8 0x1E#8 ∧ ShiftCodes .lsr 0x4A#8 0x46#8 0x56#8 0x4E#8 0x5E#8 ∧
  ShiftCodes .rol 0x2A#8 0x26#8 0x36#8 0x2E#8 0x3E#8 ∧ ShiftCodes .ror 0x6A#8 0x66#8 0x76#8 0x6E#8 0x7E#8 ∧
  (∀ s : State,
    let c := s.flag .c
    (∃ t, exec (.asl .acc) s = .next t ∧ t.a = s.a <<< 1 ∧ t.flag .c = s.a.getLsbD 7 ∧ NZOf (s.a <<< 1) [.c] s t ∧
      t.x = s.x ∧ t.y = s.y ∧ t.sp = s.sp ∧ RestSame s t ∧ Moved 1 2 s t) ∧
    (∃ t, exec (.lsr .acc) s = .next t ∧ t.a = s.a >>> 1 ∧ t.flag .c = s.a.getLsbD 0 ∧ t.flag .n = false ∧
      NZOf (s.a >>> 1) [.c] s t ∧ t.x = s.x ∧ t.y = s.y ∧ t.sp = s.sp ∧ RestSame s t ∧ Moved 1 2 s t) ∧
    (∃ t, exec (.rol .acc) s = .next t ∧ t.a = (s.a <<< 1) ||| (if c then 0x01#8 else 0x00#8) ∧
      t.flag .c = s.a.getLsbD 7 ∧ NZOf t.a [.c] s t ∧
      t.x = s.x ∧ t.y = s.y ∧ t.sp = s.sp ∧ RestSame s t ∧ Moved 1 2 s t) ∧
    (∃ t, exec (.ror .acc) s = .next t ∧ t.a = (s.a >>> 1) ||| (if c then 0x80#8 else 0x00#8) ∧
      t.flag .c = s.a.getLsbD 0 ∧ t.flag .n = c ∧ NZOf t.a [.c] s t ∧
      t.x = s.x ∧ t.y = s.y ∧ t.sp = s.sp ∧ RestSame s t ∧ Moved 1 2 s t)) ∧
  ∀ (m : ShiftMode) (s : State), MemoryOk s → m ≠ .acc →
    let v := operandM m.operand s
    let left := (v <<< 1) ||| (if s.flag .c then 0x01#8 else 0x00#8)
    let right := (v >>> 1) ||| (if s.flag .c then 0x80#8 else 0x00#8)
    (∃ t, exec (.asl m) s = .next t ∧ Stored (eaOf m.operand s) (v <<< 1) s t ∧ t.flag .c = v.getLsbD 7 ∧
      NZOf (v <<< 1) [.c] s t ∧ SameAXY s t ∧ t.sp = s.sp ∧ SameControls s t ∧ t.lastBranch = s.lastBranch ∧
      Moved (formLength m.operand) (rmwCost m.operand) s t) ∧
    (∃ t, exec (.lsr m) s = .next t ∧ Stored (eaOf m.operand s) (v >>> 1) s t ∧ t.flag .c = v.getLsbD 0 ∧
      t.flag .n = false ∧ NZOf (v >>> 1) [.c] s t ∧ SameAXY s t ∧ t.sp = s.sp ∧ SameControls s t ∧
      t.lastBranch = s.lastBranch ∧ Moved (formLength m.operand) (rmwCost m.operand) s t) ∧
    (∃ t, exec (.rol m) s = .next t ∧ Stored (eaOf m.operand s) left s t ∧ t.flag .c = v.getLsbD 7 ∧
      NZOf left [.c] s t ∧ SameAXY s t ∧ t.sp = s.sp ∧ SameControls s t ∧ t.lastBranch = s.lastBranch ∧
      Moved (formLength m.operand) (rmwCost m.operand) s t) ∧
    (∃ t, exec (.ror m) s = .next t ∧ Stored (eaOf m.operand s) right s t ∧ t.flag .c = v.getLsbD 0 ∧
      NZOf right [.c] s t ∧ SameAXY s t ∧ t.sp = s.sp ∧ SameControls s t ∧ t.lastBranch = s.lastBranch ∧
      Moved (formLength m.operand) (rmwCost m.operand) s t)

/-! ### Control transfer -/

/-- The eight conditional branches (R260 to R269): encodings, conditions, targets, cycles and frame, in every state where
the watchdog does not abort. -/
def Obligations.ConditionalBranches : Prop :=
  ∀ (d : Byte) (s : State),
    (Codes [0x90#8, d] (.bcc d) ∧ Codes [0xB0#8, d] (.bcs d) ∧ Codes [0xF0#8, d] (.beq d) ∧ Codes [0x30#8, d] (.bmi d) ∧
      Codes [0xD0#8, d] (.bne d) ∧ Codes [0x10#8, d] (.bpl d) ∧ Codes [0x50#8, d] (.bvc d) ∧
      Codes [0x70#8, d] (.bvs d)) ∧
    BranchCompletes (.bcc d) d (!s.flag .c) s ∧ BranchCompletes (.bcs d) d (s.flag .c) s ∧
    BranchCompletes (.beq d) d (s.flag .z) s ∧ BranchCompletes (.bmi d) d (s.flag .n) s ∧
    BranchCompletes (.bne d) d (!s.flag .z) s ∧ BranchCompletes (.bpl d) d (!s.flag .n) s ∧
    BranchCompletes (.bvc d) d (!s.flag .v) s ∧ BranchCompletes (.bvs d) d (s.flag .v) s

/-- The watchdog (R270): with `SELF_LOOP_ABORT`, the second consecutive taken branch to itself aborts; without it every
branch completes and no watchdog state changes; other instructions leave `last_branch`, and Reset clears it. -/
def Obligations.SelfLoopWatchdog : Prop :=
  ∀ (i : Instr) (s : State),
    ((∃ d, i.operand = .rel d) → s.params.selfLoopAbort = true → branchTaken i s = true → eaOf i.operand s = s.pc →
      s.lastBranch = some (s.pc, s.pc) → exec i s = .fault (.selfLoop s.pc)) ∧
    (s.params.selfLoopAbort = false → ∃ t, exec i s = .next t ∧ t.lastBranch = s.lastBranch) ∧
    ((∀ d, i.operand ≠ .rel d) → ∃ t, exec i s = .next t ∧ t.lastBranch = s.lastBranch) ∧
    (hostReset s).lastBranch = none

/-- JMP (R271): both forms, the Indirect one with the page-wrapping pointer read (R108, R109), and the source's example.
That the pointer's low byte is the earlier of its two draws is the model's choice (assumption 9). -/
def Obligations.JumpInstruction : Prop :=
  (∀ l h, Codes [0x4C#8, l, h] (.jmp (.abs (mkWord h l))) ∧ Codes [0x6C#8, l, h] (.jmp (.ind (mkWord h l)))) ∧
  (∀ (w : Word) (s : State),
    (∃ t, exec (.jmp (.abs w)) s = .next t ∧ t.pc = w ∧ t.cycles = s.cycles + 3#64 ∧ SameRegs s t ∧ RestSame s t) ∧
    (∃ t, exec (.jmp (.ind w)) s = .next t ∧
      t.pc = mkWord ((s.touch w).peek (mkWord (hi w) (lo w + 1#8))) (s.peek w) ∧ t.cycles = s.cycles + 5#64 ∧
      SameRegs s t ∧ RestSame s t)) ∧
  (∀ s : State, s.peek 0x10FF#16 = 0x12#8 → s.peek 0x1000#16 = 0x34#8 →
    ∃ t, exec (.jmp (.ind 0x10FF#16)) s = .next t ∧ t.pc = 0x3412#16)

/-- JSR and RTS (R272, R273): JSR pushes the address of its last byte, high byte first, and jumps; RTS pulls an address,
low byte first, and continues one past it. -/
def Obligations.SubroutineInstructions : Prop :=
  (∀ l h, Codes [0x20#8, l, h] (.jsr (mkWord h l))) ∧ Codes [0x60#8] .rts ∧
  (∀ (w : Word) (s : State), MemoryOk s →
    ∃ t, exec (.jsr w) s = .next t ∧ Pushed [hi (s.pc + 2#16), lo (s.pc + 2#16)] s t ∧ t.pc = w ∧
      t.cycles = s.cycles + 6#64 ∧ SameAXY s t ∧ t.p = s.p) ∧
  (∀ s : State, ∃ t, exec .rts s = .next t ∧ t.pc = mkWord (stackByte s 2) (stackByte s 1) + 1#16 ∧
    t.sp = s.sp + 2#8 ∧ t.cycles = s.cycles + 6#64 ∧ SameAXY s t ∧ t.p = s.p ∧ RestSame s t)

/-- A call and its return meet: RTS run in a subroutine whose stack is as JSR left it goes on right after the JSR, with
SP as before the call (R272, R273). -/
def Obligations.CallThenReturn : Prop :=
  ∀ (w : Word) (s : State), MemoryOk s → ∃ t u, exec (.jsr w) s = .next t ∧ exec .rts t = .next u ∧
    u.pc = s.pc + 3#16 ∧ u.sp = s.sp ∧ SameAXY s u ∧ u.p = s.p ∧ u.cycles = s.cycles + 12#64

/-- BRK (R274): pushes the address after its padding byte and the flags with B and U set, sets I alone, and goes
through the IRQ vector; it runs whatever P.I holds. -/
def Obligations.SoftwareInterrupt : Prop :=
  (∀ pad, Codes [0x00#8, pad] .brk) ∧
  ∀ s : State, MemoryOk s →
    ∃ t, exec .brk s = .next t ∧ Pushed [hi (s.pc + 2#16), lo (s.pc + 2#16), (s.p &&& 0xCF#8) ||| 0x30#8] s t ∧
      t.flag .i = true ∧ FlagsSameBut [.i] s t ∧ t.pc = vectorWord s 0xFFFE#16 ∧ t.cycles = s.cycles + 7#64 ∧
      SameAXY s t

/-- RTI (R275): pulls P with B cleared and U set, then PC, with no 1 added. -/
def Obligations.ReturnFromInterrupt : Prop :=
  Codes [0x40#8] .rti ∧
  ∀ s : State, ∃ t, exec .rti s = .next t ∧ t.p = (stackByte s 1 &&& 0xEF#8) ||| 0x20#8 ∧
    t.pc = mkWord (stackByte s 3) (stackByte s 2) ∧ t.sp = s.sp + 3#8 ∧ t.cycles = s.cycles + 6#64 ∧ SameAXY s t ∧
    RestSame s t

/-! ### Flag instructions, NOP and illegal opcodes -/

/-- CLC, CLD, CLI, CLV, SEC, SED, SEI and NOP (R291 to R298): encodings, the one flag each writes, 2 cycles, and
nothing else. -/
def Obligations.FlagInstructions : Prop :=
  (Codes [0x18#8] .clc ∧ Codes [0xD8#8] .cld ∧ Codes [0x58#8] .cli ∧ Codes [0xB8#8] .clv ∧ Codes [0x38#8] .sec ∧
    Codes [0xF8#8] .sed ∧ Codes [0x78#8] .sei ∧ Codes [0xEA#8] .nop) ∧
  ∀ s : State,
    (∀ (i : Instr) (f : Flag) (v : Bool),
      (i, f, v) ∈ [(.clc, .c, false), (.cld, .d, false), (.cli, .i, false), (.clv, .v, false), (.sec, .c, true),
        (.sed, .d, true), (.sei, .i, true)] →
      ∃ t, exec i s = .next t ∧ t.flag f = v ∧ FlagsSameBut [f] s t ∧ SameAXY s t ∧ t.sp = s.sp ∧ RestSame s t ∧
        Moved 1 2 s t) ∧
    (∃ t, exec .nop s = .next t ∧ SameRegs s t ∧ RestSame s t ∧ Moved 1 2 s t)

/-- An illegal opcode (R300): PC + 1, the cycles of the uninterpreted parameter, the diagnostic with the opcode's
address, and no register, flag or memory change. The step that runs it hands the diagnostic to the host. -/
def Obligations.IllegalOpcode : Prop :=
  ∀ (op : Byte) (s : State), op ∈ illegalBytes →
    ∃ t, exec (.illegal op) s = .next t ∧ t.pc = s.pc + 1#16 ∧
      t.cycles = s.cycles + BitVec.ofNat 64 (Config.illegalCycles op) ∧
      t.events = .illegalOpcode op s.pc :: s.events ∧ diagnosticOf (newEvents s t) = some (op, s.pc) ∧
      SameRegs s t ∧ SameBytes s t ∧ SameMapper s t ∧ SameControls s t ∧ t.lastBranch = s.lastBranch ∧
      t.extReads = s.extReads

/-! ### The disassembler and the assembler -/

/-- Disassembling moves the cursor past the instruction modulo 2^16 and changes no CORE state; only a read of the
external region counts as a draw (R319). -/
def Obligations.DisassemblerLeavesStateAlone : Prop :=
  ∀ (sp : Space) (cursor : Word) (s : State),
    let d := disassembleChars sp cursor s
    d.cursor = cursor + BitVec.ofNat 16 (romEntry (readSpace sp cursor s).1).advance ∧
    (∃ n, d.st = { s with extReads := n }) ∧
    ((∀ b, sp = .bank b → d.st = s) ∧
      (isExternal cursor = false → isExternal (cursor + 1#16) = false → isExternal (cursor + 2#16) = false → d.st = s))

/-- A line that fails writes no byte, leaves the cursor and changes no session table (R333). -/
def Obligations.FailingLineChangesNothing : Prop :=
  ∀ (sp : Space) (line : List Char) (cursor : Word) (ss : Session) (s : State),
    let r := assemble sp line cursor ss s
    (r.code = .unknownOpcode ∨ r.code = .invalidOperand ∨ r.code = .invalidMode) →
    r.cursor = cursor ∧ r.session = ss ∧ r.st = s

/-- Assembling and resolving fixups write bytes and nothing else: no CPU register, flag, counter or mapper register
changes; resolving empties both fixup tables and keeps the labels (R331, R350). -/
def Obligations.AssemblerTouchesBytesOnly : Prop :=
  ∀ (sp : Space) (line : List Char) (cursor : Word) (ss : Session) (s : State),
    (let t := (assemble sp line cursor ss s).st
     SameRegs s t ∧ t.pc = s.pc ∧ t.cycles = s.cycles ∧ SameMapper s t ∧ SameControls s t ∧
     t.lastBranch = s.lastBranch) ∧
    (let r := applyFixups ss s
     SameRegs s r.2.2 ∧ r.2.2.pc = s.pc ∧ r.2.2.cycles = s.cycles ∧ SameMapper s r.2.2 ∧ SameControls s r.2.2 ∧
     r.2.1.codeFixups = [] ∧ r.2.1.dataFixups = [] ∧ r.2.1.labels = ss.labels)
end

