-- ==== Sys2Proof/Laws/Decode.lean ====
section
/-! SUPPORT. What the decoder does with each opcode byte: the illegal set, the operand bytes a decoding depends on,
and that the encoder's opcode leads back to the instruction. -/

namespace Sys2Proof.Machine

/-- The ROM's illegal entries are the bytes rule R123 lists. -/
theorem illegal_bytes_agree : ∀ op : Byte, illegalBytes.contains op = isIllegal op := by decide +kernel

/-- The ROM's mode and mnemonic of an illegal byte (R118, R123). -/
theorem romEntry_of_isIllegal : ∀ op : Byte, isIllegal op = true → romEntry op = ill := by decide +kernel

theorem decodeOpcode_of_isIllegal (op l h : Byte) (hi : isIllegal op = true) : decodeOpcode op l h = .illegal op := by
  unfold decodeOpcode
  rw [romEntry_of_isIllegal op hi]
  rfl

/-- The mnemonic has the mode, whatever the operand bytes. -/
def hasMode (n : Mnemonic) (m : Mode) : Bool := (build n m 0#8 0#8).isSome

/-- Every legal entry of the ROM is a form of its mnemonic (R122). -/
theorem hasMode_of_legal : ∀ op : Byte, isIllegal op = false → hasMode (romEntry op).mnemonic (romEntry op).mode = true := by
  decide +kernel

/-! A form is decoded from the operand bytes its mode reads, and from nothing else (R101). -/

theorem aluMode_congr {m : Mode} {l h l' h' : Byte} (hl : 1 ≤ operandBytes m → l = l')
    (hh : 2 ≤ operandBytes m → h = h') : aluMode m l h = aluMode m l' h' := by
  cases m <;> first | rfl | (rw [hl (by decide)]; rfl) | (rw [hl (by decide), hh (by decide)])

theorem staMode_congr {m : Mode} {l h l' h' : Byte} (hl : 1 ≤ operandBytes m → l = l')
    (hh : 2 ≤ operandBytes m → h = h') : staMode m l h = staMode m l' h' := by
  cases m <;> first | rfl | (rw [hl (by decide)]; rfl) | (rw [hl (by decide), hh (by decide)])

theorem ldxMode_congr {m : Mode} {l h l' h' : Byte} (hl : 1 ≤ operandBytes m → l = l')
    (hh : 2 ≤ operandBytes m → h = h') : ldxMode m l h = ldxMode m l' h' := by
  cases m <;> first | rfl | (rw [hl (by decide)]; rfl) | (rw [hl (by decide), hh (by decide)])

theorem ldyMode_congr {m : Mode} {l h l' h' : Byte} (hl : 1 ≤ operandBytes m → l = l')
    (hh : 2 ≤ operandBytes m → h = h') : ldyMode m l h = ldyMode m l' h' := by
  cases m <;> first | rfl | (rw [hl (by decide)]; rfl) | (rw [hl (by decide), hh (by decide)])

theorem stxMode_congr {m : Mode} {l h l' h' : Byte} (hl : 1 ≤ operandBytes m → l = l')
    (hh : 2 ≤ operandBytes m → h = h') : stxMode m l h = stxMode m l' h' := by
  cases m <;> first | rfl | (rw [hl (by decide)]; rfl) | (rw [hl (by decide), hh (by decide)])

theorem styMode_congr {m : Mode} {l h l' h' : Byte} (hl : 1 ≤ operandBytes m → l = l')
    (hh : 2 ≤ operandBytes m → h = h') : styMode m l h = styMode m l' h' := by
  cases m <;> first | rfl | (rw [hl (by decide)]; rfl) | (rw [hl (by decide), hh (by decide)])

theorem cpMode_congr {m : Mode} {l h l' h' : Byte} (hl : 1 ≤ operandBytes m → l = l')
    (hh : 2 ≤ operandBytes m → h = h') : cpMode m l h = cpMode m l' h' := by
  cases m <;> first | rfl | (rw [hl (by decide)]; rfl) | (rw [hl (by decide), hh (by decide)])

theorem bitMode_congr {m : Mode} {l h l' h' : Byte} (hl : 1 ≤ operandBytes m → l = l')
    (hh : 2 ≤ operandBytes m → h = h') : bitMode m l h = bitMode m l' h' := by
  cases m <;> first | rfl | (rw [hl (by decide)]; rfl) | (rw [hl (by decide), hh (by decide)])

theorem rmwMode_congr {m : Mode} {l h l' h' : Byte} (hl : 1 ≤ operandBytes m → l = l')
    (hh : 2 ≤ operandBytes m → h = h') : rmwMode m l h = rmwMode m l' h' := by
  cases m <;> first | rfl | (rw [hl (by decide)]; rfl) | (rw [hl (by decide), hh (by decide)])

theorem shiftMode_congr {m : Mode} {l h l' h' : Byte} (hl : 1 ≤ operandBytes m → l = l')
    (hh : 2 ≤ operandBytes m → h = h') : shiftMode m l h = shiftMode m l' h' := by
  cases m <;> first | rfl | (rw [hl (by decide)]; rfl) | (rw [hl (by decide), hh (by decide)])

theorem jmpMode_congr {m : Mode} {l h l' h' : Byte} (hl : 1 ≤ operandBytes m → l = l')
    (hh : 2 ≤ operandBytes m → h = h') : jmpMode m l h = jmpMode m l' h' := by
  cases m <;> first | rfl | (rw [hl (by decide), hh (by decide)])

/-- A mode without operand bytes is decoded from the opcode alone, and one with a single operand byte from byte 1. -/
theorem build_congr {n : Mnemonic} {m : Mode} {l h l' h' : Byte} (hl : 1 ≤ operandBytes m → l = l')
    (hh : 2 ≤ operandBytes m → h = h') (hb : n = .jsr → 2 ≤ operandBytes m)
    (hr : n = .bcc ∨ n = .bcs ∨ n = .beq ∨ n = .bmi ∨ n = .bne ∨ n = .bpl ∨ n = .bvc ∨ n = .bvs → 1 ≤ operandBytes m) :
    build n m l h = build n m l' h' := by
  cases n
  case lda => simp only [build]; rw [aluMode_congr hl hh]
  case adc => simp only [build]; rw [aluMode_congr hl hh]
  case sbc => simp only [build]; rw [aluMode_congr hl hh]
  case and => simp only [build]; rw [aluMode_congr hl hh]
  case ora => simp only [build]; rw [aluMode_congr hl hh]
  case eor => simp only [build]; rw [aluMode_congr hl hh]
  case cmp => simp only [build]; rw [aluMode_congr hl hh]
  case ldx => simp only [build]; rw [ldxMode_congr hl hh]
  case ldy => simp only [build]; rw [ldyMode_congr hl hh]
  case sta => simp only [build]; rw [staMode_congr hl hh]
  case stx => simp only [build]; rw [stxMode_congr hl hh]
  case sty => simp only [build]; rw [styMode_congr hl hh]
  case cpx => simp only [build]; rw [cpMode_congr hl hh]
  case cpy => simp only [build]; rw [cpMode_congr hl hh]
  case bit => simp only [build]; rw [bitMode_congr hl hh]
  case inc => simp only [build]; rw [rmwMode_congr hl hh]
  case dec => simp only [build]; rw [rmwMode_congr hl hh]
  case asl => simp only [build]; rw [shiftMode_congr hl hh]
  case lsr => simp only [build]; rw [shiftMode_congr hl hh]
  case rol => simp only [build]; rw [shiftMode_congr hl hh]
  case ror => simp only [build]; rw [shiftMode_congr hl hh]
  case jmp => simp only [build]; rw [jmpMode_congr hl hh]
  case jsr => simp only [build]; rw [hl (by have := hb rfl; omega), hh (hb rfl)]
  case bcc => simp only [build]; rw [hl (hr (by decide))]
  case bcs => simp only [build]; rw [hl (hr (by decide))]
  case beq => simp only [build]; rw [hl (hr (by decide))]
  case bmi => simp only [build]; rw [hl (hr (by decide))]
  case bne => simp only [build]; rw [hl (hr (by decide))]
  case bpl => simp only [build]; rw [hl (hr (by decide))]
  case bvc => simp only [build]; rw [hl (hr (by decide))]
  case bvs => simp only [build]; rw [hl (hr (by decide))]
  all_goals rfl

/-- JSR and the branches carry the operand bytes their modes read. -/
theorem operandBytes_of_jsr : ∀ op : Byte, (romEntry op).mnemonic = .jsr → 2 ≤ operandBytes (romEntry op).mode := by
  decide +kernel

theorem operandBytes_of_branch : ∀ op : Byte,
    (romEntry op).mnemonic = .bcc ∨ (romEntry op).mnemonic = .bcs ∨ (romEntry op).mnemonic = .beq ∨
    (romEntry op).mnemonic = .bmi ∨ (romEntry op).mnemonic = .bne ∨ (romEntry op).mnemonic = .bpl ∨
    (romEntry op).mnemonic = .bvc ∨ (romEntry op).mnemonic = .bvs → 1 ≤ operandBytes (romEntry op).mode := by
  decide +kernel

/-- Decoding looks at no byte past the operand (R101, R125). -/
theorem decodeOpcode_congr (op l h l' h' : Byte) (hl : 1 ≤ operandBytes (romEntry op).mode → l = l')
    (hh : 2 ≤ operandBytes (romEntry op).mode → h = h') : decodeOpcode op l h = decodeOpcode op l' h' := by
  unfold decodeOpcode
  rw [build_congr hl hh (operandBytes_of_jsr op) (operandBytes_of_branch op)]

end Sys2Proof.Machine
end

