-- ==== Sys2Proof/Laws/State.lean ====
section
/-! SUPPORT. What each named update of State leaves in each field: one lemma a field, true by unfolding. -/

namespace Sys2Proof.Machine

@[simp] theorem State.setA_a (s : State) (v : Byte) : (s.setA v).a = v := rfl
@[simp] theorem State.setA_x (s : State) (v : Byte) : (s.setA v).x = s.x := rfl
@[simp] theorem State.setA_y (s : State) (v : Byte) : (s.setA v).y = s.y := rfl
@[simp] theorem State.setA_sp (s : State) (v : Byte) : (s.setA v).sp = s.sp := rfl
@[simp] theorem State.setA_pc (s : State) (v : Byte) : (s.setA v).pc = s.pc := rfl
@[simp] theorem State.setA_p (s : State) (v : Byte) : (s.setA v).p = s.p := rfl
@[simp] theorem State.setA_cycles (s : State) (v : Byte) : (s.setA v).cycles = s.cycles := rfl
@[simp] theorem State.setA_stall (s : State) (v : Byte) : (s.setA v).stall = s.stall := rfl
@[simp] theorem State.setA_nmiPending (s : State) (v : Byte) : (s.setA v).nmiPending = s.nmiPending := rfl
@[simp] theorem State.setA_irqPending (s : State) (v : Byte) : (s.setA v).irqPending = s.irqPending := rfl
@[simp] theorem State.setA_lastBranch (s : State) (v : Byte) : (s.setA v).lastBranch = s.lastBranch := rfl
@[simp] theorem State.setA_ram (s : State) (v : Byte) : (s.setA v).ram = s.ram := rfl
@[simp] theorem State.setA_prg (s : State) (v : Byte) : (s.setA v).prg = s.prg := rfl
@[simp] theorem State.setA_chr (s : State) (v : Byte) : (s.setA v).chr = s.chr := rfl
@[simp] theorem State.setA_shift (s : State) (v : Byte) : (s.setA v).shift = s.shift := rfl
@[simp] theorem State.setA_control (s : State) (v : Byte) : (s.setA v).control = s.control := rfl
@[simp] theorem State.setA_chrBank0 (s : State) (v : Byte) : (s.setA v).chrBank0 = s.chrBank0 := rfl
@[simp] theorem State.setA_chrBank1 (s : State) (v : Byte) : (s.setA v).chrBank1 = s.chrBank1 := rfl
@[simp] theorem State.setA_prgBank (s : State) (v : Byte) : (s.setA v).prgBank = s.prgBank := rfl
@[simp] theorem State.setA_params (s : State) (v : Byte) : (s.setA v).params = s.params := rfl
@[simp] theorem State.setA_resetDone (s : State) (v : Byte) : (s.setA v).resetDone = s.resetDone := rfl
@[simp] theorem State.setA_extReads (s : State) (v : Byte) : (s.setA v).extReads = s.extReads := rfl
@[simp] theorem State.setA_events (s : State) (v : Byte) : (s.setA v).events = s.events := rfl

@[simp] theorem State.setX_a (s : State) (v : Byte) : (s.setX v).a = s.a := rfl
@[simp] theorem State.setX_x (s : State) (v : Byte) : (s.setX v).x = v := rfl
@[simp] theorem State.setX_y (s : State) (v : Byte) : (s.setX v).y = s.y := rfl
@[simp] theorem State.setX_sp (s : State) (v : Byte) : (s.setX v).sp = s.sp := rfl
@[simp] theorem State.setX_pc (s : State) (v : Byte) : (s.setX v).pc = s.pc := rfl
@[simp] theorem State.setX_p (s : State) (v : Byte) : (s.setX v).p = s.p := rfl
@[simp] theorem State.setX_cycles (s : State) (v : Byte) : (s.setX v).cycles = s.cycles := rfl
@[simp] theorem State.setX_stall (s : State) (v : Byte) : (s.setX v).stall = s.stall := rfl
@[simp] theorem State.setX_nmiPending (s : State) (v : Byte) : (s.setX v).nmiPending = s.nmiPending := rfl
@[simp] theorem State.setX_irqPending (s : State) (v : Byte) : (s.setX v).irqPending = s.irqPending := rfl
@[simp] theorem State.setX_lastBranch (s : State) (v : Byte) : (s.setX v).lastBranch = s.lastBranch := rfl
@[simp] theorem State.setX_ram (s : State) (v : Byte) : (s.setX v).ram = s.ram := rfl
@[simp] theorem State.setX_prg (s : State) (v : Byte) : (s.setX v).prg = s.prg := rfl
@[simp] theorem State.setX_chr (s : State) (v : Byte) : (s.setX v).chr = s.chr := rfl
@[simp] theorem State.setX_shift (s : State) (v : Byte) : (s.setX v).shift = s.shift := rfl
@[simp] theorem State.setX_control (s : State) (v : Byte) : (s.setX v).control = s.control := rfl
@[simp] theorem State.setX_chrBank0 (s : State) (v : Byte) : (s.setX v).chrBank0 = s.chrBank0 := rfl
@[simp] theorem State.setX_chrBank1 (s : State) (v : Byte) : (s.setX v).chrBank1 = s.chrBank1 := rfl
@[simp] theorem State.setX_prgBank (s : State) (v : Byte) : (s.setX v).prgBank = s.prgBank := rfl
@[simp] theorem State.setX_params (s : State) (v : Byte) : (s.setX v).params = s.params := rfl
@[simp] theorem State.setX_resetDone (s : State) (v : Byte) : (s.setX v).resetDone = s.resetDone := rfl
@[simp] theorem State.setX_extReads (s : State) (v : Byte) : (s.setX v).extReads = s.extReads := rfl
@[simp] theorem State.setX_events (s : State) (v : Byte) : (s.setX v).events = s.events := rfl

@[simp] theorem State.setY_a (s : State) (v : Byte) : (s.setY v).a = s.a := rfl
@[simp] theorem State.setY_x (s : State) (v : Byte) : (s.setY v).x = s.x := rfl
@[simp] theorem State.setY_y (s : State) (v : Byte) : (s.setY v).y = v := rfl
@[simp] theorem State.setY_sp (s : State) (v : Byte) : (s.setY v).sp = s.sp := rfl
@[simp] theorem State.setY_pc (s : State) (v : Byte) : (s.setY v).pc = s.pc := rfl
@[simp] theorem State.setY_p (s : State) (v : Byte) : (s.setY v).p = s.p := rfl
@[simp] theorem State.setY_cycles (s : State) (v : Byte) : (s.setY v).cycles = s.cycles := rfl
@[simp] theorem State.setY_stall (s : State) (v : Byte) : (s.setY v).stall = s.stall := rfl
@[simp] theorem State.setY_nmiPending (s : State) (v : Byte) : (s.setY v).nmiPending = s.nmiPending := rfl
@[simp] theorem State.setY_irqPending (s : State) (v : Byte) : (s.setY v).irqPending = s.irqPending := rfl
@[simp] theorem State.setY_lastBranch (s : State) (v : Byte) : (s.setY v).lastBranch = s.lastBranch := rfl
@[simp] theorem State.setY_ram (s : State) (v : Byte) : (s.setY v).ram = s.ram := rfl
@[simp] theorem State.setY_prg (s : State) (v : Byte) : (s.setY v).prg = s.prg := rfl
@[simp] theorem State.setY_chr (s : State) (v : Byte) : (s.setY v).chr = s.chr := rfl
@[simp] theorem State.setY_shift (s : State) (v : Byte) : (s.setY v).shift = s.shift := rfl
@[simp] theorem State.setY_control (s : State) (v : Byte) : (s.setY v).control = s.control := rfl
@[simp] theorem State.setY_chrBank0 (s : State) (v : Byte) : (s.setY v).chrBank0 = s.chrBank0 := rfl
@[simp] theorem State.setY_chrBank1 (s : State) (v : Byte) : (s.setY v).chrBank1 = s.chrBank1 := rfl
@[simp] theorem State.setY_prgBank (s : State) (v : Byte) : (s.setY v).prgBank = s.prgBank := rfl
@[simp] theorem State.setY_params (s : State) (v : Byte) : (s.setY v).params = s.params := rfl
@[simp] theorem State.setY_resetDone (s : State) (v : Byte) : (s.setY v).resetDone = s.resetDone := rfl
@[simp] theorem State.setY_extReads (s : State) (v : Byte) : (s.setY v).extReads = s.extReads := rfl
@[simp] theorem State.setY_events (s : State) (v : Byte) : (s.setY v).events = s.events := rfl

@[simp] theorem State.setSP_a (s : State) (v : Byte) : (s.setSP v).a = s.a := rfl
@[simp] theorem State.setSP_x (s : State) (v : Byte) : (s.setSP v).x = s.x := rfl
@[simp] theorem State.setSP_y (s : State) (v : Byte) : (s.setSP v).y = s.y := rfl
@[simp] theorem State.setSP_sp (s : State) (v : Byte) : (s.setSP v).sp = v := rfl
@[simp] theorem State.setSP_pc (s : State) (v : Byte) : (s.setSP v).pc = s.pc := rfl
@[simp] theorem State.setSP_p (s : State) (v : Byte) : (s.setSP v).p = s.p := rfl
@[simp] theorem State.setSP_cycles (s : State) (v : Byte) : (s.setSP v).cycles = s.cycles := rfl
@[simp] theorem State.setSP_stall (s : State) (v : Byte) : (s.setSP v).stall = s.stall := rfl
@[simp] theorem State.setSP_nmiPending (s : State) (v : Byte) : (s.setSP v).nmiPending = s.nmiPending := rfl
@[simp] theorem State.setSP_irqPending (s : State) (v : Byte) : (s.setSP v).irqPending = s.irqPending := rfl
@[simp] theorem State.setSP_lastBranch (s : State) (v : Byte) : (s.setSP v).lastBranch = s.lastBranch := rfl
@[simp] theorem State.setSP_ram (s : State) (v : Byte) : (s.setSP v).ram = s.ram := rfl
@[simp] theorem State.setSP_prg (s : State) (v : Byte) : (s.setSP v).prg = s.prg := rfl
@[simp] theorem State.setSP_chr (s : State) (v : Byte) : (s.setSP v).chr = s.chr := rfl
@[simp] theorem State.setSP_shift (s : State) (v : Byte) : (s.setSP v).shift = s.shift := rfl
@[simp] theorem State.setSP_control (s : State) (v : Byte) : (s.setSP v).control = s.control := rfl
@[simp] theorem State.setSP_chrBank0 (s : State) (v : Byte) : (s.setSP v).chrBank0 = s.chrBank0 := rfl
@[simp] theorem State.setSP_chrBank1 (s : State) (v : Byte) : (s.setSP v).chrBank1 = s.chrBank1 := rfl
@[simp] theorem State.setSP_prgBank (s : State) (v : Byte) : (s.setSP v).prgBank = s.prgBank := rfl
@[simp] theorem State.setSP_params (s : State) (v : Byte) : (s.setSP v).params = s.params := rfl
@[simp] theorem State.setSP_resetDone (s : State) (v : Byte) : (s.setSP v).resetDone = s.resetDone := rfl
@[simp] theorem State.setSP_extReads (s : State) (v : Byte) : (s.setSP v).extReads = s.extReads := rfl
@[simp] theorem State.setSP_events (s : State) (v : Byte) : (s.setSP v).events = s.events := rfl

@[simp] theorem State.setPC_a (s : State) (w : Word) : (s.setPC w).a = s.a := rfl
@[simp] theorem State.setPC_x (s : State) (w : Word) : (s.setPC w).x = s.x := rfl
@[simp] theorem State.setPC_y (s : State) (w : Word) : (s.setPC w).y = s.y := rfl
@[simp] theorem State.setPC_sp (s : State) (w : Word) : (s.setPC w).sp = s.sp := rfl
@[simp] theorem State.setPC_pc (s : State) (w : Word) : (s.setPC w).pc = w := rfl
@[simp] theorem State.setPC_p (s : State) (w : Word) : (s.setPC w).p = s.p := rfl
@[simp] theorem State.setPC_cycles (s : State) (w : Word) : (s.setPC w).cycles = s.cycles := rfl
@[simp] theorem State.setPC_stall (s : State) (w : Word) : (s.setPC w).stall = s.stall := rfl
@[simp] theorem State.setPC_nmiPending (s : State) (w : Word) : (s.setPC w).nmiPending = s.nmiPending := rfl
@[simp] theorem State.setPC_irqPending (s : State) (w : Word) : (s.setPC w).irqPending = s.irqPending := rfl
@[simp] theorem State.setPC_lastBranch (s : State) (w : Word) : (s.setPC w).lastBranch = s.lastBranch := rfl
@[simp] theorem State.setPC_ram (s : State) (w : Word) : (s.setPC w).ram = s.ram := rfl
@[simp] theorem State.setPC_prg (s : State) (w : Word) : (s.setPC w).prg = s.prg := rfl
@[simp] theorem State.setPC_chr (s : State) (w : Word) : (s.setPC w).chr = s.chr := rfl
@[simp] theorem State.setPC_shift (s : State) (w : Word) : (s.setPC w).shift = s.shift := rfl
@[simp] theorem State.setPC_control (s : State) (w : Word) : (s.setPC w).control = s.control := rfl
@[simp] theorem State.setPC_chrBank0 (s : State) (w : Word) : (s.setPC w).chrBank0 = s.chrBank0 := rfl
@[simp] theorem State.setPC_chrBank1 (s : State) (w : Word) : (s.setPC w).chrBank1 = s.chrBank1 := rfl
@[simp] theorem State.setPC_prgBank (s : State) (w : Word) : (s.setPC w).prgBank = s.prgBank := rfl
@[simp] theorem State.setPC_params (s : State) (w : Word) : (s.setPC w).params = s.params := rfl
@[simp] theorem State.setPC_resetDone (s : State) (w : Word) : (s.setPC w).resetDone = s.resetDone := rfl
@[simp] theorem State.setPC_extReads (s : State) (w : Word) : (s.setPC w).extReads = s.extReads := rfl
@[simp] theorem State.setPC_events (s : State) (w : Word) : (s.setPC w).events = s.events := rfl

@[simp] theorem State.setP_a (s : State) (v : Byte) : (s.setP v).a = s.a := rfl
@[simp] theorem State.setP_x (s : State) (v : Byte) : (s.setP v).x = s.x := rfl
@[simp] theorem State.setP_y (s : State) (v : Byte) : (s.setP v).y = s.y := rfl
@[simp] theorem State.setP_sp (s : State) (v : Byte) : (s.setP v).sp = s.sp := rfl
@[simp] theorem State.setP_pc (s : State) (v : Byte) : (s.setP v).pc = s.pc := rfl
@[simp] theorem State.setP_p (s : State) (v : Byte) : (s.setP v).p = v := rfl
@[simp] theorem State.setP_cycles (s : State) (v : Byte) : (s.setP v).cycles = s.cycles := rfl
@[simp] theorem State.setP_stall (s : State) (v : Byte) : (s.setP v).stall = s.stall := rfl
@[simp] theorem State.setP_nmiPending (s : State) (v : Byte) : (s.setP v).nmiPending = s.nmiPending := rfl
@[simp] theorem State.setP_irqPending (s : State) (v : Byte) : (s.setP v).irqPending = s.irqPending := rfl
@[simp] theorem State.setP_lastBranch (s : State) (v : Byte) : (s.setP v).lastBranch = s.lastBranch := rfl
@[simp] theorem State.setP_ram (s : State) (v : Byte) : (s.setP v).ram = s.ram := rfl
@[simp] theorem State.setP_prg (s : State) (v : Byte) : (s.setP v).prg = s.prg := rfl
@[simp] theorem State.setP_chr (s : State) (v : Byte) : (s.setP v).chr = s.chr := rfl
@[simp] theorem State.setP_shift (s : State) (v : Byte) : (s.setP v).shift = s.shift := rfl
@[simp] theorem State.setP_control (s : State) (v : Byte) : (s.setP v).control = s.control := rfl
@[simp] theorem State.setP_chrBank0 (s : State) (v : Byte) : (s.setP v).chrBank0 = s.chrBank0 := rfl
@[simp] theorem State.setP_chrBank1 (s : State) (v : Byte) : (s.setP v).chrBank1 = s.chrBank1 := rfl
@[simp] theorem State.setP_prgBank (s : State) (v : Byte) : (s.setP v).prgBank = s.prgBank := rfl
@[simp] theorem State.setP_params (s : State) (v : Byte) : (s.setP v).params = s.params := rfl
@[simp] theorem State.setP_resetDone (s : State) (v : Byte) : (s.setP v).resetDone = s.resetDone := rfl
@[simp] theorem State.setP_extReads (s : State) (v : Byte) : (s.setP v).extReads = s.extReads := rfl
@[simp] theorem State.setP_events (s : State) (v : Byte) : (s.setP v).events = s.events := rfl

@[simp] theorem State.setF_a (s : State) (f : Flag) (v : Bool) : (s.setF f v).a = s.a := rfl
@[simp] theorem State.setF_x (s : State) (f : Flag) (v : Bool) : (s.setF f v).x = s.x := rfl
@[simp] theorem State.setF_y (s : State) (f : Flag) (v : Bool) : (s.setF f v).y = s.y := rfl
@[simp] theorem State.setF_sp (s : State) (f : Flag) (v : Bool) : (s.setF f v).sp = s.sp := rfl
@[simp] theorem State.setF_pc (s : State) (f : Flag) (v : Bool) : (s.setF f v).pc = s.pc := rfl
@[simp] theorem State.setF_p (s : State) (f : Flag) (v : Bool) : (s.setF f v).p = setFlag f v s.p := rfl
@[simp] theorem State.setF_cycles (s : State) (f : Flag) (v : Bool) : (s.setF f v).cycles = s.cycles := rfl
@[simp] theorem State.setF_stall (s : State) (f : Flag) (v : Bool) : (s.setF f v).stall = s.stall := rfl
@[simp] theorem State.setF_nmiPending (s : State) (f : Flag) (v : Bool) : (s.setF f v).nmiPending = s.nmiPending := rfl
@[simp] theorem State.setF_irqPending (s : State) (f : Flag) (v : Bool) : (s.setF f v).irqPending = s.irqPending := rfl
@[simp] theorem State.setF_lastBranch (s : State) (f : Flag) (v : Bool) : (s.setF f v).lastBranch = s.lastBranch := rfl
@[simp] theorem State.setF_ram (s : State) (f : Flag) (v : Bool) : (s.setF f v).ram = s.ram := rfl
@[simp] theorem State.setF_prg (s : State) (f : Flag) (v : Bool) : (s.setF f v).prg = s.prg := rfl
@[simp] theorem State.setF_chr (s : State) (f : Flag) (v : Bool) : (s.setF f v).chr = s.chr := rfl
@[simp] theorem State.setF_shift (s : State) (f : Flag) (v : Bool) : (s.setF f v).shift = s.shift := rfl
@[simp] theorem State.setF_control (s : State) (f : Flag) (v : Bool) : (s.setF f v).control = s.control := rfl
@[simp] theorem State.setF_chrBank0 (s : State) (f : Flag) (v : Bool) : (s.setF f v).chrBank0 = s.chrBank0 := rfl
@[simp] theorem State.setF_chrBank1 (s : State) (f : Flag) (v : Bool) : (s.setF f v).chrBank1 = s.chrBank1 := rfl
@[simp] theorem State.setF_prgBank (s : State) (f : Flag) (v : Bool) : (s.setF f v).prgBank = s.prgBank := rfl
@[simp] theorem State.setF_params (s : State) (f : Flag) (v : Bool) : (s.setF f v).params = s.params := rfl
@[simp] theorem State.setF_resetDone (s : State) (f : Flag) (v : Bool) : (s.setF f v).resetDone = s.resetDone := rfl
@[simp] theorem State.setF_extReads (s : State) (f : Flag) (v : Bool) : (s.setF f v).extReads = s.extReads := rfl
@[simp] theorem State.setF_events (s : State) (f : Flag) (v : Bool) : (s.setF f v).events = s.events := rfl

@[simp] theorem State.setNZ_a (s : State) (v : Byte) : (s.setNZ v).a = s.a := rfl
@[simp] theorem State.setNZ_x (s : State) (v : Byte) : (s.setNZ v).x = s.x := rfl
@[simp] theorem State.setNZ_y (s : State) (v : Byte) : (s.setNZ v).y = s.y := rfl
@[simp] theorem State.setNZ_sp (s : State) (v : Byte) : (s.setNZ v).sp = s.sp := rfl
@[simp] theorem State.setNZ_pc (s : State) (v : Byte) : (s.setNZ v).pc = s.pc := rfl
@[simp] theorem State.setNZ_p (s : State) (v : Byte) : (s.setNZ v).p = nzFlags v s.p := rfl
@[simp] theorem State.setNZ_cycles (s : State) (v : Byte) : (s.setNZ v).cycles = s.cycles := rfl
@[simp] theorem State.setNZ_stall (s : State) (v : Byte) : (s.setNZ v).stall = s.stall := rfl
@[simp] theorem State.setNZ_nmiPending (s : State) (v : Byte) : (s.setNZ v).nmiPending = s.nmiPending := rfl
@[simp] theorem State.setNZ_irqPending (s : State) (v : Byte) : (s.setNZ v).irqPending = s.irqPending := rfl
@[simp] theorem State.setNZ_lastBranch (s : State) (v : Byte) : (s.setNZ v).lastBranch = s.lastBranch := rfl
@[simp] theorem State.setNZ_ram (s : State) (v : Byte) : (s.setNZ v).ram = s.ram := rfl
@[simp] theorem State.setNZ_prg (s : State) (v : Byte) : (s.setNZ v).prg = s.prg := rfl
@[simp] theorem State.setNZ_chr (s : State) (v : Byte) : (s.setNZ v).chr = s.chr := rfl
@[simp] theorem State.setNZ_shift (s : State) (v : Byte) : (s.setNZ v).shift = s.shift := rfl
@[simp] theorem State.setNZ_control (s : State) (v : Byte) : (s.setNZ v).control = s.control := rfl
@[simp] theorem State.setNZ_chrBank0 (s : State) (v : Byte) : (s.setNZ v).chrBank0 = s.chrBank0 := rfl
@[simp] theorem State.setNZ_chrBank1 (s : State) (v : Byte) : (s.setNZ v).chrBank1 = s.chrBank1 := rfl
@[simp] theorem State.setNZ_prgBank (s : State) (v : Byte) : (s.setNZ v).prgBank = s.prgBank := rfl
@[simp] theorem State.setNZ_params (s : State) (v : Byte) : (s.setNZ v).params = s.params := rfl
@[simp] theorem State.setNZ_resetDone (s : State) (v : Byte) : (s.setNZ v).resetDone = s.resetDone := rfl
@[simp] theorem State.setNZ_extReads (s : State) (v : Byte) : (s.setNZ v).extReads = s.extReads := rfl
@[simp] theorem State.setNZ_events (s : State) (v : Byte) : (s.setNZ v).events = s.events := rfl

@[simp] theorem State.addCycles_a (s : State) (n : Nat) : (s.addCycles n).a = s.a := rfl
@[simp] theorem State.addCycles_x (s : State) (n : Nat) : (s.addCycles n).x = s.x := rfl
@[simp] theorem State.addCycles_y (s : State) (n : Nat) : (s.addCycles n).y = s.y := rfl
@[simp] theorem State.addCycles_sp (s : State) (n : Nat) : (s.addCycles n).sp = s.sp := rfl
@[simp] theorem State.addCycles_pc (s : State) (n : Nat) : (s.addCycles n).pc = s.pc := rfl
@[simp] theorem State.addCycles_p (s : State) (n : Nat) : (s.addCycles n).p = s.p := rfl
@[simp] theorem State.addCycles_cycles (s : State) (n : Nat) : (s.addCycles n).cycles = s.cycles + cyc n := rfl
@[simp] theorem State.addCycles_stall (s : State) (n : Nat) : (s.addCycles n).stall = s.stall := rfl
@[simp] theorem State.addCycles_nmiPending (s : State) (n : Nat) : (s.addCycles n).nmiPending = s.nmiPending := rfl
@[simp] theorem State.addCycles_irqPending (s : State) (n : Nat) : (s.addCycles n).irqPending = s.irqPending := rfl
@[simp] theorem State.addCycles_lastBranch (s : State) (n : Nat) : (s.addCycles n).lastBranch = s.lastBranch := rfl
@[simp] theorem State.addCycles_ram (s : State) (n : Nat) : (s.addCycles n).ram = s.ram := rfl
@[simp] theorem State.addCycles_prg (s : State) (n : Nat) : (s.addCycles n).prg = s.prg := rfl
@[simp] theorem State.addCycles_chr (s : State) (n : Nat) : (s.addCycles n).chr = s.chr := rfl
@[simp] theorem State.addCycles_shift (s : State) (n : Nat) : (s.addCycles n).shift = s.shift := rfl
@[simp] theorem State.addCycles_control (s : State) (n : Nat) : (s.addCycles n).control = s.control := rfl
@[simp] theorem State.addCycles_chrBank0 (s : State) (n : Nat) : (s.addCycles n).chrBank0 = s.chrBank0 := rfl
@[simp] theorem State.addCycles_chrBank1 (s : State) (n : Nat) : (s.addCycles n).chrBank1 = s.chrBank1 := rfl
@[simp] theorem State.addCycles_prgBank (s : State) (n : Nat) : (s.addCycles n).prgBank = s.prgBank := rfl
@[simp] theorem State.addCycles_params (s : State) (n : Nat) : (s.addCycles n).params = s.params := rfl
@[simp] theorem State.addCycles_resetDone (s : State) (n : Nat) : (s.addCycles n).resetDone = s.resetDone := rfl
@[simp] theorem State.addCycles_extReads (s : State) (n : Nat) : (s.addCycles n).extReads = s.extReads := rfl
@[simp] theorem State.addCycles_events (s : State) (n : Nat) : (s.addCycles n).events = s.events := rfl

@[simp] theorem State.emit_a (s : State) (e : Event) : (s.emit e).a = s.a := rfl
@[simp] theorem State.emit_x (s : State) (e : Event) : (s.emit e).x = s.x := rfl
@[simp] theorem State.emit_y (s : State) (e : Event) : (s.emit e).y = s.y := rfl
@[simp] theorem State.emit_sp (s : State) (e : Event) : (s.emit e).sp = s.sp := rfl
@[simp] theorem State.emit_pc (s : State) (e : Event) : (s.emit e).pc = s.pc := rfl
@[simp] theorem State.emit_p (s : State) (e : Event) : (s.emit e).p = s.p := rfl
@[simp] theorem State.emit_cycles (s : State) (e : Event) : (s.emit e).cycles = s.cycles := rfl
@[simp] theorem State.emit_stall (s : State) (e : Event) : (s.emit e).stall = s.stall := rfl
@[simp] theorem State.emit_nmiPending (s : State) (e : Event) : (s.emit e).nmiPending = s.nmiPending := rfl
@[simp] theorem State.emit_irqPending (s : State) (e : Event) : (s.emit e).irqPending = s.irqPending := rfl
@[simp] theorem State.emit_lastBranch (s : State) (e : Event) : (s.emit e).lastBranch = s.lastBranch := rfl
@[simp] theorem State.emit_ram (s : State) (e : Event) : (s.emit e).ram = s.ram := rfl
@[simp] theorem State.emit_prg (s : State) (e : Event) : (s.emit e).prg = s.prg := rfl
@[simp] theorem State.emit_chr (s : State) (e : Event) : (s.emit e).chr = s.chr := rfl
@[simp] theorem State.emit_shift (s : State) (e : Event) : (s.emit e).shift = s.shift := rfl
@[simp] theorem State.emit_control (s : State) (e : Event) : (s.emit e).control = s.control := rfl
@[simp] theorem State.emit_chrBank0 (s : State) (e : Event) : (s.emit e).chrBank0 = s.chrBank0 := rfl
@[simp] theorem State.emit_chrBank1 (s : State) (e : Event) : (s.emit e).chrBank1 = s.chrBank1 := rfl
@[simp] theorem State.emit_prgBank (s : State) (e : Event) : (s.emit e).prgBank = s.prgBank := rfl
@[simp] theorem State.emit_params (s : State) (e : Event) : (s.emit e).params = s.params := rfl
@[simp] theorem State.emit_resetDone (s : State) (e : Event) : (s.emit e).resetDone = s.resetDone := rfl
@[simp] theorem State.emit_extReads (s : State) (e : Event) : (s.emit e).extReads = s.extReads := rfl
@[simp] theorem State.emit_events (s : State) (e : Event) : (s.emit e).events = e :: s.events := rfl

@[simp] theorem State.touch_a (s : State) (b : Word) : (s.touch b).a = s.a := rfl
@[simp] theorem State.touch_x (s : State) (b : Word) : (s.touch b).x = s.x := rfl
@[simp] theorem State.touch_y (s : State) (b : Word) : (s.touch b).y = s.y := rfl
@[simp] theorem State.touch_sp (s : State) (b : Word) : (s.touch b).sp = s.sp := rfl
@[simp] theorem State.touch_pc (s : State) (b : Word) : (s.touch b).pc = s.pc := rfl
@[simp] theorem State.touch_p (s : State) (b : Word) : (s.touch b).p = s.p := rfl
@[simp] theorem State.touch_cycles (s : State) (b : Word) : (s.touch b).cycles = s.cycles := rfl
@[simp] theorem State.touch_stall (s : State) (b : Word) : (s.touch b).stall = s.stall := rfl
@[simp] theorem State.touch_nmiPending (s : State) (b : Word) : (s.touch b).nmiPending = s.nmiPending := rfl
@[simp] theorem State.touch_irqPending (s : State) (b : Word) : (s.touch b).irqPending = s.irqPending := rfl
@[simp] theorem State.touch_lastBranch (s : State) (b : Word) : (s.touch b).lastBranch = s.lastBranch := rfl
@[simp] theorem State.touch_ram (s : State) (b : Word) : (s.touch b).ram = s.ram := rfl
@[simp] theorem State.touch_prg (s : State) (b : Word) : (s.touch b).prg = s.prg := rfl
@[simp] theorem State.touch_chr (s : State) (b : Word) : (s.touch b).chr = s.chr := rfl
@[simp] theorem State.touch_shift (s : State) (b : Word) : (s.touch b).shift = s.shift := rfl
@[simp] theorem State.touch_control (s : State) (b : Word) : (s.touch b).control = s.control := rfl
@[simp] theorem State.touch_chrBank0 (s : State) (b : Word) : (s.touch b).chrBank0 = s.chrBank0 := rfl
@[simp] theorem State.touch_chrBank1 (s : State) (b : Word) : (s.touch b).chrBank1 = s.chrBank1 := rfl
@[simp] theorem State.touch_prgBank (s : State) (b : Word) : (s.touch b).prgBank = s.prgBank := rfl
@[simp] theorem State.touch_params (s : State) (b : Word) : (s.touch b).params = s.params := rfl
@[simp] theorem State.touch_resetDone (s : State) (b : Word) : (s.touch b).resetDone = s.resetDone := rfl
@[simp] theorem State.touch_extReads (s : State) (b : Word) : (s.touch b).extReads = if isExternal b then s.extReads + 1 else s.extReads := rfl
@[simp] theorem State.touch_events (s : State) (b : Word) : (s.touch b).events = s.events := rfl

@[simp] theorem advance_a (e : RomEntry) (c : Bool) (s : State) : (advance e c s).a = s.a := rfl
@[simp] theorem advance_x (e : RomEntry) (c : Bool) (s : State) : (advance e c s).x = s.x := rfl
@[simp] theorem advance_y (e : RomEntry) (c : Bool) (s : State) : (advance e c s).y = s.y := rfl
@[simp] theorem advance_sp (e : RomEntry) (c : Bool) (s : State) : (advance e c s).sp = s.sp := rfl
@[simp] theorem advance_pc (e : RomEntry) (c : Bool) (s : State) : (advance e c s).pc = s.pc + BitVec.ofNat 16 e.advance := rfl
@[simp] theorem advance_p (e : RomEntry) (c : Bool) (s : State) : (advance e c s).p = s.p := rfl
@[simp] theorem advance_cycles (e : RomEntry) (c : Bool) (s : State) : (advance e c s).cycles = s.cycles + cyc (if c then e.pagecycles else 0) + cyc e.cycles := rfl
@[simp] theorem advance_stall (e : RomEntry) (c : Bool) (s : State) : (advance e c s).stall = s.stall := rfl
@[simp] theorem advance_nmiPending (e : RomEntry) (c : Bool) (s : State) : (advance e c s).nmiPending = s.nmiPending := rfl
@[simp] theorem advance_irqPending (e : RomEntry) (c : Bool) (s : State) : (advance e c s).irqPending = s.irqPending := rfl
@[simp] theorem advance_lastBranch (e : RomEntry) (c : Bool) (s : State) : (advance e c s).lastBranch = s.lastBranch := rfl
@[simp] theorem advance_ram (e : RomEntry) (c : Bool) (s : State) : (advance e c s).ram = s.ram := rfl
@[simp] theorem advance_prg (e : RomEntry) (c : Bool) (s : State) : (advance e c s).prg = s.prg := rfl
@[simp] theorem advance_chr (e : RomEntry) (c : Bool) (s : State) : (advance e c s).chr = s.chr := rfl
@[simp] theorem advance_shift (e : RomEntry) (c : Bool) (s : State) : (advance e c s).shift = s.shift := rfl
@[simp] theorem advance_control (e : RomEntry) (c : Bool) (s : State) : (advance e c s).control = s.control := rfl
@[simp] theorem advance_chrBank0 (e : RomEntry) (c : Bool) (s : State) : (advance e c s).chrBank0 = s.chrBank0 := rfl
@[simp] theorem advance_chrBank1 (e : RomEntry) (c : Bool) (s : State) : (advance e c s).chrBank1 = s.chrBank1 := rfl
@[simp] theorem advance_prgBank (e : RomEntry) (c : Bool) (s : State) : (advance e c s).prgBank = s.prgBank := rfl
@[simp] theorem advance_params (e : RomEntry) (c : Bool) (s : State) : (advance e c s).params = s.params := rfl
@[simp] theorem advance_resetDone (e : RomEntry) (c : Bool) (s : State) : (advance e c s).resetDone = s.resetDone := rfl
@[simp] theorem advance_extReads (e : RomEntry) (c : Bool) (s : State) : (advance e c s).extReads = s.extReads := rfl
@[simp] theorem advance_events (e : RomEntry) (c : Bool) (s : State) : (advance e c s).events = s.events := rfl

@[simp] theorem stallStep_a (s : State) : (stallStep s).a = s.a := rfl
@[simp] theorem stallStep_x (s : State) : (stallStep s).x = s.x := rfl
@[simp] theorem stallStep_y (s : State) : (stallStep s).y = s.y := rfl
@[simp] theorem stallStep_sp (s : State) : (stallStep s).sp = s.sp := rfl
@[simp] theorem stallStep_pc (s : State) : (stallStep s).pc = s.pc := rfl
@[simp] theorem stallStep_p (s : State) : (stallStep s).p = s.p := rfl
@[simp] theorem stallStep_cycles (s : State) : (stallStep s).cycles = s.cycles + cyc 1 := rfl
@[simp] theorem stallStep_stall (s : State) : (stallStep s).stall = s.stall - 1 := rfl
@[simp] theorem stallStep_nmiPending (s : State) : (stallStep s).nmiPending = s.nmiPending := rfl
@[simp] theorem stallStep_irqPending (s : State) : (stallStep s).irqPending = s.irqPending := rfl
@[simp] theorem stallStep_lastBranch (s : State) : (stallStep s).lastBranch = s.lastBranch := rfl
@[simp] theorem stallStep_ram (s : State) : (stallStep s).ram = s.ram := rfl
@[simp] theorem stallStep_prg (s : State) : (stallStep s).prg = s.prg := rfl
@[simp] theorem stallStep_chr (s : State) : (stallStep s).chr = s.chr := rfl
@[simp] theorem stallStep_shift (s : State) : (stallStep s).shift = s.shift := rfl
@[simp] theorem stallStep_control (s : State) : (stallStep s).control = s.control := rfl
@[simp] theorem stallStep_chrBank0 (s : State) : (stallStep s).chrBank0 = s.chrBank0 := rfl
@[simp] theorem stallStep_chrBank1 (s : State) : (stallStep s).chrBank1 = s.chrBank1 := rfl
@[simp] theorem stallStep_prgBank (s : State) : (stallStep s).prgBank = s.prgBank := rfl
@[simp] theorem stallStep_params (s : State) : (stallStep s).params = s.params := rfl
@[simp] theorem stallStep_resetDone (s : State) : (stallStep s).resetDone = s.resetDone := rfl
@[simp] theorem stallStep_extReads (s : State) : (stallStep s).extReads = s.extReads := rfl
@[simp] theorem stallStep_events (s : State) : (stallStep s).events = s.events := rfl

end Sys2Proof.Machine
end

