-- ==== Sys2Proof/Laws/Flags.lean ====
section
/-! SUPPORT. Reading a flag after each flag computation, and the byte-order helpers. -/

namespace Sys2Proof.Machine

/-! ### Bits and words -/

theorem getLsbD_setBit_same (v : Byte) (n : Nat) (b : Bool) (hn : n < 8) : (setBit v n b).getLsbD n = b := by
  interval_cases n <;> cases b <;> simp [setBit]

theorem getLsbD_setBit_other (v : Byte) (n k : Nat) (b : Bool) (hn : n < 8) (hk : k < 8) (h : k ≠ n) :
    (setBit v n b).getLsbD k = v.getLsbD k := by
  interval_cases n <;> interval_cases k <;> first | exact absurd rfl h | (cases b <;> simp [setBit])

theorem getLsbD_mkWord (h l : Byte) (i : Nat) :
    (mkWord h l).getLsbD i = if i < 8 then l.getLsbD i else h.getLsbD (i - 8) := BitVec.getLsbD_append

theorem getLsbD_hi (w : Word) (i : Nat) : (hi w).getLsbD i = (decide (i < 8) && w.getLsbD (8 + i)) :=
  BitVec.getLsbD_extractLsb' ..

theorem getLsbD_lo (w : Word) (i : Nat) : (lo w).getLsbD i = (decide (i < 8) && w.getLsbD i) := by
  simp [lo, BitVec.getLsbD_extractLsb']

@[simp] theorem hi_mkWord (h l : Byte) : hi (mkWord h l) = h := by
  apply BitVec.eq_of_getLsbD_eq
  intro i hi'
  rw [getLsbD_hi, getLsbD_mkWord, if_neg (by omega)]
  simp [hi']

@[simp] theorem lo_mkWord (h l : Byte) : lo (mkWord h l) = l := by
  apply BitVec.eq_of_getLsbD_eq
  intro i hi'
  rw [getLsbD_lo, getLsbD_mkWord, if_pos hi']
  simp [hi']

@[simp] theorem mkWord_hi_lo (w : Word) : mkWord (hi w) (lo w) = w := by
  apply BitVec.eq_of_getLsbD_eq
  intro i hi'
  rw [getLsbD_mkWord, getLsbD_lo, getLsbD_hi]
  split_ifs with h
  · simp [h]
  · rw [Nat.add_sub_cancel' (by omega)]; simp; omega

theorem zext16_eq (v : Byte) : zext16 v = mkWord 0#8 v := by
  apply BitVec.eq_of_getLsbD_eq
  intro i hi'
  rw [getLsbD_mkWord]
  simp only [zext16, BitVec.truncate_eq_setWidth, BitVec.getLsbD_setWidth, hi', decide_true, Bool.true_and]
  split_ifs with h
  · rfl
  · simp [BitVec.getLsbD_of_ge v i (by omega)]

@[simp] theorem hi_zext16 (v : Byte) : hi (zext16 v) = 0#8 := by rw [zext16_eq, hi_mkWord]

@[simp] theorem lo_zext16 (v : Byte) : lo (zext16 v) = v := by rw [zext16_eq, lo_mkWord]

/-- The next address in page zero (R110, R111). -/
@[simp] theorem nextInPage_zext16 (v : Byte) : nextInPage (zext16 v) = zext16 (v + 1#8) := by
  simp [nextInPage, zext16_eq]

/-! ### One flag at a time -/

theorem flagBit_lt (f : Flag) : flagBit f < 8 := by cases f <;> decide

theorem flagBit_injective {f g : Flag} (h : flagBit f = flagBit g) : f = g := by
  cases f <;> cases g <;> first | rfl | exact absurd h (by decide)

/-- Reading a flag after a flag was replaced. -/
theorem getFlag_setFlag (f g : Flag) (v : Bool) (p : Byte) :
    getFlag f (setFlag g v p) = if f = g then v else getFlag f p := by
  unfold getFlag setFlag
  by_cases h : f = g
  · subst h; rw [if_pos rfl, getLsbD_setBit_same _ _ _ (flagBit_lt f)]
  · rw [if_neg h, getLsbD_setBit_other _ _ _ _ (flagBit_lt g) (flagBit_lt f) fun e => h (flagBit_injective e)]

theorem getFlag_nzFlags (f : Flag) (v p : Byte) :
    getFlag f (nzFlags v p) = if f = .n then v.getLsbD 7 else if f = .z then v == 0#8 else getFlag f p := by
  simp only [nzFlags, getFlag_setFlag]

/-- Two flags words with the same eight flags are equal. -/
theorem flags_ext {p q : Byte} (h : ∀ f, getFlag f p = getFlag f q) : p = q := by
  have hc := h .c; have hz := h .z; have hi := h .i; have hd := h .d
  have hb := h .b; have hu := h .u; have hv := h .v; have hn := h .n
  simp only [getFlag, flagBit] at hc hz hi hd hb hu hv hn
  apply BitVec.eq_of_getLsbD_eq
  intro i hi
  interval_cases i <;> assumption

/-! ### The flag computations -/

theorem getFlag_pushedFlags (f : Flag) (p : Byte) (b : Bool) :
    getFlag f (pushedFlags p b) = if f = .u then true else if f = .b then b else getFlag f p := by
  cases f <;> cases b <;> simp [getFlag, flagBit, pushedFlags, bitByte]

theorem getFlag_pulledFlags (f : Flag) (v : Byte) :
    getFlag f (pulledFlags v) = if f = .u then true else if f = .b then false else getFlag f v := by
  cases f <;> simp [getFlag, flagBit, pulledFlags]

theorem getFlag_shiftFlags (f : Flag) (r : Byte) (c : Bool) (p : Byte) :
    getFlag f (shiftFlags r c p) =
      if f = .n then r.getLsbD 7 else if f = .z then r == 0#8 else if f = .c then c else getFlag f p := by
  simp only [shiftFlags, getFlag_nzFlags, getFlag_setFlag]

theorem getFlag_cmpFlags (f : Flag) (r m p : Byte) :
    getFlag f (cmpFlags r m p) =
      if f = .n then (r - m).getLsbD 7 else if f = .z then r == m
      else if f = .c then decide (r.toNat ≥ m.toNat) else getFlag f p := by
  simp only [cmpFlags, getFlag_setFlag]

theorem getFlag_bitFlags (f : Flag) (a m p : Byte) :
    getFlag f (bitFlags a m p) =
      if f = .n then m.getLsbD 7 else if f = .v then m.getLsbD 6
      else if f = .z then (a &&& m) == 0#8 else getFlag f p := by
  simp only [bitFlags, getFlag_setFlag]

theorem getFlag_adcFlags (f : Flag) (a m p : Byte) :
    getFlag f (adcFlags a m p) =
      if f = .n then (adcResult a m (getFlag .c p)).getLsbD 7
      else if f = .z then adcResult a m (getFlag .c p) == 0#8
      else if f = .v then (((a ^^^ m) &&& 0x80#8) == 0#8) && (((a ^^^ adcResult a m (getFlag .c p)) &&& 0x80#8) != 0#8)
      else if f = .c then decide (adcSum a m (getFlag .c p) > 0xFF) else getFlag f p := by
  simp only [adcFlags, getFlag_nzFlags, getFlag_setFlag]

theorem getFlag_sbcFlags (f : Flag) (a m p : Byte) :
    getFlag f (sbcFlags a m p) =
      if f = .n then (sbcResult a m (getFlag .c p)).getLsbD 7
      else if f = .z then sbcResult a m (getFlag .c p) == 0#8
      else if f = .v then (((a ^^^ m) &&& 0x80#8) != 0#8) && (((a ^^^ sbcResult a m (getFlag .c p)) &&& 0x80#8) != 0#8)
      else if f = .c then decide (sbcDiff a m (getFlag .c p) ≥ 0) else getFlag f p := by
  simp only [sbcFlags, getFlag_nzFlags, getFlag_setFlag]

/-- The flags of State after an update of P are the flags of the new word. -/
theorem State.flag_eq (s : State) (f : Flag) : s.flag f = getFlag f s.p := rfl

theorem State.flag_setNZ (s : State) (v : Byte) (f : Flag) :
    (s.setNZ v).flag f = if f = .n then v.getLsbD 7 else if f = .z then v == 0#8 else s.flag f :=
  getFlag_nzFlags f v s.p

theorem State.flag_setF (s : State) (g : Flag) (v : Bool) (f : Flag) :
    (s.setF g v).flag f = if f = g then v else s.flag f := getFlag_setFlag f g v s.p

/-- The bits 7 that the sign tests of R211 and R212 look at. -/
theorem and_sign_eq_zero (v : Byte) : ((v &&& 0x80#8) == 0#8) = !v.getLsbD 7 := by
  revert v; decide

theorem and_sign_ne_zero (v : Byte) : ((v &&& 0x80#8) != 0#8) = v.getLsbD 7 := by
  revert v; decide

end Sys2Proof.Machine
end

