-- ==== Sys2Proof/Laws/Memory.lean ====
section
/-! SUPPORT. What a storage's read and write do: the read-after-write laws, and that a write keeps the canonical
form and the size. -/

namespace Sys2Proof.Machine

@[simp] theorem Memory.read_nil (a : Nat) : Memory.read [] a = unlistedByte := rfl

theorem Memory.read_cons (k : Nat) (v : Byte) (m : Memory) (a : Nat) :
    Memory.read ((k, v) :: m) a = if k = a then v else Memory.read m a := rfl

/-- An address below every key is unlisted. -/
theorem Memory.read_of_wfFrom_lt {n a : Nat} {m : Memory} (h : Memory.wfFrom n m = true) (ha : a < n) :
    Memory.read m a = unlistedByte := by
  induction m generalizing n with
  | nil => rfl
  | cons c m ih =>
    obtain ⟨k, v⟩ := c
    simp only [Memory.wfFrom, Bool.and_eq_true, decide_eq_true_eq] at h
    rw [Memory.read_cons, if_neg (by omega), ih h.2 (by omega)]

/-- The canonical form from a lower bound holds from a lower one. -/
theorem Memory.wfFrom_mono {n n' : Nat} {m : Memory} (h : Memory.wfFrom n m = true) (hn : n' ≤ n) :
    Memory.wfFrom n' m = true := by
  cases m with
  | nil => rfl
  | cons c m =>
    obtain ⟨k, v⟩ := c
    simp only [Memory.wfFrom, Bool.and_eq_true, decide_eq_true_eq] at h ⊢
    exact ⟨⟨by omega, h.1.2⟩, h.2⟩

/-- A write keeps the canonical form, from any bound not above the address written. -/
theorem Memory.write_wfFrom {n a : Nat} {v : Byte} {m : Memory} (h : Memory.wfFrom n m = true) (ha : n ≤ a) :
    Memory.wfFrom n (Memory.write m a v) = true := by
  induction m generalizing n with
  | nil =>
    simp only [Memory.write]
    split
    · rfl
    · simp_all [Memory.wfFrom]
  | cons c m ih =>
    obtain ⟨k, w⟩ := c
    simp only [Memory.wfFrom, Bool.and_eq_true, decide_eq_true_eq] at h
    obtain ⟨⟨hk, hw⟩, hm⟩ := h
    have unchanged : Memory.wfFrom n ((k, w) :: m) = true := by simp [Memory.wfFrom, hk, hw, hm]
    simp only [Memory.write]
    split_ifs with hlt hv heq hv
    · exact unchanged
    · simp [Memory.wfFrom, ha, hv, hw, hm]; omega
    · exact Memory.wfFrom_mono hm (by omega)
    · subst heq; simp [Memory.wfFrom, ha, hv, hm]
    · simp [Memory.wfFrom, hk, hw, ih hm (by omega)]

/-- A write keeps the canonical form. -/
theorem Memory.write_wf {a : Nat} {v : Byte} {m : Memory} (h : Memory.wf m = true) :
    Memory.wf (Memory.write m a v) = true := Memory.write_wfFrom h (Nat.zero_le a)

/-- Reading the address just written gives the byte written. -/
theorem Memory.read_write_sameFrom {n a : Nat} {v : Byte} {m : Memory} (h : Memory.wfFrom n m = true) :
    Memory.read (Memory.write m a v) a = v := by
  induction m generalizing n with
  | nil =>
    simp only [Memory.write]
    split
    · simp_all
    · simp [Memory.read_cons]
  | cons c m ih =>
    obtain ⟨k, w⟩ := c
    have hfull := h
    simp only [Memory.wfFrom, Bool.and_eq_true, decide_eq_true_eq] at h
    obtain ⟨⟨hk, hw⟩, hm⟩ := h
    simp only [Memory.write]
    split_ifs with hlt hv heq hv
    · rw [Memory.read_cons, if_neg (by omega), Memory.read_of_wfFrom_lt hm (by omega), hv]
    · simp [Memory.read_cons]
    · subst heq; rw [Memory.read_of_wfFrom_lt hm (by omega), hv]
    · simp [Memory.read_cons]
    · rw [Memory.read_cons, if_neg (by omega), ih hm]

/-- Reading the address just written gives the byte written (R79). -/
theorem Memory.read_write_same {m : Memory} (h : Memory.wf m = true) (a : Nat) (v : Byte) :
    Memory.read (Memory.write m a v) a = v := Memory.read_write_sameFrom h

/-- A write leaves every other address alone, in any list. -/
theorem Memory.read_write_other {m : Memory} {a b : Nat} (v : Byte) (hab : b ≠ a) :
    Memory.read (Memory.write m a v) b = Memory.read m b := by
  induction m with
  | nil =>
    simp only [Memory.write]
    split
    · rfl
    · rw [Memory.read_cons, if_neg (by omega)]
  | cons c m ih =>
    obtain ⟨k, w⟩ := c
    simp only [Memory.write]
    split_ifs with hlt hv heq hv
    · rfl
    · rw [Memory.read_cons, if_neg (by omega)]
    · subst heq; rw [Memory.read_cons, if_neg (by omega)]
    · subst heq; simp [Memory.read_cons, Ne.symm hab]
    · simp [Memory.read_cons, ih]

/-- A write inside the size keeps every key inside it. -/
theorem Memory.write_below {n a : Nat} {v : Byte} {m : Memory} (h : Memory.below n m = true) (ha : a < n) :
    Memory.below n (Memory.write m a v) = true := by
  induction m with
  | nil =>
    simp only [Memory.write]
    split
    · rfl
    · simp [Memory.below, ha]
  | cons c m ih =>
    obtain ⟨k, w⟩ := c
    have hkm : k < n ∧ Memory.below n m = true := by simpa [Memory.below] using h
    obtain ⟨hk, hm⟩ := hkm
    have cons : ∀ (j : Nat) (u : Byte) (t : Memory), j < n → Memory.below n t = true →
        Memory.below n ((j, u) :: t) = true := fun j u t hj ht => by
      simpa [Memory.below, hj] using ht
    simp only [Memory.write]
    split_ifs
    · exact h
    · exact cons _ _ _ ha h
    · exact hm
    · exact cons _ _ _ ha hm
    · exact cons _ _ _ hk (ih hm)

theorem Memory.ofCells_wf (cs : List Host.Cell) : (Memory.ofCells cs).wf = true := by
  induction cs with
  | nil => rfl
  | cons c cs ih => exact Memory.write_wf ih

theorem Memory.ofCells_below {n : Nat} {cs : List Host.Cell} (h : Memory.below n cs = true) :
    (Memory.ofCells cs).below n = true := by
  induction cs with
  | nil => rfl
  | cons c cs ih =>
    simp only [Memory.below, List.all_cons, Bool.and_eq_true, decide_eq_true_eq] at h
    exact Memory.write_below (ih h.2) h.1

/-- In canonical form, equal bytes everywhere is equal data. -/
theorem Memory.ext_of_wfFrom {n : Nat} {m m' : Memory} (h : Memory.wfFrom n m = true) (h' : Memory.wfFrom n m' = true)
    (hr : ∀ a, Memory.read m a = Memory.read m' a) : m = m' := by
  induction m generalizing n m' with
  | nil =>
    cases m' with
    | nil => rfl
    | cons c m' =>
      obtain ⟨k, v⟩ := c
      simp only [Memory.wfFrom, Bool.and_eq_true, decide_eq_true_eq] at h'
      exact absurd (by simpa [Memory.read_cons] using (hr k).symm) h'.1.2
  | cons c m ih =>
    obtain ⟨k, v⟩ := c
    simp only [Memory.wfFrom, Bool.and_eq_true, decide_eq_true_eq] at h
    cases m' with
    | nil => exact absurd (by simpa [Memory.read_cons] using hr k) h.1.2
    | cons c' m' =>
      obtain ⟨k', v'⟩ := c'
      simp only [Memory.wfFrom, Bool.and_eq_true, decide_eq_true_eq] at h'
      have hk : k = k' := by
        rcases Nat.lt_trichotomy k k' with hlt | heq | hgt
        · have e := hr k
          rw [Memory.read_cons, if_pos rfl, Memory.read_cons, if_neg (by omega),
            Memory.read_of_wfFrom_lt h'.2 (by omega)] at e
          exact absurd e h.1.2
        · exact heq
        · have e := hr k'
          rw [Memory.read_cons, if_neg (by omega), Memory.read_cons, if_pos rfl,
            Memory.read_of_wfFrom_lt h.2 (by omega)] at e
          exact absurd e.symm h'.1.2
      subst hk
      have hv : v = v' := by simpa [Memory.read_cons] using hr k
      subst hv
      have : m = m' := ih h.2 h'.2 fun a => by
        by_cases ha : k = a
        · subst ha
          rw [Memory.read_of_wfFrom_lt h.2 (by omega), Memory.read_of_wfFrom_lt h'.2 (by omega)]
        · have e := hr a
          rwa [Memory.read_cons, if_neg ha, Memory.read_cons, if_neg ha] at e
      rw [this]

/-- In canonical form, equal bytes everywhere is equal data. -/
theorem Memory.ext_of_wf {m m' : Memory} (h : Memory.wf m = true) (h' : Memory.wf m' = true)
    (hr : ∀ a, Memory.read m a = Memory.read m' a) : m = m' := Memory.ext_of_wfFrom h h' hr

end Sys2Proof.Machine
end

