-- ==== Sys2Proof/Laws/Ops.lean ====
section
/-! SUPPORT. What each shared operation over memory and stack does: the fields it leaves alone, what it leaves in
memory, and that it keeps the invariant's parts. -/

namespace Sys2Proof.Machine

/-! ### A CPU write changes storage, mapper and events only -/

theorem serialWrite_frame (a : Word) (v : Byte) (s : State) :
    serialWrite a v s =
      { s with
        shift := (serialWrite a v s).shift, control := (serialWrite a v s).control
        chrBank0 := (serialWrite a v s).chrBank0, chrBank1 := (serialWrite a v s).chrBank1
        prgBank := (serialWrite a v s).prgBank } := by
  unfold serialWrite loadRegister
  split
  · rfl
  · split
    · split <;> rfl
    · rfl

theorem memWrite_frame (a : Word) (v : Byte) (s : State) :
    memWrite a v s =
      { s with
        ram := (memWrite a v s).ram, prg := (memWrite a v s).prg
        shift := (memWrite a v s).shift, control := (memWrite a v s).control
        chrBank0 := (memWrite a v s).chrBank0, chrBank1 := (memWrite a v s).chrBank1
        prgBank := (memWrite a v s).prgBank, events := (memWrite a v s).events } := by
  unfold memWrite
  split
  · rfl
  · split
    · rfl
    · split
      · rw [serialWrite_frame]
      · rfl

@[simp] theorem memWrite_a (a : Word) (v : Byte) (s : State) : (memWrite a v s).a = s.a := by
  rw [memWrite_frame]
@[simp] theorem memWrite_x (a : Word) (v : Byte) (s : State) : (memWrite a v s).x = s.x := by
  rw [memWrite_frame]
@[simp] theorem memWrite_y (a : Word) (v : Byte) (s : State) : (memWrite a v s).y = s.y := by
  rw [memWrite_frame]
@[simp] theorem memWrite_sp (a : Word) (v : Byte) (s : State) : (memWrite a v s).sp = s.sp := by
  rw [memWrite_frame]
@[simp] theorem memWrite_pc (a : Word) (v : Byte) (s : State) : (memWrite a v s).pc = s.pc := by
  rw [memWrite_frame]
@[simp] theorem memWrite_p (a : Word) (v : Byte) (s : State) : (memWrite a v s).p = s.p := by
  rw [memWrite_frame]
@[simp] theorem memWrite_cycles (a : Word) (v : Byte) (s : State) : (memWrite a v s).cycles = s.cycles := by
  rw [memWrite_frame]
@[simp] theorem memWrite_stall (a : Word) (v : Byte) (s : State) : (memWrite a v s).stall = s.stall := by
  rw [memWrite_frame]
@[simp] theorem memWrite_nmiPending (a : Word) (v : Byte) (s : State) : (memWrite a v s).nmiPending = s.nmiPending := by
  rw [memWrite_frame]
@[simp] theorem memWrite_irqPending (a : Word) (v : Byte) (s : State) : (memWrite a v s).irqPending = s.irqPending := by
  rw [memWrite_frame]
@[simp] theorem memWrite_lastBranch (a : Word) (v : Byte) (s : State) : (memWrite a v s).lastBranch = s.lastBranch := by
  rw [memWrite_frame]
@[simp] theorem memWrite_chr (a : Word) (v : Byte) (s : State) : (memWrite a v s).chr = s.chr := by
  rw [memWrite_frame]
@[simp] theorem memWrite_params (a : Word) (v : Byte) (s : State) : (memWrite a v s).params = s.params := by
  rw [memWrite_frame]
@[simp] theorem memWrite_resetDone (a : Word) (v : Byte) (s : State) : (memWrite a v s).resetDone = s.resetDone := by
  rw [memWrite_frame]
@[simp] theorem memWrite_extReads (a : Word) (v : Byte) (s : State) : (memWrite a v s).extReads = s.extReads := by
  rw [memWrite_frame]

@[simp] theorem serialWrite_a (a : Word) (v : Byte) (s : State) : (serialWrite a v s).a = s.a := by
  rw [serialWrite_frame]
@[simp] theorem serialWrite_x (a : Word) (v : Byte) (s : State) : (serialWrite a v s).x = s.x := by
  rw [serialWrite_frame]
@[simp] theorem serialWrite_y (a : Word) (v : Byte) (s : State) : (serialWrite a v s).y = s.y := by
  rw [serialWrite_frame]
@[simp] theorem serialWrite_sp (a : Word) (v : Byte) (s : State) : (serialWrite a v s).sp = s.sp := by
  rw [serialWrite_frame]
@[simp] theorem serialWrite_pc (a : Word) (v : Byte) (s : State) : (serialWrite a v s).pc = s.pc := by
  rw [serialWrite_frame]
@[simp] theorem serialWrite_p (a : Word) (v : Byte) (s : State) : (serialWrite a v s).p = s.p := by
  rw [serialWrite_frame]
@[simp] theorem serialWrite_cycles (a : Word) (v : Byte) (s : State) : (serialWrite a v s).cycles = s.cycles := by
  rw [serialWrite_frame]
@[simp] theorem serialWrite_stall (a : Word) (v : Byte) (s : State) : (serialWrite a v s).stall = s.stall := by
  rw [serialWrite_frame]
@[simp] theorem serialWrite_nmiPending (a : Word) (v : Byte) (s : State) : (serialWrite a v s).nmiPending = s.nmiPending := by
  rw [serialWrite_frame]
@[simp] theorem serialWrite_irqPending (a : Word) (v : Byte) (s : State) : (serialWrite a v s).irqPending = s.irqPending := by
  rw [serialWrite_frame]
@[simp] theorem serialWrite_lastBranch (a : Word) (v : Byte) (s : State) : (serialWrite a v s).lastBranch = s.lastBranch := by
  rw [serialWrite_frame]
@[simp] theorem serialWrite_chr (a : Word) (v : Byte) (s : State) : (serialWrite a v s).chr = s.chr := by
  rw [serialWrite_frame]
@[simp] theorem serialWrite_params (a : Word) (v : Byte) (s : State) : (serialWrite a v s).params = s.params := by
  rw [serialWrite_frame]
@[simp] theorem serialWrite_resetDone (a : Word) (v : Byte) (s : State) : (serialWrite a v s).resetDone = s.resetDone := by
  rw [serialWrite_frame]
@[simp] theorem serialWrite_extReads (a : Word) (v : Byte) (s : State) : (serialWrite a v s).extReads = s.extReads := by
  rw [serialWrite_frame]
@[simp] theorem serialWrite_ram (a : Word) (v : Byte) (s : State) : (serialWrite a v s).ram = s.ram := by
  rw [serialWrite_frame]
@[simp] theorem serialWrite_prg (a : Word) (v : Byte) (s : State) : (serialWrite a v s).prg = s.prg := by
  rw [serialWrite_frame]
@[simp] theorem serialWrite_events (a : Word) (v : Byte) (s : State) : (serialWrite a v s).events = s.events := by
  rw [serialWrite_frame]

/-! ### A CPU write by region (R63) -/

theorem memWrite_of_isRam {a : Word} (v : Byte) (s : State) (h : isRam a = true) :
    memWrite a v s = { s with ram := s.ram.write (ramIndex a) v } := by simp [memWrite, h]

theorem isRam_of_isExternal {a : Word} (h : isExternal a = true) : isRam a = false := by
  simp only [isExternal, isRam, Bool.and_eq_true, decide_eq_true_eq, decide_eq_false_iff_not] at *
  bv_omega

theorem memWrite_of_isExternal {a : Word} (v : Byte) (s : State) (h : isExternal a = true) :
    memWrite a v s = s.emit (.extWrite a v) := by simp [memWrite, h, isRam_of_isExternal h]

theorem isRam_of_le {a : Word} (h : 0x8000#16 ≤ a) : isRam a = false := by
  simp only [isRam, decide_eq_false_iff_not]; bv_omega

theorem isExternal_of_le {a : Word} (h : 0x8000#16 ≤ a) : isExternal a = false := by
  simp only [isExternal, Bool.and_eq_false_iff, decide_eq_false_iff_not]; bv_omega

theorem le_of_not_isRam_not_isExternal {a : Word} (h : isRam a = false) (h' : isExternal a = false) :
    0x8000#16 ≤ a := by
  simp only [isExternal, isRam, Bool.and_eq_false_iff, decide_eq_false_iff_not] at *
  bv_omega

theorem memWrite_of_registerLoad {a : Word} (v : Byte) (s : State) (h : 0x8000#16 ≤ a)
    (hm : s.params.romWriteMode = .registerLoad) : memWrite a v s = serialWrite a v s := by
  simp [memWrite, isRam_of_le h, isExternal_of_le h, hm]

theorem memWrite_of_storageWrite {a : Word} (v : Byte) (s : State) (h : 0x8000#16 ≤ a)
    (hm : s.params.romWriteMode = .storageWrite) :
    memWrite a v s = { s with prg := s.prg.write (prgIndex s a) v } := by
  simp [memWrite, isRam_of_le h, isExternal_of_le h, hm]

/-! ### States that agree on everything a store can touch -/

/-- The two states agree on storages, mapper, parameters and events. -/
def SameWorld (s t : State) : Prop :=
  t.ram = s.ram ∧ t.prg = s.prg ∧ t.chr = s.chr ∧ SameMapper s t ∧ t.params = s.params ∧ t.events = s.events

theorem SameWorld.refl (s : State) : SameWorld s s := ⟨rfl, rfl, rfl, ⟨rfl, rfl, rfl, rfl, rfl⟩, rfl, rfl⟩

theorem SameWorld.symm {s t : State} (h : SameWorld s t) : SameWorld t s := by
  obtain ⟨h1, h2, h3, ⟨h4, h5, h6, h7, h8⟩, h9, h10⟩ := h
  exact ⟨h1.symm, h2.symm, h3.symm, ⟨h4.symm, h5.symm, h6.symm, h7.symm, h8.symm⟩, h9.symm, h10.symm⟩

theorem SameWorld.trans {s t u : State} (h : SameWorld s t) (h' : SameWorld t u) : SameWorld s u := by
  obtain ⟨h1, h2, h3, ⟨h4, h5, h6, h7, h8⟩, h9, h10⟩ := h
  obtain ⟨k1, k2, k3, ⟨k4, k5, k6, k7, k8⟩, k9, k10⟩ := h'
  exact ⟨k1.trans h1, k2.trans h2, k3.trans h3,
    ⟨k4.trans h4, k5.trans h5, k6.trans h6, k7.trans h7, k8.trans h8⟩, k9.trans h9, k10.trans h10⟩

/-- Reads outside the external region see only what `SameWorld` compares. -/
theorem SameWorld.peek {s t : State} (h : SameWorld s t) {a : Word} (ha : isExternal a = false) :
    t.peek a = s.peek a := by
  obtain ⟨h1, h2, -, ⟨-, h5, -, -, h8⟩, h9, -⟩ := h
  simp only [State.peek, ha, Bool.false_eq_true, if_false, prgIndex, prgOff0, prgOff1, prgMode, prgSelect, h1, h2, h5,
    h8, h9]

theorem SameWorld.prgIndex {s t : State} (h : SameWorld s t) (a : Word) : prgIndex t a = prgIndex s a := by
  obtain ⟨-, -, -, ⟨-, h5, -, -, h8⟩, h9, -⟩ := h
  simp only [Machine.prgIndex, prgOff0, prgOff1, prgMode, prgSelect, h5, h8, h9]

theorem SameWorld.sameBytes {s t : State} (h : SameWorld s t) : SameBytes s t :=
  ⟨fun _ ha => h.peek ha, fun _ => by rw [h.1], fun _ => by rw [h.2.1], fun _ => by rw [h.2.2.1]⟩

theorem SameWorld.loadRegister {s t : State} (h : SameWorld s t) (a : Word) (v : BitVec 5) :
    SameWorld (loadRegister a v s) (loadRegister a v t) := by
  obtain ⟨h1, h2, h3, ⟨h4, h5, h6, h7, h8⟩, h9, h10⟩ := h
  unfold Machine.loadRegister
  split
  · exact ⟨h1, h2, h3, ⟨h4, rfl, h6, h7, h8⟩, h9, h10⟩
  · exact ⟨h1, h2, h3, ⟨h4, h5, rfl, h7, h8⟩, h9, h10⟩
  · exact ⟨h1, h2, h3, ⟨h4, h5, h6, rfl, h8⟩, h9, h10⟩
  · exact ⟨h1, h2, h3, ⟨h4, h5, h6, h7, rfl⟩, h9, h10⟩

theorem SameWorld.serialWrite {s t : State} (h : SameWorld s t) (a : Word) (v : Byte) :
    SameWorld (serialWrite a v s) (serialWrite a v t) := by
  have hh := h
  obtain ⟨h1, h2, h3, ⟨h4, h5, h6, h7, h8⟩, h9, h10⟩ := h
  unfold Machine.serialWrite
  rw [h4]
  split
  · exact ⟨h1, h2, h3, ⟨rfl, by simp only [h5], h6, h7, h8⟩, h9, h10⟩
  · split
    · exact SameWorld.loadRegister (s := { s with shift := shiftEmpty }) (t := { t with shift := shiftEmpty })
        ⟨h1, h2, h3, ⟨rfl, h5, h6, h7, h8⟩, h9, h10⟩ _ _
    · exact ⟨h1, h2, h3, ⟨rfl, h5, h6, h7, h8⟩, h9, h10⟩

/-- A write reads and changes only what `SameWorld` compares. -/
theorem SameWorld.memWrite {s t : State} (h : SameWorld s t) (a : Word) (v : Byte) :
    SameWorld (memWrite a v s) (memWrite a v t) := by
  have hh := h
  obtain ⟨h1, h2, h3, h4, h9, h10⟩ := h
  unfold Machine.memWrite
  split
  · exact ⟨by simp only [h1], h2, h3, h4, h9, h10⟩
  · split
    · exact ⟨h1, h2, h3, h4, h9, by simp only [State.emit, h10]⟩
    · rw [show t.params.romWriteMode = s.params.romWriteMode by rw [h9]]
      split
      · exact hh.serialWrite a v
      · exact ⟨h1, by simp only [h2, hh.prgIndex], h3, h4, h9, h10⟩

theorem isExternal_of_isRam {a : Word} (h : isRam a = true) : isExternal a = false := by
  simp only [isRam, isExternal, decide_eq_true_eq, Bool.and_eq_false_iff, decide_eq_false_iff_not] at *
  bv_omega

theorem peek_of_le {a : Word} (s : State) (h : 0x8000#16 ≤ a) : s.peek a = s.prg.read (prgIndex s a) := by
  simp [State.peek, isRam_of_le h, isExternal_of_le h]

theorem peek_of_isRam {a : Word} (s : State) (h : isRam a = true) : s.peek a = s.ram.read (ramIndex a) := by
  simp [State.peek, h]

/-- A CPU write is a store as Safety.lean describes it. -/
theorem memWrite_stored {s : State} (hs : MemoryOk s) (a : Word) (v : Byte) : Stored a v s (memWrite a v s) := by
  obtain ⟨hr, hp, -⟩ := hs
  refine ⟨fun h => ?_, fun h => ?_, fun h hm => ?_, fun h hm => ?_⟩
  · rw [memWrite_of_isRam v s h]
    refine ⟨Memory.read_write_same hr _ _, fun k hk => Memory.read_write_other v hk, fun _ => rfl,
      ⟨rfl, rfl, rfl, rfl, rfl⟩, rfl, fun b hb he => ?_, fun b hb he => ?_⟩
    · rw [peek_of_isRam _ hb, he]; exact Memory.read_write_same hr _ _
    · by_cases hb' : isRam b = true
      · rw [peek_of_isRam _ hb', peek_of_isRam _ hb']; exact Memory.read_write_other v (he hb')
      · have := le_of_not_isRam_not_isExternal (by simpa using hb') hb
        rw [peek_of_le _ this, peek_of_le _ this]; rfl
  · rw [memWrite_of_isExternal v s h]
    exact ⟨rfl, fun _ => rfl, fun _ => rfl, ⟨rfl, rfl, rfl, rfl, rfl⟩, fun b hb => by simp [State.peek, hb]; rfl⟩
  · rw [memWrite_of_registerLoad v s h hm]
    exact ⟨fun _ => by rw [serialWrite_ram], fun _ => by rw [serialWrite_prg], ⟨rfl, rfl, rfl, rfl, rfl⟩,
      serialWrite_events .., fun b hb => by rw [peek_of_isRam _ hb, peek_of_isRam _ hb, serialWrite_ram]⟩
  · rw [memWrite_of_storageWrite v s h hm]
    refine ⟨Memory.read_write_same hp _ _, fun k hk => Memory.read_write_other v hk, fun _ => rfl,
      ⟨rfl, rfl, rfl, rfl, rfl⟩, rfl, ?_, fun b hb he => ?_⟩
    · rw [peek_of_le _ h]; exact Memory.read_write_same hp _ _
    · by_cases hb' : isRam b = true
      · rw [peek_of_isRam _ hb', peek_of_isRam _ hb']
      · have := le_of_not_isRam_not_isExternal (by simpa using hb') hb
        rw [peek_of_le _ this, peek_of_le _ this]
        exact Memory.read_write_other v (he this)

/-- `Stored` looks only at what `SameWorld` compares. -/
theorem Stored.congr {a : Word} {v : Byte} {s s' t t' : State} (h : Stored a v s t) (hs : SameWorld s s')
    (ht : SameWorld t t') : Stored a v s' t' := by
  obtain ⟨h1, h2, h3, h4⟩ := h
  have hser : 0x8000#16 ≤ a → s.params.romWriteMode = .registerLoad →
      SameWorld (serialWrite a v s) (serialWrite a v s') := fun ha hm => by
    have hm' : s'.params.romWriteMode = .registerLoad := by rw [hs.2.2.2.2.1]; exact hm
    rw [← memWrite_of_registerLoad v s ha hm, ← memWrite_of_registerLoad v s' ha hm']
    exact hs.memWrite a v
  have mp : ∀ {p q p' q' : State}, SameMapper p q → SameWorld p p' → SameWorld q q' → SameMapper p' q' := by
    rintro p q p' q' ⟨a1, a2, a3, a4, a5⟩ ⟨-, -, -, ⟨b1, b2, b3, b4, b5⟩, -⟩ ⟨-, -, -, ⟨c1, c2, c3, c4, c5⟩, -⟩
    exact ⟨by rw [c1, a1, b1], by rw [c2, a2, b2], by rw [c3, a3, b3], by rw [c4, a4, b4], by rw [c5, a5, b5]⟩
  have hpar := hs.2.2.2.2.1
  have er : ∀ k, t'.ram.read k = t.ram.read k := fun k => by rw [ht.1]
  have ep : ∀ k, t'.prg.read k = t.prg.read k := fun k => by rw [ht.2.1]
  have fr : ∀ k, s'.ram.read k = s.ram.read k := fun k => by rw [hs.1]
  have fp : ∀ k, s'.prg.read k = s.prg.read k := fun k => by rw [hs.2.1]
  have ev : t'.events = t.events := ht.2.2.2.2.2
  have ev' : s'.events = s.events := hs.2.2.2.2.2
  refine ⟨fun ha => ?_, fun ha => ?_, fun ha hm => ?_, fun ha hm => ?_⟩
  · obtain ⟨q1, q2, q3, q4, q5, q6, q7⟩ := h1 ha
    exact ⟨by rw [er, q1], fun k hk => by rw [er, q2 k hk, fr], fun k => by rw [ep, q3, fp], mp q4 hs ht,
      by rw [ev, q5, ev'], fun b hb he => by rw [ht.peek (isExternal_of_isRam hb), q6 b hb he],
      fun b hb he => by rw [ht.peek hb, q7 b hb he, hs.peek hb]⟩
  · obtain ⟨q1, q2, q3, q4, q5⟩ := h2 ha
    exact ⟨by rw [ev, q1, ev'], fun k => by rw [er, q2, fr], fun k => by rw [ep, q3, fp], mp q4 hs ht,
      fun b hb => by rw [ht.peek hb, q5 b hb, hs.peek hb]⟩
  · rw [hpar] at hm
    obtain ⟨q1, q2, q3, q4, q5⟩ := h3 ha hm
    exact ⟨fun k => by rw [er, q1, fr], fun k => by rw [ep, q2, fp], mp q3 (hser ha hm) ht, by rw [ev, q4, ev'],
      fun b hb => by rw [ht.peek (isExternal_of_isRam hb), q5 b hb, hs.peek (isExternal_of_isRam hb)]⟩
  · rw [hpar] at hm
    obtain ⟨q1, q2, q3, q4, q5, q6, q7⟩ := h4 ha hm
    simp only [hs.prgIndex]
    exact ⟨by rw [ep, q1], fun k hk => by rw [ep, q2 k hk, fp], fun k => by rw [er, q3, fr], mp q4 hs ht,
      by rw [ev, q5, ev'], by rw [ht.peek (isExternal_of_le ha), q6],
      fun b hb he => by rw [ht.peek hb, q7 b hb he, hs.peek hb]⟩

/-- A store made from a state like `s`, followed by changes outside storage, mapper and events. -/
theorem stored_of {a : Word} {v : Byte} {s u t : State} (hs : MemoryOk s) (hu : SameWorld s u)
    (ht : SameWorld (memWrite a v u) t) : Stored a v s t :=
  (memWrite_stored hs a v).congr (SameWorld.refl s) ((hu.memWrite a v).trans ht)

/-! ### The stack lies in work RAM (R34) -/

theorem isRam_stackAddr (sp : Byte) : isRam (stackAddr sp) = true := by revert sp; decide

theorem isExternal_stackAddr (sp : Byte) : isExternal (stackAddr sp) = false := by revert sp; decide

theorem ramIndex_stackAddr (sp : Byte) : ramIndex (stackAddr sp) = 256 + sp.toNat := by revert sp; decide

theorem isRam_zext16 (v : Byte) : isRam (zext16 v) = true := by revert v; decide

theorem isExternal_zext16 (v : Byte) : isExternal (zext16 v) = false := by revert v; decide

theorem push_eq (v : Byte) (s : State) :
    push v s = { s with ram := s.ram.write (256 + s.sp.toNat) v, sp := s.sp - 1#8 } := by
  unfold push
  rw [memWrite_of_isRam v s (isRam_stackAddr s.sp), ramIndex_stackAddr]
  rfl

theorem push16_eq (w : Word) (s : State) :
    push16 w s =
      { s with
        ram := (s.ram.write (256 + s.sp.toNat) (hi w)).write (256 + (s.sp - 1#8).toNat) (lo w)
        sp := s.sp - 2#8 } := by
  unfold push16
  rw [push_eq, push_eq]
  simp only [State.mk.injEq, and_true, true_and]
  bv_omega

/-- A read outside the external region changes nothing. -/
theorem touch_of_not_isExternal {a : Word} (s : State) (h : isExternal a = false) : s.touch a = s := by
  simp [State.touch, h]

theorem pull_eq (s : State) :
    pull s = (s.ram.read (256 + (s.sp + 1#8).toNat), { s with sp := s.sp + 1#8 }) := by
  simp only [pull, memRead, touch_of_not_isExternal _ (isExternal_stackAddr _),
    peek_of_isRam _ (isRam_stackAddr _), ramIndex_stackAddr]
  rfl

theorem pull16_eq (s : State) :
    pull16 s =
      (mkWord (s.ram.read (256 + (s.sp + 2#8).toNat)) (s.ram.read (256 + (s.sp + 1#8).toNat)),
        { s with sp := s.sp + 2#8 }) := by
  have h : s.sp + 1#8 + 1#8 = s.sp + 2#8 := by bv_omega
  simp only [pull16, pull_eq, h]

/-! ### Vectors -/

theorem isExternal_vectors : isExternal nmiVector = false ∧ isExternal (nmiVector + 1#16) = false ∧
    isExternal resetVector = false ∧ isExternal (resetVector + 1#16) = false ∧
    isExternal irqVector = false ∧ isExternal (irqVector + 1#16) = false := by decide

/-- A 16-bit read outside the external region changes nothing. -/
theorem read16_eq {a : Word} (s : State) (h : isExternal a = false) (h' : isExternal (a + 1#16) = false) :
    read16 a s = (mkWord (s.peek (a + 1#16)) (s.peek a), s) := by
  unfold read16 memRead
  rw [touch_of_not_isExternal s h]
  simp only [touch_of_not_isExternal s h']

/-- The page-wrapping read of a zero-page pointer changes nothing (R110, R111). -/
theorem read16Bug_zext16 (z : Byte) (s : State) :
    read16Bug (zext16 z) s = (mkWord (s.peek (zext16 (z + 1#8))) (s.peek (zext16 z)), s) := by
  unfold read16Bug memRead
  rw [touch_of_not_isExternal s (isExternal_zext16 z), nextInPage_zext16]
  simp only [touch_of_not_isExternal s (isExternal_zext16 (z + 1#8))]

/-! ### Pushing bytes -/

/-- Work RAM after pushing bytes from a stack pointer. -/
def pushBytes (sp : Byte) : List Byte → Memory → Memory
  | [], m => m
  | b :: bs, m => pushBytes (sp - 1#8) bs (m.write (256 + sp.toNat) b)

theorem stackCell_zero (sp : Byte) : stackCell sp 0 = 256 + sp.toNat := by simp [stackCell]

theorem stackCell_succ (sp : Byte) (j : Nat) : stackCell sp (j + 1) = stackCell (sp - 1#8) j := by
  unfold stackCell
  rw [show sp - BitVec.ofNat 8 (j + 1) = sp - 1#8 - BitVec.ofNat 8 j by
    rw [BitVec.ofNat_add]; bv_omega]

theorem stackCell_ne {sp : Byte} {j : Nat} (h : j + 1 < 256) : stackCell sp (j + 1) ≠ stackCell sp 0 := by
  unfold stackCell
  have : (BitVec.ofNat 8 (j + 1)).toNat = j + 1 := by simp; omega
  bv_omega

theorem pushBytes_wf (sp : Byte) (bs : List Byte) {m : Memory} (h : m.wf = true) :
    (pushBytes sp bs m).wf = true := by
  induction bs generalizing sp m with
  | nil => exact h
  | cons b bs ih => exact ih _ (Memory.write_wf h)

theorem pushBytes_below (sp : Byte) (bs : List Byte) {m : Memory} (h : m.below 2048 = true) :
    (pushBytes sp bs m).below 2048 = true := by
  induction bs generalizing sp m with
  | nil => exact h
  | cons b bs ih => exact ih _ (Memory.write_below h (by have := sp.isLt; omega))

theorem pushBytes_other (sp : Byte) (bs : List Byte) (m : Memory) (k : Nat)
    (h : ∀ j, j < bs.length → k ≠ stackCell sp j) : (pushBytes sp bs m).read k = m.read k := by
  induction bs generalizing sp m with
  | nil => rfl
  | cons b bs ih =>
    have h0 := h 0 (by simp)
    rw [stackCell_zero] at h0
    show (pushBytes _ bs _).read k = _
    rw [ih _ _ fun j hj => by rw [← stackCell_succ]; exact h (j + 1) (by simpa using hj)]
    exact Memory.read_write_other b h0

theorem pushBytes_same (sp : Byte) (bs : List Byte) {m : Memory} (hm : m.wf = true) (hlen : bs.length ≤ 255)
    (j : Nat) (h : j < bs.length) : (pushBytes sp bs m).read (stackCell sp j) = bs[j] := by
  induction bs generalizing sp m j with
  | nil => simp at h
  | cons b bs ih =>
    have hlen' : bs.length + 1 ≤ 255 := by simpa using hlen
    show (pushBytes _ bs _).read _ = _
    cases j with
    | zero =>
      rw [pushBytes_other _ _ _ _ fun j hj => by
        rw [← stackCell_succ]; exact (stackCell_ne (by omega)).symm, stackCell_zero]
      exact Memory.read_write_same hm _ _
    | succ j =>
      have hj : j < bs.length := by simpa using h
      rw [stackCell_succ, ih _ (Memory.write_wf hm) (by omega) j hj]
      rfl

/-- What pushing leaves, from the new RAM and stack pointer (R16). -/
theorem pushed_of {bs : List Byte} {s t : State} (hs : MemoryOk s) (hlen : bs.length ≤ 255)
    (hram : t.ram = pushBytes s.sp bs s.ram) (hsp : t.sp = s.sp - BitVec.ofNat 8 bs.length)
    (hprg : t.prg = s.prg) (hmap : SameMapper s t) (hctl : SameControls s t) (hev : t.events = s.events)
    (hlb : t.lastBranch = s.lastBranch) : Pushed bs s t := by
  have hcell : ∀ j, ramIndex (stackAddr (s.sp - BitVec.ofNat 8 j)) = stackCell s.sp j := fun j => ramIndex_stackAddr _
  refine ⟨hsp, fun j h => ⟨?_, ?_⟩, fun k hk => ?_, fun b hb he => ?_, fun k => by rw [hprg], hmap, hctl, hev, hlb⟩
  · rw [hram, pushBytes_same _ _ hs.1 hlen]
  · rw [peek_of_isRam _ (isRam_stackAddr _), hcell, hram, pushBytes_same _ _ hs.1 hlen]
  · rw [hram, pushBytes_other _ _ _ _ hk]
  · by_cases hb' : isRam b = true
    · rw [peek_of_isRam _ hb', peek_of_isRam _ hb', hram, pushBytes_other _ _ _ _ (he hb')]
    · have hle := le_of_not_isRam_not_isExternal (by simpa using hb') hb
      obtain ⟨-, h5, -, -, h8⟩ := hmap
      rw [peek_of_le _ hle, peek_of_le _ hle, hprg]
      simp only [prgIndex, prgOff0, prgOff1, prgMode, prgSelect, h5, h8, hctl.2.2.2.1]

theorem push_ram (v : Byte) (s : State) : (push v s).ram = pushBytes s.sp [v] s.ram := by rw [push_eq]; rfl

theorem push16_ram (w : Word) (s : State) : (push16 w s).ram = pushBytes s.sp [hi w, lo w] s.ram := by
  rw [push16_eq]; rfl

/-- The three pushes of an interrupt entry (R274, R368). -/
theorem pushFrame_eq (w : Word) (v : Byte) (s : State) :
    push v (push16 w s) = { s with ram := pushBytes s.sp [hi w, lo w, v] s.ram, sp := s.sp - 3#8 } := by
  rw [push_eq, push16_eq]
  simp only [pushBytes, State.mk.injEq, true_and, and_true]
  refine ⟨by bv_omega, ?_⟩
  rw [show s.sp - 1#8 - 1#8 = s.sp - 2#8 by bv_omega]

/-- The interrupt sequence as one update of the state: three pushes, P.I, and PC from the vector. -/
theorem takeInterrupt_eq (v : Word) (hv : v = nmiVector ∨ v = irqVector) (b : Bool) (s : State) :
    takeInterrupt v b s =
      { s with
        ram := pushBytes s.sp [hi s.pc, lo s.pc, pushedFlags s.p b] s.ram
        sp := s.sp - 3#8
        p := setFlag .i true s.p
        pc := vectorWord s v } := by
  have hx : isExternal v = false ∧ isExternal (v + 1#16) = false := by rcases hv with rfl | rfl <;> decide
  have hle : 0x8000#16 ≤ v ∧ 0x8000#16 ≤ v + 1#16 := by rcases hv with rfl | rfl <;> decide
  simp only [takeInterrupt, pushFrame_eq]
  rw [read16_eq _ hx.1 hx.2]
  simp only [State.setPC, State.setF, vectorWord, peek_of_le _ hle.1, peek_of_le _ hle.2]
  rfl

/-- The return from interrupt as one update of the state (R275, R373). -/
theorem returnFromInterrupt_eq (s : State) :
    returnFromInterrupt s =
      { s with
        p := pulledFlags (s.ram.read (256 + (s.sp + 1#8).toNat))
        sp := s.sp + 3#8
        pc := mkWord (s.ram.read (256 + (s.sp + 3#8).toNat)) (s.ram.read (256 + (s.sp + 2#8).toNat)) } := by
  have h1 : s.sp + 1#8 + 1#8 = s.sp + 2#8 := by bv_omega
  have h2 : s.sp + 1#8 + 2#8 = s.sp + 3#8 := by bv_omega
  simp only [returnFromInterrupt, pull_eq, pull16_eq, State.setP, State.setPC, h1, h2]

/-- A byte above the stack pointer is a work RAM byte of page one (R34). -/
theorem stackByte_eq (s : State) (n : Nat) : stackByte s n = s.ram.read (256 + (s.sp + BitVec.ofNat 8 n).toNat) := by
  rw [stackByte, peek_of_isRam _ (isRam_stackAddr _), ramIndex_stackAddr]

/-! ### The invariant's parts under a write -/

theorem prgIndex_lt {s : State} (h : s.params.valid = true) (a : Word) : prgIndex s a < s.params.prgSize := by
  simp only [Params.valid, Bool.and_eq_true, decide_eq_true_eq] at h
  obtain ⟨⟨hpos, hmod⟩, -⟩ := h
  have hb : 0 < nprg s.params := by unfold nprg; omega
  have hsz : nprg s.params * 16384 = s.params.prgSize := by unfold nprg; omega
  have hoff : ∀ i : Int, prgBankOffset s.params i + 16384 ≤ nprg s.params * 16384 := by
    intro i
    have h1 : (i % (nprg s.params : Int)).toNat < nprg s.params := by
      have := Int.emod_lt_of_pos i (b := (nprg s.params : Int)) (by omega)
      have := Int.emod_nonneg i (b := (nprg s.params : Int)) (by omega)
      omega
    unfold prgBankOffset; omega
  have hin : inPrgBank a < 16384 := (a.extractLsb' 0 14).isLt
  have h0 : prgOff0 s + 16384 ≤ nprg s.params * 16384 := by unfold prgOff0; split <;> exact hoff _
  have h1 : prgOff1 s + 16384 ≤ nprg s.params * 16384 := by unfold prgOff1; split <;> exact hoff _
  unfold prgIndex
  split <;> omega

theorem ramIndex_lt (a : Word) : ramIndex a < 2048 := (a.extractLsb' 0 11).isLt

theorem memWrite_memoryOk {s : State} (hv : s.params.valid = true) (h : MemoryOk s) (a : Word) (v : Byte) :
    MemoryOk (memWrite a v s) := by
  obtain ⟨h1, h2, h3, h4, h5, h6⟩ := h
  by_cases hr : isRam a = true
  · rw [memWrite_of_isRam v s hr]
    exact ⟨Memory.write_wf h1, h2, h3, Memory.write_below h4 (ramIndex_lt a), h5, h6⟩
  · by_cases he : isExternal a = true
    · rw [memWrite_of_isExternal v s he]
      exact ⟨h1, h2, h3, h4, h5, h6⟩
    · have ha := le_of_not_isRam_not_isExternal (by simpa using hr) (by simpa using he)
      cases hm : s.params.romWriteMode with
      | registerLoad =>
        rw [memWrite_of_registerLoad v s ha hm]
        simp only [MemoryOk, serialWrite_ram, serialWrite_prg, serialWrite_chr, serialWrite_params]
        exact ⟨h1, h2, h3, h4, h5, h6⟩
      | storageWrite =>
        rw [memWrite_of_storageWrite v s ha hm]
        exact ⟨h1, Memory.write_wf h2, h3, h4, Memory.write_below h5 (prgIndex_lt hv a), h6⟩

/-- A shift that is not complete keeps a bit set (R83). -/
theorem shiftIn_ne_zero {sh : BitVec 5} (v : Byte) (h : sh ≠ 0#5) (h0 : sh.getLsbD 0 = false) :
    shiftIn sh v ≠ 0#5 := by
  unfold shiftIn
  cases v.getLsbD 0 <;> simp only [Bool.false_eq_true, if_true, if_false] <;> revert sh <;> decide

theorem serialWrite_sentinelOk {s : State} (h : SentinelOk s) (a : Word) (v : Byte) :
    SentinelOk (serialWrite a v s) := by
  have full : shiftEmpty ≠ 0#5 := by decide
  unfold serialWrite SentinelOk
  split
  · exact full
  · split
    · unfold loadRegister; split <;> exact full
    · exact shiftIn_ne_zero v h (by simp_all)

theorem memWrite_sentinelOk {s : State} (h : SentinelOk s) (a : Word) (v : Byte) : SentinelOk (memWrite a v s) := by
  unfold memWrite
  split
  · exact h
  · split
    · exact h
    · split
      · exact serialWrite_sentinelOk h a v
      · exact h

end Sys2Proof.Machine
end

