-- ==== Sys2Proof/Laws/Operands.lean ====
section
/-! SUPPORT. What the effective-address unit, the advance and the shared instruction shapes do. -/

namespace Sys2Proof.Machine

/-! ### The effective-address unit makes external draws and changes nothing else -/

theorem read16Bug_frame (a : Word) (s : State) :
    (read16Bug a s).2 = { s with extReads := (read16Bug a s).2.extReads } := rfl

/-- The unit leaves everything but the external draw number alone (R75, R102). -/
theorem effAddr_frame (o : Operand) (s : State) :
    (effAddr o s).st = { s with extReads := (effAddr o s).st.extReads } := by
  cases o <;> rfl

/-- Only Indirect reads a pointer outside page zero, so every other mode leaves the state alone. -/
theorem effAddr_st_of_ne_ind {o : Operand} (s : State) (h : ∀ w, o ≠ .ind w) : (effAddr o s).st = s := by
  cases o with
  | ind w => exact absurd rfl (h w)
  | izx l => simp [effAddr, read16Bug_zext16]
  | izy l => simp [effAddr, read16Bug_zext16, indexed]
  | imp | acc | imm _ | zp _ | zpx _ | zpy _ | rel _ | abs _ => rfl
  | abx w | aby w => rfl

/-- `($ll,X)`: the pointer bytes lie at `b1 + X` and the next byte of page zero (R110). -/
theorem effAddr_izx (l : Byte) (s : State) :
    effAddr (.izx l) s =
      ⟨mkWord (s.peek (zext16 (l + s.x + 1#8))) (s.peek (zext16 (l + s.x))), false, s⟩ := by
  simp [effAddr, read16Bug_zext16]

/-- `($ll),Y`: the base lies at `b1` and the next byte of page zero, and Y is added to it (R111). -/
theorem effAddr_izy (l : Byte) (s : State) :
    effAddr (.izy l) s = indexed (mkWord (s.peek (zext16 (l + 1#8))) (s.peek (zext16 l))) s.y s := by
  simp [effAddr, read16Bug_zext16]

/-! ### S4 and S5 -/

theorem start_ea (i : Instr) (s : State) : (start i s).ea = eaOf i.operand s := rfl

theorem start_crossed (i : Instr) (s : State) : (start i s).crossed = crossedOf i.operand s := rfl

theorem start_st (i : Instr) (s : State) :
    (start i s).st = advance i.info (crossedOf i.operand s) (effAddr i.operand s).st := rfl

@[simp] theorem start_st_a (i : Instr) (s : State) : (start i s).st.a = s.a := by
  rw [start_st, effAddr_frame]; rfl
@[simp] theorem start_st_x (i : Instr) (s : State) : (start i s).st.x = s.x := by
  rw [start_st, effAddr_frame]; rfl
@[simp] theorem start_st_y (i : Instr) (s : State) : (start i s).st.y = s.y := by
  rw [start_st, effAddr_frame]; rfl
@[simp] theorem start_st_sp (i : Instr) (s : State) : (start i s).st.sp = s.sp := by
  rw [start_st, effAddr_frame]; rfl
@[simp] theorem start_st_p (i : Instr) (s : State) : (start i s).st.p = s.p := by
  rw [start_st, effAddr_frame]; rfl
@[simp] theorem start_st_stall (i : Instr) (s : State) : (start i s).st.stall = s.stall := by
  rw [start_st, effAddr_frame]; rfl
@[simp] theorem start_st_nmiPending (i : Instr) (s : State) : (start i s).st.nmiPending = s.nmiPending := by
  rw [start_st, effAddr_frame]; rfl
@[simp] theorem start_st_irqPending (i : Instr) (s : State) : (start i s).st.irqPending = s.irqPending := by
  rw [start_st, effAddr_frame]; rfl
@[simp] theorem start_st_lastBranch (i : Instr) (s : State) : (start i s).st.lastBranch = s.lastBranch := by
  rw [start_st, effAddr_frame]; rfl
@[simp] theorem start_st_ram (i : Instr) (s : State) : (start i s).st.ram = s.ram := by
  rw [start_st, effAddr_frame]; rfl
@[simp] theorem start_st_prg (i : Instr) (s : State) : (start i s).st.prg = s.prg := by
  rw [start_st, effAddr_frame]; rfl
@[simp] theorem start_st_chr (i : Instr) (s : State) : (start i s).st.chr = s.chr := by
  rw [start_st, effAddr_frame]; rfl
@[simp] theorem start_st_shift (i : Instr) (s : State) : (start i s).st.shift = s.shift := by
  rw [start_st, effAddr_frame]; rfl
@[simp] theorem start_st_control (i : Instr) (s : State) : (start i s).st.control = s.control := by
  rw [start_st, effAddr_frame]; rfl
@[simp] theorem start_st_chrBank0 (i : Instr) (s : State) : (start i s).st.chrBank0 = s.chrBank0 := by
  rw [start_st, effAddr_frame]; rfl
@[simp] theorem start_st_chrBank1 (i : Instr) (s : State) : (start i s).st.chrBank1 = s.chrBank1 := by
  rw [start_st, effAddr_frame]; rfl
@[simp] theorem start_st_prgBank (i : Instr) (s : State) : (start i s).st.prgBank = s.prgBank := by
  rw [start_st, effAddr_frame]; rfl
@[simp] theorem start_st_params (i : Instr) (s : State) : (start i s).st.params = s.params := by
  rw [start_st, effAddr_frame]; rfl
@[simp] theorem start_st_resetDone (i : Instr) (s : State) : (start i s).st.resetDone = s.resetDone := by
  rw [start_st, effAddr_frame]; rfl
@[simp] theorem start_st_events (i : Instr) (s : State) : (start i s).st.events = s.events := by
  rw [start_st, effAddr_frame]; rfl

@[simp] theorem start_st_pc (i : Instr) (s : State) :
    (start i s).st.pc = s.pc + BitVec.ofNat 16 i.info.advance := by rw [start_st, effAddr_frame]; rfl

@[simp] theorem start_st_cycles (i : Instr) (s : State) :
    (start i s).st.cycles =
      s.cycles + cyc (if crossedOf i.operand s then i.info.pagecycles else 0) + cyc i.info.cycles := by
  rw [start_st, effAddr_frame]; rfl

@[simp] theorem start_st_flag (i : Instr) (s : State) (f : Flag) : (start i s).st.flag f = s.flag f := by
  simp [State.flag]

/-- A read outside the external region does not see S4 and S5. -/
theorem start_st_peek (i : Instr) (s : State) {a : Word} (h : isExternal a = false) :
    (start i s).st.peek a = s.peek a := by
  rw [start_st, effAddr_frame]
  simp only [State.peek, h, Bool.false_eq_true, if_false]
  rfl

/-! ### The operand value -/

/-- `readM` yields the operand value M (R154). -/
theorem readM_fst (i : Instr) (s : State) : (readM i s).1 = operandM i.operand s := by
  unfold readM operandValue operandM start
  cases i.operand <;> rfl

/-- The read of M makes at most one more external draw. -/
theorem readM_frame (i : Instr) (s : State) :
    (readM i s).2 = { (start i s).st with extReads := (readM i s).2.extReads } := by
  unfold readM operandValue
  cases i.operand <;> rfl

@[simp] theorem readM_snd_a (i : Instr) (s : State) : (readM i s).2.a = s.a := by
  rw [readM_frame]; exact start_st_a i s
@[simp] theorem readM_snd_x (i : Instr) (s : State) : (readM i s).2.x = s.x := by
  rw [readM_frame]; exact start_st_x i s
@[simp] theorem readM_snd_y (i : Instr) (s : State) : (readM i s).2.y = s.y := by
  rw [readM_frame]; exact start_st_y i s
@[simp] theorem readM_snd_sp (i : Instr) (s : State) : (readM i s).2.sp = s.sp := by
  rw [readM_frame]; exact start_st_sp i s
@[simp] theorem readM_snd_p (i : Instr) (s : State) : (readM i s).2.p = s.p := by
  rw [readM_frame]; exact start_st_p i s
@[simp] theorem readM_snd_stall (i : Instr) (s : State) : (readM i s).2.stall = s.stall := by
  rw [readM_frame]; exact start_st_stall i s
@[simp] theorem readM_snd_nmiPending (i : Instr) (s : State) : (readM i s).2.nmiPending = s.nmiPending := by
  rw [readM_frame]; exact start_st_nmiPending i s
@[simp] theorem readM_snd_irqPending (i : Instr) (s : State) : (readM i s).2.irqPending = s.irqPending := by
  rw [readM_frame]; exact start_st_irqPending i s
@[simp] theorem readM_snd_lastBranch (i : Instr) (s : State) : (readM i s).2.lastBranch = s.lastBranch := by
  rw [readM_frame]; exact start_st_lastBranch i s
@[simp] theorem readM_snd_ram (i : Instr) (s : State) : (readM i s).2.ram = s.ram := by
  rw [readM_frame]; exact start_st_ram i s
@[simp] theorem readM_snd_prg (i : Instr) (s : State) : (readM i s).2.prg = s.prg := by
  rw [readM_frame]; exact start_st_prg i s
@[simp] theorem readM_snd_chr (i : Instr) (s : State) : (readM i s).2.chr = s.chr := by
  rw [readM_frame]; exact start_st_chr i s
@[simp] theorem readM_snd_shift (i : Instr) (s : State) : (readM i s).2.shift = s.shift := by
  rw [readM_frame]; exact start_st_shift i s
@[simp] theorem readM_snd_control (i : Instr) (s : State) : (readM i s).2.control = s.control := by
  rw [readM_frame]; exact start_st_control i s
@[simp] theorem readM_snd_chrBank0 (i : Instr) (s : State) : (readM i s).2.chrBank0 = s.chrBank0 := by
  rw [readM_frame]; exact start_st_chrBank0 i s
@[simp] theorem readM_snd_chrBank1 (i : Instr) (s : State) : (readM i s).2.chrBank1 = s.chrBank1 := by
  rw [readM_frame]; exact start_st_chrBank1 i s
@[simp] theorem readM_snd_prgBank (i : Instr) (s : State) : (readM i s).2.prgBank = s.prgBank := by
  rw [readM_frame]; exact start_st_prgBank i s
@[simp] theorem readM_snd_params (i : Instr) (s : State) : (readM i s).2.params = s.params := by
  rw [readM_frame]; exact start_st_params i s
@[simp] theorem readM_snd_resetDone (i : Instr) (s : State) : (readM i s).2.resetDone = s.resetDone := by
  rw [readM_frame]; exact start_st_resetDone i s
@[simp] theorem readM_snd_events (i : Instr) (s : State) : (readM i s).2.events = s.events := by
  rw [readM_frame]; exact start_st_events i s

@[simp] theorem readM_snd_pc (i : Instr) (s : State) :
    (readM i s).2.pc = s.pc + BitVec.ofNat 16 i.info.advance := by
  rw [readM_frame]; exact start_st_pc i s

@[simp] theorem readM_snd_cycles (i : Instr) (s : State) :
    (readM i s).2.cycles =
      s.cycles + cyc (if crossedOf i.operand s then i.info.pagecycles else 0) + cyc i.info.cycles := by
  rw [readM_frame]; exact start_st_cycles i s

@[simp] theorem readM_snd_flag (i : Instr) (s : State) (f : Flag) : (readM i s).2.flag f = s.flag f := by
  simp [State.flag]

/-! ### What S4, S5 and the read of M leave alone -/

theorem start_world (i : Instr) (s : State) : SameWorld s (start i s).st := by
  refine ⟨?_, ?_, ?_, ⟨?_, ?_, ?_, ?_, ?_⟩, ?_, ?_⟩ <;> simp

theorem start_controls (i : Instr) (s : State) : SameControls s (start i s).st := by
  refine ⟨?_, ?_, ?_, ?_, ?_, ?_⟩ <;> simp

theorem readM_world (i : Instr) (s : State) : SameWorld s (readM i s).2 := by
  refine ⟨?_, ?_, ?_, ⟨?_, ?_, ?_, ?_, ?_⟩, ?_, ?_⟩ <;> simp

theorem readM_controls (i : Instr) (s : State) : SameControls s (readM i s).2 := by
  refine ⟨?_, ?_, ?_, ?_, ?_, ?_⟩ <;> simp

/-- `RestSame` from agreement on storage, controls and the watchdog. -/
theorem restSame_of {s t : State} (h : SameWorld s t) (hc : SameControls s t) (hl : t.lastBranch = s.lastBranch) :
    RestSame s t := ⟨⟨h.sameBytes, h.2.2.2.1, hc, h.2.2.2.2.2⟩, hl⟩

theorem cyc_add (m n : Nat) : cyc m + cyc n = cyc (m + n) := (BitVec.ofNat_add ..).symm

/-- PC and cycles after S4 and S5, from the instruction's length and cost. -/
theorem start_moved {i : Instr} {s : State} {n c : Nat} (hn : i.info.advance = n)
    (hc : (if crossedOf i.operand s then i.info.pagecycles else 0) + i.info.cycles = c) :
    Moved n c s (start i s).st := by
  refine ⟨by rw [start_st_pc, hn], ?_⟩
  rw [start_st_cycles, BitVec.add_assoc, cyc_add, hc]
  rfl

theorem readM_moved {i : Instr} {s : State} {n c : Nat} (hn : i.info.advance = n)
    (hc : (if crossedOf i.operand s then i.info.pagecycles else 0) + i.info.cycles = c) :
    Moved n c s (readM i s).2 := by
  refine ⟨by rw [readM_snd_pc, hn], ?_⟩
  rw [readM_snd_cycles, BitVec.add_assoc, cyc_add, hc]
  rfl

end Sys2Proof.Machine
end

