-- ==== Sys2Proof/Laws/Step.lean ====
section
/-! SUPPORT. What running one instruction can do, said once for all of them (`exec_effect`), and the same for
interrupt service and fetching. -/

namespace Sys2Proof.Machine

/-! ### The flags that no instruction but PLP and RTI writes (R37) -/

/-- A flags word with U set and B clear. -/
def PFlagsOk (p : Byte) : Prop := getFlag .u p = true ∧ getFlag .b p = false

theorem pFlagsOk_setFlag {f : Flag} (v : Bool) {p : Byte} (hu : f ≠ .u) (hb : f ≠ .b) (h : PFlagsOk p) :
    PFlagsOk (setFlag f v p) := by
  simp only [PFlagsOk, getFlag_setFlag, Ne.symm hu, Ne.symm hb, if_false]; exact h

theorem pFlagsOk_nzFlags (v : Byte) {p : Byte} (h : PFlagsOk p) : PFlagsOk (nzFlags v p) :=
  pFlagsOk_setFlag _ (by decide) (by decide) (pFlagsOk_setFlag _ (by decide) (by decide) h)

theorem pFlagsOk_shiftFlags (r : Byte) (c : Bool) {p : Byte} (h : PFlagsOk p) : PFlagsOk (shiftFlags r c p) :=
  pFlagsOk_nzFlags _ (pFlagsOk_setFlag _ (by decide) (by decide) h)

theorem pFlagsOk_adcFlags (a m : Byte) {p : Byte} (h : PFlagsOk p) : PFlagsOk (adcFlags a m p) := by
  simp only [PFlagsOk, getFlag_adcFlags]; exact h

theorem pFlagsOk_sbcFlags (a m : Byte) {p : Byte} (h : PFlagsOk p) : PFlagsOk (sbcFlags a m p) := by
  simp only [PFlagsOk, getFlag_sbcFlags]; exact h

theorem pFlagsOk_cmpFlags (r m : Byte) {p : Byte} (h : PFlagsOk p) : PFlagsOk (cmpFlags r m p) := by
  simp only [PFlagsOk, getFlag_cmpFlags]; exact h

theorem pFlagsOk_bitFlags (a m : Byte) {p : Byte} (h : PFlagsOk p) : PFlagsOk (bitFlags a m p) := by
  simp only [PFlagsOk, getFlag_bitFlags]; exact h

theorem pFlagsOk_pulledFlags (v : Byte) : PFlagsOk (pulledFlags v) := by
  simp [PFlagsOk, getFlag_pulledFlags]

/-! ### The effect of one instruction -/

/-- What an instruction does to memory, mapper and events: nothing, one write, up to three pushes, or the illegal
opcode's diagnostic. -/
def WorldEffect (s t : State) : Prop :=
  SameWorld s t ∨
  (∃ a v, SameWorld (memWrite a v s) t) ∨
  (∃ bs : List Byte, bs.length ≤ 3 ∧ SameWorld { s with ram := pushBytes s.sp bs s.ram } t) ∨
  (∃ op pc, SameWorld (s.emit (.illegalOpcode op pc)) t)

/-- What an instruction does: to memory, mapper and events as above, nothing to requests, stall, parameters and CHR,
nothing to P.U and P.B that would break R37, and nothing to the watchdog when there is none. -/
def Effect (s t : State) : Prop :=
  WorldEffect s t ∧ SameControls s t ∧ (PFlagsOk s.p → PFlagsOk t.p) ∧
  (s.params.selfLoopAbort = false → t.lastBranch = s.lastBranch)

theorem SameControls.trans {s t u : State} (h : SameControls s t) (h' : SameControls t u) : SameControls s u := by
  obtain ⟨h1, h2, h3, h4, h5, h6⟩ := h
  obtain ⟨k1, k2, k3, k4, k5, k6⟩ := h'
  exact ⟨k1.trans h1, k2.trans h2, k3.trans h3, k4.trans h4, k5.trans h5, k6.trans h6⟩

theorem memWrite_controls (a : Word) (v : Byte) (s : State) : SameControls s (memWrite a v s) := by
  refine ⟨?_, ?_, ?_, ?_, ?_, ?_⟩ <;> simp

/-- An update that keeps memory and controls, as S6 of most instructions. -/
def Quiet (s t : State) : Prop :=
  SameWorld s t ∧ SameControls s t ∧ (PFlagsOk s.p → PFlagsOk t.p) ∧ t.lastBranch = s.lastBranch

theorem Quiet.effect {s u t : State} (hw : SameWorld s u) (hc : SameControls s u) (hp : u.p = s.p)
    (hl : u.lastBranch = s.lastBranch) (h : Quiet u t) : Effect s t :=
  ⟨.inl (hw.trans h.1), hc.trans h.2.1, fun hf => h.2.2.1 (hp ▸ hf), fun _ => h.2.2.2.trans hl⟩

theorem readForm_effect {i : Instr} {f : Byte → State → State} {s t : State} (hf : ∀ v u, Quiet u (f v u))
    (h : readForm i f s = .next t) : Effect s t := by
  simp only [readForm, Host.Outcome.next.injEq] at h
  subst h
  exact (hf _ _).effect (readM_world i s) (readM_controls i s) (readM_snd_p i s) (readM_snd_lastBranch i s)

theorem impliedForm_quiet {i : Instr} {f : State → State} {s t : State} (hf : ∀ u, Quiet u (f u))
    (h : impliedForm i f s = .next t) : Effect s t := by
  simp only [impliedForm, Host.Outcome.next.injEq] at h
  subst h
  exact (hf _).effect (start_world i s) (start_controls i s) (start_st_p i s) (start_st_lastBranch i s)

theorem storeForm_effect {i : Instr} {reg : State → Byte} {s t : State} (h : storeForm i reg s = .next t) :
    Effect s t := by
  simp only [storeForm, Host.Outcome.next.injEq] at h
  subst h
  refine ⟨.inr (.inl ⟨_, _, (start_world i s).memWrite _ _⟩), (start_controls i s).trans (memWrite_controls ..), ?_, ?_⟩
  · intro hf; simpa using hf
  · intro _; simp

theorem memRead_world (a : Word) (s : State) : SameWorld s (memRead a s).2 :=
  ⟨rfl, rfl, rfl, ⟨rfl, rfl, rfl, rfl, rfl⟩, rfl, rfl⟩

theorem memRead_controls (a : Word) (s : State) : SameControls s (memRead a s).2 := ⟨rfl, rfl, rfl, rfl, rfl, rfl⟩

theorem operandValue_snd (o : Operand) (ea : Word) (s : State) :
    (operandValue o ea s).2 = { s with extReads := (operandValue o ea s).2.extReads } := by
  cases o <;> rfl

theorem operandValue_world (o : Operand) (ea : Word) (s : State) : SameWorld s (operandValue o ea s).2 := by
  rw [operandValue_snd]; exact ⟨rfl, rfl, rfl, ⟨rfl, rfl, rfl, rfl, rfl⟩, rfl, rfl⟩

theorem operandValue_controls (o : Operand) (ea : Word) (s : State) : SameControls s (operandValue o ea s).2 := by
  rw [operandValue_snd]; exact ⟨rfl, rfl, rfl, rfl, rfl, rfl⟩

theorem rmwForm_effect {i : Instr} {f : Byte → Byte} {s t : State} (h : rmwForm i f s = .next t) : Effect s t := by
  simp only [rmwForm, Host.Outcome.next.injEq] at h
  subst h
  have hw := (start_world i s).trans (memRead_world (start i s).ea _)
  refine ⟨.inr (.inl ⟨_, _, (hw.memWrite _ _).trans ⟨rfl, rfl, rfl, ⟨rfl, rfl, rfl, rfl, rfl⟩, rfl, rfl⟩⟩),
    ((start_controls i s).trans (memRead_controls _ _)).trans ((memWrite_controls ..).trans ⟨rfl, rfl, rfl, rfl, rfl, rfl⟩),
    fun hf => ?_, fun _ => ?_⟩
  · exact pFlagsOk_nzFlags _ (by simpa [memRead] using hf)
  · simp [memRead]

theorem shiftForm_effect {i : Instr} {f : Byte → Bool → Byte × Bool} {s t : State} (h : shiftForm i f s = .next t) :
    Effect s t := by
  simp only [shiftForm, Host.Outcome.next.injEq] at h
  subst h
  have hw := (start_world i s).trans (operandValue_world i.operand (start i s).ea _)
  have hc := (start_controls i s).trans (operandValue_controls i.operand (start i s).ea _)
  have hp : (operandValue i.operand (start i s).ea (start i s).st).2.p = s.p := by rw [operandValue_snd]; simp
  have hl : (operandValue i.operand (start i s).ea (start i s).st).2.lastBranch = s.lastBranch := by
    rw [operandValue_snd]; simp
  by_cases ha : i.operand = .acc
  · simp only [ha, if_true] at hw hc hp hl ⊢
    refine ⟨.inl (hw.trans ⟨rfl, rfl, rfl, ⟨rfl, rfl, rfl, rfl, rfl⟩, rfl, rfl⟩), hc.trans ⟨rfl, rfl, rfl, rfl, rfl, rfl⟩,
      fun hf => pFlagsOk_shiftFlags _ _ (by simpa [hp] using hf), fun _ => hl⟩
  · simp only [ha, if_false] at hw hc hp hl ⊢
    refine ⟨.inr (.inl ⟨_, _, (hw.memWrite _ _).trans ⟨rfl, rfl, rfl, ⟨rfl, rfl, rfl, rfl, rfl⟩, rfl, rfl⟩⟩),
      hc.trans ((memWrite_controls ..).trans ⟨rfl, rfl, rfl, rfl, rfl, rfl⟩),
      fun hf => pFlagsOk_shiftFlags _ _ (by simpa [hp] using hf), fun _ => by simpa using hl⟩

theorem branchForm_effect {i : Instr} {cond : State → Bool} {s t : State} (h : branchForm i cond s = .next t) :
    Effect s t := by
  have hp := start_st_params i s
  have hl := start_st_lastBranch i s
  have hf := start_st_p i s
  unfold branchForm at h
  simp only [hp, hl] at h
  split at h
  · split at h
    · exact absurd h (by simp)
    · simp only [Host.Outcome.next.injEq] at h
      subst h
      refine ⟨.inl ((start_world i s).trans ⟨rfl, rfl, rfl, ⟨rfl, rfl, rfl, rfl, rfl⟩, hp.symm, rfl⟩),
        (start_controls i s).trans ⟨rfl, rfl, rfl, hp.symm, rfl, rfl⟩, fun h => ?_, fun h => by simp [h]⟩
      simpa [hf] using h
  · simp only [Host.Outcome.next.injEq] at h
    subst h
    refine ⟨.inl ((start_world i s).trans ⟨rfl, rfl, rfl, ⟨rfl, rfl, rfl, rfl, rfl⟩, hp.symm, rfl⟩),
      (start_controls i s).trans ⟨rfl, rfl, rfl, hp.symm, rfl, rfl⟩, fun h => ?_, fun h => by simp [h]⟩
    simpa [hf] using h

/-- A state whose RAM is what pushing bytes leaves, and which else differs in registers only. -/
theorem pushes_effect {s u t : State} {bs : List Byte} (hlen : bs.length ≤ 3) (hw : SameWorld s u)
    (hc : SameControls s u) (hram : t.ram = pushBytes s.sp bs s.ram) (hprg : t.prg = u.prg) (hmap : SameMapper u t)
    (hc' : SameControls u t) (hev : t.events = u.events) (hp : PFlagsOk s.p → PFlagsOk t.p)
    (hl : t.lastBranch = s.lastBranch) : Effect s t := by
  obtain ⟨-, w2, w3, ⟨w4, w5, w6, w7, w8⟩, w9, w10⟩ := hw
  obtain ⟨m4, m5, m6, m7, m8⟩ := hmap
  have hcc := hc.trans hc'
  exact ⟨.inr (.inr (.inl ⟨bs, hlen, hram, hprg.trans w2, hcc.2.2.2.2.1,
    ⟨m4.trans w4, m5.trans w5, m6.trans w6, m7.trans w7, m8.trans w8⟩, hcc.2.2.2.1, hev.trans w10⟩)), hcc, hp, fun _ => hl⟩

/-! ### The updates S6 makes -/

theorem quiet_setA (v : Byte) (u : State) : Quiet u ((u.setA v).setNZ v) := ⟨⟨rfl, rfl, rfl, ⟨rfl, rfl, rfl, rfl, rfl⟩, rfl, rfl⟩, ⟨rfl, rfl, rfl, rfl, rfl, rfl⟩, pFlagsOk_nzFlags v, rfl⟩

theorem quiet_setX (v : Byte) (u : State) : Quiet u ((u.setX v).setNZ v) := ⟨⟨rfl, rfl, rfl, ⟨rfl, rfl, rfl, rfl, rfl⟩, rfl, rfl⟩, ⟨rfl, rfl, rfl, rfl, rfl, rfl⟩, pFlagsOk_nzFlags v, rfl⟩

theorem quiet_setY (v : Byte) (u : State) : Quiet u ((u.setY v).setNZ v) := ⟨⟨rfl, rfl, rfl, ⟨rfl, rfl, rfl, rfl, rfl⟩, rfl, rfl⟩, ⟨rfl, rfl, rfl, rfl, rfl, rfl⟩, pFlagsOk_nzFlags v, rfl⟩

theorem quiet_setP {u : State} {p : Byte} (hp : PFlagsOk u.p → PFlagsOk p) : Quiet u (u.setP p) := ⟨⟨rfl, rfl, rfl, ⟨rfl, rfl, rfl, rfl, rfl⟩, rfl, rfl⟩, ⟨rfl, rfl, rfl, rfl, rfl, rfl⟩, hp, rfl⟩

theorem quiet_setAP {u : State} (a : Byte) {p : Byte} (hp : PFlagsOk u.p → PFlagsOk p) :
    Quiet u ((u.setA a).setP p) := ⟨⟨rfl, rfl, rfl, ⟨rfl, rfl, rfl, rfl, rfl⟩, rfl, rfl⟩, ⟨rfl, rfl, rfl, rfl, rfl, rfl⟩, hp, rfl⟩

theorem quiet_setF (u : State) {f : Flag} (b : Bool) (hu : f ≠ .u) (hb : f ≠ .b) : Quiet u (u.setF f b) :=
  ⟨⟨rfl, rfl, rfl, ⟨rfl, rfl, rfl, rfl, rfl⟩, rfl, rfl⟩, ⟨rfl, rfl, rfl, rfl, rfl, rfl⟩, pFlagsOk_setFlag b hu hb, rfl⟩

theorem quiet_setSP (u : State) (v : Byte) : Quiet u (u.setSP v) := ⟨⟨rfl, rfl, rfl, ⟨rfl, rfl, rfl, rfl, rfl⟩, rfl, rfl⟩, ⟨rfl, rfl, rfl, rfl, rfl, rfl⟩, id, rfl⟩

theorem quiet_setPC (u : State) (w : Word) : Quiet u (u.setPC w) := ⟨⟨rfl, rfl, rfl, ⟨rfl, rfl, rfl, rfl, rfl⟩, rfl, rfl⟩, ⟨rfl, rfl, rfl, rfl, rfl, rfl⟩, id, rfl⟩

theorem quiet_pla (u : State) : Quiet u (((pull u).2.setA (pull u).1).setNZ (pull u).1) := by
  rw [pull_eq]; exact ⟨⟨rfl, rfl, rfl, ⟨rfl, rfl, rfl, rfl, rfl⟩, rfl, rfl⟩, ⟨rfl, rfl, rfl, rfl, rfl, rfl⟩, pFlagsOk_nzFlags _, rfl⟩

theorem quiet_plp (u : State) : Quiet u ((pull u).2.setP (pulledFlags (pull u).1)) := by
  rw [pull_eq]; exact ⟨⟨rfl, rfl, rfl, ⟨rfl, rfl, rfl, rfl, rfl⟩, rfl, rfl⟩, ⟨rfl, rfl, rfl, rfl, rfl, rfl⟩, fun _ => pFlagsOk_pulledFlags _, rfl⟩

theorem quiet_rts (u : State) : Quiet u ((pull16 u).2.setPC ((pull16 u).1 + 1#16)) := by
  rw [pull16_eq]; exact ⟨⟨rfl, rfl, rfl, ⟨rfl, rfl, rfl, rfl, rfl⟩, rfl, rfl⟩, ⟨rfl, rfl, rfl, rfl, rfl, rfl⟩, id, rfl⟩

theorem quiet_rti (u : State) : Quiet u (returnFromInterrupt u) := by
  rw [returnFromInterrupt_eq]; exact ⟨⟨rfl, rfl, rfl, ⟨rfl, rfl, rfl, rfl, rfl⟩, rfl, rfl⟩, ⟨rfl, rfl, rfl, rfl, rfl, rfl⟩, fun _ => pFlagsOk_pulledFlags _, rfl⟩

theorem push_effect {s u : State} (v : Byte) (hw : SameWorld s u) (hc : SameControls s u) (hp : u.p = s.p)
    (hsp : u.sp = s.sp) (hl : u.lastBranch = s.lastBranch) : Effect s (push v u) := by
  rw [push_eq]
  exact pushes_effect (bs := [v]) (by simp) hw hc (by simp only [hsp, hw.1]; rfl) rfl ⟨rfl, rfl, rfl, rfl, rfl⟩ ⟨rfl, rfl, rfl, rfl, rfl, rfl⟩ rfl
    (fun h => by rw [hp]; exact h) hl

theorem push16_effect {s u : State} (w pc : Word) (hw : SameWorld s u) (hc : SameControls s u) (hp : u.p = s.p)
    (hsp : u.sp = s.sp) (hl : u.lastBranch = s.lastBranch) : Effect s ((push16 w u).setPC pc) := by
  rw [push16_eq]
  exact pushes_effect (bs := [hi w, lo w]) (by simp) hw hc (by simp only [hsp, hw.1]; rfl) rfl ⟨rfl, rfl, rfl, rfl, rfl⟩ ⟨rfl, rfl, rfl, rfl, rfl, rfl⟩
    rfl (fun h => by rw [State.setPC_p, hp]; exact h) hl

theorem takeInterrupt_effect {s u : State} {v : Word} (hv : v = nmiVector ∨ v = irqVector) (b : Bool)
    (hw : SameWorld s u) (hc : SameControls s u) (hp : u.p = s.p) (hsp : u.sp = s.sp)
    (hl : u.lastBranch = s.lastBranch) : Effect s (takeInterrupt v b u) := by
  rw [takeInterrupt_eq _ hv]
  exact pushes_effect (bs := [hi u.pc, lo u.pc, pushedFlags u.p b]) (by simp) hw hc (by simp only [hsp, hw.1]) rfl
    ⟨rfl, rfl, rfl, rfl, rfl⟩ ⟨rfl, rfl, rfl, rfl, rfl, rfl⟩ rfl
    (fun h => by rw [hp]; exact pFlagsOk_setFlag _ (by decide) (by decide) h) hl

theorem illegal_effect (op : Byte) {s t : State} (h : execIllegal op s = .next t) : Effect s t := by
  simp only [execIllegal, Host.Outcome.next.injEq] at h
  subst h
  exact ⟨.inr (.inr (.inr ⟨op, s.pc, ⟨rfl, rfl, rfl, ⟨rfl, rfl, rfl, rfl, rfl⟩, rfl, rfl⟩⟩)), ⟨rfl, rfl, rfl, rfl, rfl, rfl⟩, id, fun _ => rfl⟩

/-- What any instruction that completes has done. -/
theorem exec_effect {i : Instr} {s t : State} (h : exec i s = .next t) : Effect s t := by
  have started : ∀ {i : Instr} {u : State}, (start i s).st = u →
      SameWorld s u ∧ SameControls s u ∧ u.p = s.p ∧ u.sp = s.sp ∧ u.lastBranch = s.lastBranch := by
    rintro i u rfl
    exact ⟨start_world i s, start_controls i s, start_st_p i s, start_st_sp i s, start_st_lastBranch i s⟩
  cases i with
  | lda m => simp only [exec, execLda] at h; exact readForm_effect quiet_setA h
  | ldx m => simp only [exec, execLdx] at h; exact readForm_effect quiet_setX h
  | ldy m => simp only [exec, execLdy] at h; exact readForm_effect quiet_setY h
  | sta m => simp only [exec, execSta] at h; exact storeForm_effect h
  | stx m => simp only [exec, execStx] at h; exact storeForm_effect h
  | sty m => simp only [exec, execSty] at h; exact storeForm_effect h
  | tax => simp only [exec, execTax] at h; exact impliedForm_quiet (fun u => quiet_setX u.a u) h
  | tay => simp only [exec, execTay] at h; exact impliedForm_quiet (fun u => quiet_setY u.a u) h
  | txa => simp only [exec, execTxa] at h; exact impliedForm_quiet (fun u => quiet_setA u.x u) h
  | tya => simp only [exec, execTya] at h; exact impliedForm_quiet (fun u => quiet_setA u.y u) h
  | tsx => simp only [exec, execTsx] at h; exact impliedForm_quiet (fun u => quiet_setX u.sp u) h
  | txs => simp only [exec, execTxs] at h; exact impliedForm_quiet (fun u => quiet_setSP u u.x) h
  | pha =>
    simp only [exec, execPha] at h
    simp only [impliedForm, Host.Outcome.next.injEq] at h
    subst h
    obtain ⟨h1, h2, h3, h4, h5⟩ := started (i := .pha) rfl
    exact push_effect _ h1 h2 h3 h4 h5
  | php =>
    simp only [exec, execPhp] at h
    simp only [impliedForm, Host.Outcome.next.injEq] at h
    subst h
    obtain ⟨h1, h2, h3, h4, h5⟩ := started (i := .php) rfl
    exact push_effect _ h1 h2 h3 h4 h5
  | pla => simp only [exec, execPla] at h; exact impliedForm_quiet quiet_pla h
  | plp => simp only [exec, execPlp] at h; exact impliedForm_quiet quiet_plp h
  | adc m => simp only [exec, execAdc] at h; exact readForm_effect (fun _ u => quiet_setAP _ (pFlagsOk_adcFlags _ _)) h
  | sbc m => simp only [exec, execSbc] at h; exact readForm_effect (fun _ u => quiet_setAP _ (pFlagsOk_sbcFlags _ _)) h
  | and m => simp only [exec, execAnd] at h; exact readForm_effect (fun v u => quiet_setA (u.a &&& v) u) h
  | ora m => simp only [exec, execOra] at h; exact readForm_effect (fun v u => quiet_setA (u.a ||| v) u) h
  | eor m => simp only [exec, execEor] at h; exact readForm_effect (fun v u => quiet_setA (u.a ^^^ v) u) h
  | bit m => simp only [exec, execBit] at h; exact readForm_effect (fun _ u => quiet_setP (pFlagsOk_bitFlags _ _)) h
  | cmp m => simp only [exec, execCmp] at h; exact readForm_effect (fun _ u => quiet_setP (pFlagsOk_cmpFlags _ _)) h
  | cpx m => simp only [exec, execCpx] at h; exact readForm_effect (fun _ u => quiet_setP (pFlagsOk_cmpFlags _ _)) h
  | cpy m => simp only [exec, execCpy] at h; exact readForm_effect (fun _ u => quiet_setP (pFlagsOk_cmpFlags _ _)) h
  | inc m => simp only [exec, execInc] at h; exact rmwForm_effect h
  | dec m => simp only [exec, execDec] at h; exact rmwForm_effect h
  | inx => simp only [exec, execInx] at h; exact impliedForm_quiet (fun u => quiet_setX (u.x + 1#8) u) h
  | iny => simp only [exec, execIny] at h; exact impliedForm_quiet (fun u => quiet_setY (u.y + 1#8) u) h
  | dex => simp only [exec, execDex] at h; exact impliedForm_quiet (fun u => quiet_setX (u.x - 1#8) u) h
  | dey => simp only [exec, execDey] at h; exact impliedForm_quiet (fun u => quiet_setY (u.y - 1#8) u) h
  | asl m => simp only [exec, execAsl] at h; exact shiftForm_effect h
  | lsr m => simp only [exec, execLsr] at h; exact shiftForm_effect h
  | rol m => simp only [exec, execRol] at h; exact shiftForm_effect h
  | ror m => simp only [exec, execRor] at h; exact shiftForm_effect h
  | bcc d => simp only [exec, execBcc] at h; exact branchForm_effect h
  | bcs d => simp only [exec, execBcs] at h; exact branchForm_effect h
  | beq d => simp only [exec, execBeq] at h; exact branchForm_effect h
  | bmi d => simp only [exec, execBmi] at h; exact branchForm_effect h
  | bne d => simp only [exec, execBne] at h; exact branchForm_effect h
  | bpl d => simp only [exec, execBpl] at h; exact branchForm_effect h
  | bvc d => simp only [exec, execBvc] at h; exact branchForm_effect h
  | bvs d => simp only [exec, execBvs] at h; exact branchForm_effect h
  | jmp m =>
    simp only [exec, execJmp] at h
    simp only [Host.Outcome.next.injEq] at h
    subst h
    obtain ⟨h1, h2, h3, h4, h5⟩ := started (i := .jmp m) rfl
    exact Quiet.effect h1 h2 h3 h5 (quiet_setPC _ _)
  | jsr w =>
    simp only [exec, execJsr] at h
    simp only [Host.Outcome.next.injEq] at h
    subst h
    obtain ⟨h1, h2, h3, h4, h5⟩ := started (i := .jsr w) rfl
    exact push16_effect _ _ h1 h2 h3 h4 h5
  | rts => simp only [exec, execRts] at h; exact impliedForm_quiet quiet_rts h
  | brk =>
    simp only [exec, execBrk] at h
    simp only [impliedForm, Host.Outcome.next.injEq] at h
    subst h
    obtain ⟨h1, h2, h3, h4, h5⟩ := started (i := .brk) rfl
    exact takeInterrupt_effect (.inr rfl) _ h1 h2 h3 h4 h5
  | rti => simp only [exec, execRti] at h; exact impliedForm_quiet quiet_rti h
  | clc => simp only [exec, execClc] at h; exact impliedForm_quiet (fun u => quiet_setF u false (by decide) (by decide)) h
  | cld => simp only [exec, execCld] at h; exact impliedForm_quiet (fun u => quiet_setF u false (by decide) (by decide)) h
  | cli => simp only [exec, execCli] at h; exact impliedForm_quiet (fun u => quiet_setF u false (by decide) (by decide)) h
  | clv => simp only [exec, execClv] at h; exact impliedForm_quiet (fun u => quiet_setF u false (by decide) (by decide)) h
  | sec => simp only [exec, execSec] at h; exact impliedForm_quiet (fun u => quiet_setF u true (by decide) (by decide)) h
  | sed => simp only [exec, execSed] at h; exact impliedForm_quiet (fun u => quiet_setF u true (by decide) (by decide)) h
  | sei => simp only [exec, execSei] at h; exact impliedForm_quiet (fun u => quiet_setF u true (by decide) (by decide)) h
  | nop => simp only [exec, execNop] at h; exact impliedForm_quiet (fun u => ⟨SameWorld.refl u, ⟨rfl, rfl, rfl, rfl, rfl, rfl⟩, id, rfl⟩) h
  | illegal op => exact illegal_effect op h

/-- Only a taken branch can end an instruction without a next state, and only with the watchdog's abort (R152, R361). -/
theorem exec_cases (i : Instr) (s : State) :
    (∃ t, exec i s = .next t) ∨
    (exec i s = .fault (.selfLoop s.pc) ∧ s.params.selfLoopAbort = true ∧ s.lastBranch = some (s.pc, s.pc)) := by
  have branch : ∀ (i : Instr) (cond : State → Bool), (∃ t, branchForm i cond s = .next t) ∨
      (branchForm i cond s = .fault (.selfLoop s.pc) ∧ s.params.selfLoopAbort = true ∧
        s.lastBranch = some (s.pc, s.pc)) := by
    intro i cond
    unfold branchForm
    simp only [start_st_params, start_st_lastBranch]
    split
    · split
      · rename_i h
        simp only [Bool.and_eq_true, decide_eq_true_eq] at h
        exact .inr ⟨rfl, h.1.1, h.2⟩
      · exact .inl ⟨_, rfl⟩
    · exact .inl ⟨_, rfl⟩
  cases i
  case bcc d => simp only [exec, execBcc]; exact branch _ _
  case bcs d => simp only [exec, execBcs]; exact branch _ _
  case beq d => simp only [exec, execBeq]; exact branch _ _
  case bmi d => simp only [exec, execBmi]; exact branch _ _
  case bne d => simp only [exec, execBne]; exact branch _ _
  case bpl d => simp only [exec, execBpl]; exact branch _ _
  case bvc d => simp only [exec, execBvc]; exact branch _ _
  case bvs d => simp only [exec, execBvs]; exact branch _ _
  all_goals exact .inl ⟨_, rfl⟩

/-! ### Fetching and interrupt service -/

theorem fetch_frame (s : State) : (fetch s).2 = { s with extReads := (fetch s).2.extReads } := by
  unfold fetch
  simp only
  split <;> split <;> rfl

theorem fetch_world (s : State) : SameWorld s (fetch s).2 := by
  rw [fetch_frame]; exact ⟨rfl, rfl, rfl, ⟨rfl, rfl, rfl, rfl, rfl⟩, rfl, rfl⟩

theorem fetch_controls (s : State) : SameControls s (fetch s).2 := by
  rw [fetch_frame]; exact ⟨rfl, rfl, rfl, rfl, rfl, rfl⟩

/-- S2's three cases, the entry written as one update of the state (R366, R368). -/
theorem serviceInterrupt_cases (s : State) :
    (s.nmiPending = true ∧
      serviceInterrupt s =
        { s with
          nmiPending := false
          ram := pushBytes s.sp [hi s.pc, lo s.pc, pushedFlags s.p s.params.hwIntPushB] s.ram
          sp := s.sp - 3#8, p := setFlag .i true s.p, pc := vectorWord s nmiVector, cycles := s.cycles + cyc 7 }) ∨
    (s.nmiPending = false ∧ s.irqPending = true ∧ s.flag .i = false ∧
      serviceInterrupt s =
        { s with
          irqPending := false
          ram := pushBytes s.sp [hi s.pc, lo s.pc, pushedFlags s.p s.params.hwIntPushB] s.ram
          sp := s.sp - 3#8, p := setFlag .i true s.p, pc := vectorWord s irqVector, cycles := s.cycles + cyc 7 }) ∨
    (s.nmiPending = false ∧ (s.irqPending = false ∨ s.flag .i = true) ∧ serviceInterrupt s = s) := by
  unfold serviceInterrupt
  split
  · rename_i h
    refine .inl ⟨h, ?_⟩
    rw [enter, takeInterrupt_eq _ (.inl rfl)]
    rfl
  · rename_i h
    split
    · rename_i h'
      simp only [Bool.and_eq_true, Bool.not_eq_true'] at h'
      refine .inr (.inl ⟨by simpa using h, h'.1, h'.2, ?_⟩)
      rw [enter, takeInterrupt_eq _ (.inr rfl)]
      rfl
    · rename_i h'
      refine .inr (.inr ⟨by simpa using h, ?_, rfl⟩)
      cases hq : s.irqPending <;> simp_all

/-! ### One step -/

/-- The outcomes of one step (R141, R150, R152). -/
theorem step_cases (s : State) :
    (s.resetDone = false ∧ step s = .refused .notReset) ∨
    (s.resetDone = true ∧ 0 < s.stall ∧ step s = .next (stallStep s)) ∨
    (s.resetDone = true ∧ s.stall = 0 ∧
      step s = exec (fetch (serviceInterrupt s)).1 (fetch (serviceInterrupt s)).2) := by
  unfold step
  cases hr : s.resetDone
  · exact .inl ⟨rfl, rfl⟩
  · by_cases hs : s.stall > 0
    · exact .inr (.inl ⟨rfl, hs, by simp [hs]⟩)
    · exact .inr (.inr ⟨rfl, by omega, by simp [hs, runInstruction]⟩)

end Sys2Proof.Machine
end

