-- ==== Sys2Proof/Laws/Forms.lean ====
section
/-! SUPPORT. What each shared instruction shape of Operands.lean answers, said once: the next state, its frame, and its
length and cycles by the mode tables. -/

namespace Sys2Proof.Machine

/-! ### Encodings of one, two and three bytes -/

theorem codes_one {op : Byte} {i : Instr} (h : (romEntry op).advance = 1) (hd : ∀ l h, decodeOpcode op l h = i) :
    Codes [op] i := by
  intro rest; simp [decode, h, hd]

theorem codes_two {op l : Byte} {i : Instr} (h : (romEntry op).advance = 2) (hd : ∀ h, decodeOpcode op l h = i) :
    Codes [op, l] i := by
  intro rest; simp [decode, h, hd]

theorem codes_three {op l b : Byte} {i : Instr} (h : (romEntry op).advance = 3) (hd : decodeOpcode op l b = i) :
    Codes [op, l, b] i := by
  intro rest; simp [decode, h, hd]

/-! ### Flags -/

theorem nzOf_setNZ {s u : State} (v : Byte) (h : u.p = s.p) : NZOf v [] s (u.setNZ v) := by
  have e : (v == 0#8) = decide (v = 0#8) := by by_cases hv : v = 0#8 <;> simp [hv]
  refine ⟨by simp [State.flag_setNZ, e], by simp [State.flag_setNZ], fun f hf => ?_⟩
  simp only [List.mem_cons, not_or] at hf
  rw [State.flag_setNZ, if_neg hf.1, if_neg hf.2.1, State.flag_eq, State.flag_eq, h]

/-! ### Costs: the ROM's cycles are those of the mode tables -/

/-- A cost with and without the page-crossing cycle. -/
theorem ite_cost {b : Prop} [Decidable b] {p c x y : Nat} (h : p + c = x) (h' : 0 + c = y) :
    (if b then p else 0) + c = if b then x else y := by split <;> assumption

/-- A cost that no page crossing changes. -/
theorem ite_cost_const {b : Prop} [Decidable b] {p c x : Nat} (h : p + c = x) (h' : 0 + c = x) :
    (if b then p else 0) + c = x := by split <;> assumption

/-! ### The shapes -/

/-- An update that keeps memory, controls, the watchdog, PC and the cycle counter. -/
def Settled (u t : State) : Prop :=
  SameWorld u t ∧ SameControls u t ∧ t.lastBranch = u.lastBranch ∧ t.pc = u.pc ∧ t.cycles = u.cycles

/-- An update of A, X, Y, SP and P is such an update. -/
theorem settled_of (u : State) (a x y sp p : Byte) :
    Settled u { u with a := a, x := x, y := y, sp := sp, p := p } :=
  ⟨⟨rfl, rfl, rfl, ⟨rfl, rfl, rfl, rfl, rfl⟩, rfl, rfl⟩, ⟨rfl, rfl, rfl, rfl, rfl, rfl⟩, rfl, rfl, rfl⟩

/-- An instruction that reads M leaves everything but the registers that `f` writes, and moves on by its length and
cost. -/
theorem readForm_next {i : Instr} {f : Byte → State → State} {s : State} {n c : Nat} (hn : i.info.advance = n)
    (hc : (if crossedOf i.operand s then i.info.pagecycles else 0) + i.info.cycles = c)
    (hf : ∀ v u, Settled u (f v u)) :
    readForm i f s = .next (f (operandM i.operand s) (readM i s).2) ∧
    RestSame s (f (operandM i.operand s) (readM i s).2) ∧
    Moved n c s (f (operandM i.operand s) (readM i s).2) := by
  obtain ⟨h1, h2, h3, h4, h5⟩ := hf (operandM i.operand s) (readM i s).2
  obtain ⟨m1, m2⟩ := readM_moved hn hc
  exact ⟨by rw [← readM_fst]; rfl,
    restSame_of ((readM_world i s).trans h1) ((readM_controls i s).trans h2) (by rw [h3, readM_snd_lastBranch]),
    h4.trans m1, h5.trans m2⟩

/-- A register-only instruction likewise. -/
theorem impliedForm_next {i : Instr} {f : State → State} {s : State} {n c : Nat} (hn : i.info.advance = n)
    (hc : (if crossedOf i.operand s then i.info.pagecycles else 0) + i.info.cycles = c) (hf : ∀ u, Settled u (f u)) :
    impliedForm i f s = .next (f (start i s).st) ∧ RestSame s (f (start i s).st) ∧ Moved n c s (f (start i s).st) := by
  obtain ⟨h1, h2, h3, h4, h5⟩ := hf (start i s).st
  obtain ⟨m1, m2⟩ := start_moved hn hc
  exact ⟨rfl, restSame_of ((start_world i s).trans h1) ((start_controls i s).trans h2) (by rw [h3, start_st_lastBranch]),
    h4.trans m1, h5.trans m2⟩

/-- A store writes the register at the effective address and nothing else, and moves on by its length and cost. -/
theorem storeForm_next {i : Instr} {reg : State → Byte} {s : State} {n c : Nat} (hs : MemoryOk s)
    (hn : i.info.advance = n)
    (hc : (if crossedOf i.operand s then i.info.pagecycles else 0) + i.info.cycles = c)
    (hr : reg (start i s).st = reg s) :
    ∃ t, storeForm i reg s = .next t ∧ Stored (eaOf i.operand s) (reg s) s t ∧ SameRegs s t ∧ SameControls s t ∧
      t.lastBranch = s.lastBranch ∧ Moved n c s t := by
  obtain ⟨m1, m2⟩ := start_moved hn hc
  refine ⟨_, rfl, ?_, ?_, (start_controls i s).trans (memWrite_controls ..), by simp, by simpa using m1, by simpa using m2⟩
  · rw [hr, start_ea]; exact stored_of hs (start_world i s) (SameWorld.refl _)
  · refine ⟨?_, ?_, ?_, ?_, ?_⟩ <;> simp

/-- What the memory forms of the read-modify-write instructions leave: the flags word is `p`. -/
theorem rmw_next {i : Instr} {s t : State} {r : Byte} {n c : Nat} (hs : MemoryOk s) (hn : i.info.advance = n)
    (hc : (if crossedOf i.operand s then i.info.pagecycles else 0) + i.info.cycles = c)
    (ht : t = { memWrite (eaOf i.operand s) r (memRead (start i s).ea (start i s).st).2 with p := t.p }) :
    Stored (eaOf i.operand s) r s t ∧ SameAXY s t ∧ t.sp = s.sp ∧ SameControls s t ∧ t.lastBranch = s.lastBranch ∧
      Moved n c s t := by
  obtain ⟨m1, m2⟩ := start_moved hn hc
  rw [ht]
  refine ⟨?_, ⟨?_, ?_, ?_⟩, ?_, ?_, ?_, ?_, ?_⟩
  · exact stored_of hs ((start_world i s).trans (memRead_world _ _)) ⟨rfl, rfl, rfl, ⟨rfl, rfl, rfl, rfl, rfl⟩, rfl, rfl⟩
  · simp [memRead]
  · simp [memRead]
  · simp [memRead]
  · simp [memRead]
  · exact ((start_controls i s).trans (memRead_controls _ _)).trans ((memWrite_controls ..).trans ⟨rfl, rfl, rfl, rfl, rfl, rfl⟩)
  · simp [memRead]
  · simpa [memRead] using m1
  · simpa [memRead] using m2

/-! ### Branches -/

/-- Relative (R112): the sum of the next instruction's address and the displacement, modulo 2^16. -/
theorem eaOf_rel (d : Byte) (s : State) : eaOf (.rel d) s = BitVec.ofInt 16 ((s.pc.toNat : Int) + 2 + d.toInt) := by
  rw [BitVec.ofInt_add, BitVec.ofInt_add, BitVec.ofInt_natCast, BitVec.ofNat_toNat, BitVec.setWidth_eq]
  rfl

theorem branchForm_untaken {i : Instr} {cond : State → Bool} {s : State} (h : cond (start i s).st = false) :
    branchForm i cond s =
      .next { (start i s).st with lastBranch := if s.params.selfLoopAbort then none else s.lastBranch } := by
  simp [branchForm, h]

theorem branchForm_taken {i : Instr} {cond : State → Bool} {s : State} (h : cond (start i s).st = true)
    (hw : ¬ (s.params.selfLoopAbort = true ∧ eaOf i.operand s = s.pc ∧ s.lastBranch = some (s.pc, s.pc))) :
    branchForm i cond s =
      .next { (start i s).st with
        pc := eaOf i.operand s
        cycles := (start i s).st.cycles + cyc (takenCycles (start i s).st.pc (eaOf i.operand s))
        lastBranch := if s.params.selfLoopAbort then some (s.pc, eaOf i.operand s) else s.lastBranch } := by
  simp only [branchForm, h, if_true, start_ea, start_st_params, start_st_lastBranch]
  split
  · rename_i hh
    simp only [Bool.and_eq_true] at hh
    exact absurd ⟨hh.1.1, of_decide_eq_true hh.1.2, of_decide_eq_true hh.2⟩ hw
  · rfl

theorem branchForm_abort {i : Instr} {cond : State → Bool} {s : State} (h : cond (start i s).st = true)
    (h1 : s.params.selfLoopAbort = true) (h2 : eaOf i.operand s = s.pc) (h3 : s.lastBranch = some (s.pc, s.pc)) :
    branchForm i cond s = .fault (.selfLoop s.pc) := by
  simp [branchForm, h, h1, start_ea, h2, h3]

/-! ### Pushes from a state that agrees with `s` outside PC, cycles and draws -/

/-- Memory, mapper, controls, stack pointer and watchdog agree. -/
def Agrees (s u : State) : Prop :=
  SameWorld s u ∧ SameControls s u ∧ u.sp = s.sp ∧ u.lastBranch = s.lastBranch

theorem start_agrees (i : Instr) (s : State) : Agrees s (start i s).st :=
  ⟨start_world i s, start_controls i s, start_st_sp i s, start_st_lastBranch i s⟩

theorem pushed_of_agrees {bs : List Byte} {s u t : State} (hs : MemoryOk s) (h : Agrees s u) (hlen : bs.length ≤ 255)
    (hram : t.ram = pushBytes u.sp bs u.ram) (hsp : t.sp = u.sp - BitVec.ofNat 8 bs.length) (hprg : t.prg = u.prg)
    (hmap : SameMapper u t) (hctl : SameControls u t) (hev : t.events = u.events) (hlb : t.lastBranch = u.lastBranch) :
    Pushed bs s t := by
  obtain ⟨⟨w1, w2, -, ⟨w4, w5, w6, w7, w8⟩, -, w10⟩, hc, h3, h4⟩ := h
  obtain ⟨m4, m5, m6, m7, m8⟩ := hmap
  exact pushed_of hs hlen (by rw [hram, h3, w1]) (by rw [hsp, h3]) (hprg.trans w2)
    ⟨m4.trans w4, m5.trans w5, m6.trans w6, m7.trans w7, m8.trans w8⟩ (hc.trans hctl) (hev.trans w10) (hlb.trans h4)

theorem push_pushed {s u : State} (hs : MemoryOk s) (h : Agrees s u) (v : Byte) :
    Pushed [v] s (push v u) ∧ SameAXY u (push v u) ∧ (push v u).p = u.p ∧ (push v u).pc = u.pc ∧
      (push v u).cycles = u.cycles := by
  rw [push_eq]
  exact ⟨pushed_of_agrees hs h (by simp) rfl rfl rfl ⟨rfl, rfl, rfl, rfl, rfl⟩ ⟨rfl, rfl, rfl, rfl, rfl, rfl⟩ rfl rfl,
    ⟨rfl, rfl, rfl⟩, rfl, rfl, rfl⟩

theorem push16_pushed {s u : State} (hs : MemoryOk s) (h : Agrees s u) (w pc : Word) :
    Pushed [hi w, lo w] s ((push16 w u).setPC pc) ∧ SameAXY u ((push16 w u).setPC pc) ∧
      ((push16 w u).setPC pc).p = u.p ∧ ((push16 w u).setPC pc).cycles = u.cycles := by
  rw [push16_eq]
  exact ⟨pushed_of_agrees hs h (by simp) rfl rfl rfl ⟨rfl, rfl, rfl, rfl, rfl⟩ ⟨rfl, rfl, rfl, rfl, rfl, rfl⟩ rfl rfl,
    ⟨rfl, rfl, rfl⟩, rfl, rfl⟩

theorem flagsSameBut_setFlag (f : Flag) (b : Bool) {s t : State} (h : t.p = setFlag f b s.p) :
    t.flag f = b ∧ FlagsSameBut [f] s t := by
  refine ⟨by rw [State.flag_eq, h, getFlag_setFlag, if_pos rfl], fun g hg => ?_⟩
  rw [State.flag_eq, h, getFlag_setFlag, if_neg (by simpa using hg)]
  rfl

theorem pushedFlags_eq (p : Byte) (b : Bool) :
    pushedFlags p b = (p &&& 0xCF#8) ||| 0x20#8 ||| (if b then 0x10#8 else 0x00#8) := by
  cases b <;> rfl

/-- Taking an interrupt from such a state (R274, R368). -/
theorem takeInterrupt_pushed {s u : State} {v : Word} (hs : MemoryOk s) (h : Agrees s u)
    (hv : v = nmiVector ∨ v = irqVector) (b : Bool) :
    Pushed [hi u.pc, lo u.pc, pushedFlags u.p b] s (takeInterrupt v b u) ∧
    (takeInterrupt v b u).p = setFlag .i true u.p ∧ (takeInterrupt v b u).pc = vectorWord s v ∧
    (takeInterrupt v b u).cycles = u.cycles ∧ SameAXY u (takeInterrupt v b u) := by
  have hvec : vectorWord u v = vectorWord s v := by
    obtain ⟨e1, e2, -, -, e5, e6⟩ := isExternal_vectors
    unfold vectorWord
    obtain rfl | rfl := hv
    · rw [h.1.peek e1, h.1.peek e2]
    · rw [h.1.peek e5, h.1.peek e6]
  rw [takeInterrupt_eq _ hv, ← hvec]
  exact ⟨pushed_of_agrees hs h (by simp) rfl rfl rfl ⟨rfl, rfl, rfl, rfl, rfl⟩ ⟨rfl, rfl, rfl, rfl, rfl, rfl⟩ rfl rfl,
    rfl, rfl, rfl, ⟨rfl, rfl, rfl⟩⟩

end Sys2Proof.Machine
end

