-- ==== Sys2Proof/Laws/Host.lean ====
section
/-! SUPPORT. The host's entry points: what Reset leaves, that State.reset is what power-on and Reset give, and that the
host's byte writes keep the storages' canonical form. -/

namespace Sys2Proof.Machine

/-- The reset vector lies in PRG window 1, so reading it makes no external draw (R70). -/
theorem read16_resetVector (s : State) : read16 resetVector s = (vectorWord s resetVector, s) :=
  read16_eq s (by decide) (by decide)

/-- `Reset()` as one update of the state (R400, R401). -/
theorem hostReset_eq (s : State) :
    hostReset s =
      { s with
        a := 0#8, x := 0#8, y := 0#8, sp := 0xFD#8, p := 0x24#8, nmiPending := false, irqPending := false
        cycles := 0#64, stall := 0, lastBranch := none, resetDone := true, pc := vectorWord s resetVector } := by
  unfold hostReset
  simp only [read16_resetVector, State.setPC, vectorWord, peek_of_le _ (show 0x8000#16 ≤ resetVector by decide),
    peek_of_le _ (show 0x8000#16 ≤ resetVector + 1#16 by decide)]
  rfl

/-- State.reset is the machine after power-on and `Reset()`, with the default parameters and empty images. -/
theorem reset_is_powerOn_then_reset : hostReset (State.powerOn Config.defaultParams [] [] []) = State.reset := by
  decide +kernel

/-- A host write keeps the storages' form and sizes (R68). -/
theorem hostWrite_memoryOk {s : State} (hv : s.params.valid = true) (h : MemoryOk s) (a : Word) (v : Byte) :
    MemoryOk (hostWrite a v s) := by
  unfold hostWrite
  split
  · exact memWrite_memoryOk hv h a v
  · obtain ⟨h1, h2, h3, h4, h5, h6⟩ := h
    exact ⟨h1, Memory.write_wf h2, h3, h4, Memory.write_below h5 (prgIndex_lt hv a), h6⟩

theorem prgBankOffset_lt {p : Params} (h : p.valid = true) (i : Int) : prgBankOffset p i + 16384 ≤ p.prgSize := by
  simp only [Params.valid, Bool.and_eq_true, decide_eq_true_eq] at h
  have hb : 0 < nprg p := by unfold nprg; omega
  have hsz : nprg p * 16384 = p.prgSize := by unfold nprg; omega
  have := Int.emod_lt_of_pos i (b := (nprg p : Int)) (by omega)
  have := Int.emod_nonneg i (b := (nprg p : Int)) (by omega)
  unfold prgBankOffset; omega

theorem chrBankOffset_lt {p : Params} (h : p.valid = true) (i : Int) {k : Nat} (hk : chrBankOffset p i = some k) :
    k + 4096 ≤ p.chrSize := by
  simp only [Params.valid, Bool.and_eq_true, decide_eq_true_eq] at h
  unfold chrBankOffset at hk
  split at hk
  · exact absurd hk (by simp)
  · rename_i hb
    have hsz : nchr p * 4096 = p.chrSize := by unfold nchr; omega
    have := Int.emod_lt_of_pos i (b := (nchr p : Int)) (by omega)
    have := Int.emod_nonneg i (b := (nchr p : Int)) (by omega)
    simp only [Option.some.injEq] at hk
    omega

/-- A bank-aware PRG write keeps the storages' form and sizes (R69). -/
theorem writeBankPrg_memoryOk {s : State} (hv : s.params.valid = true) (h : MemoryOk s) (bank : Int) (off : Word)
    (v : Byte) : MemoryOk (writeBankPrg bank off v s) := by
  obtain ⟨h1, h2, h3, h4, h5, h6⟩ := h
  have hlt : prgBankIndex bank off s < s.params.prgSize := by
    have := prgBankOffset_lt hv bank
    have hin : inPrgBank off < 16384 := (off.extractLsb' 0 14).isLt
    unfold prgBankIndex; omega
  exact ⟨h1, Memory.write_wf h2, h3, h4, Memory.write_below h5 hlt, h6⟩

/-- A bank-aware CHR write that completes keeps the storages' form and sizes (R69). -/
theorem writeBankChr_memoryOk {s t : State} (hv : s.params.valid = true) (h : MemoryOk s) (bank : Int) (off : Word)
    (v : Byte) (ht : writeBankChr bank off v s = .next t) : MemoryOk t := by
  unfold writeBankChr at ht
  split at ht
  · rename_i k hk
    simp only [Host.Outcome.next.injEq] at ht
    subst ht
    obtain ⟨h1, h2, h3, h4, h5, h6⟩ := h
    unfold chrBankIndex at hk
    cases hb : chrBankOffset s.params bank with
    | none => simp [hb] at hk
    | some j =>
      simp only [hb, Option.map_some, Option.some.injEq] at hk
      have := chrBankOffset_lt hv bank hb
      have := (off.extractLsb' 0 12).isLt
      have hlt : k < s.params.chrSize := by omega
      exact ⟨h1, h2, Memory.write_wf h3, h4, h5, Memory.write_below h6 hlt⟩
  · exact absurd ht (by simp)

/-- A loaded cartridge has legal parameters and its storages in form and inside their sizes (R62). -/
theorem load_ok {p : Params} {r g c : List Host.Cell} {t : State} (h : load p r g c = .next t) :
    t = State.powerOn p (.ofCells r) (.ofCells g) (.ofCells c) ∧ p.valid = true ∧ MemoryOk t := by
  unfold load at h
  split at h
  · rename_i hc
    simp only [Bool.and_eq_true] at hc
    simp only [Host.Outcome.next.injEq] at h
    subst h
    exact ⟨rfl, hc.1.1.1, Memory.ofCells_wf r, Memory.ofCells_wf g, Memory.ofCells_wf c, Memory.ofCells_below hc.1.1.2,
      Memory.ofCells_below hc.1.2, Memory.ofCells_below hc.2⟩
  · exact absurd h (by simp)

end Sys2Proof.Machine
end

