-- ==== Sys2Proof/Laws/PerInstr.lean ====
section
/-! SUPPORT. One lemma per instruction: the ROM entry of an instruction's opcode fits its operand (R100, R101, R124). -/

namespace Sys2Proof.Laws.RomFits

open Sys2Proof.Machine (romEntry operandBytes)

/-- The ROM's length for the opcode is the number of bytes the encoder emits, and the ROM's mode reads as many operand
bytes as the operand holds. -/
def Statement (i : Instr) : Prop :=
  i.WellFormed →
    (encode i).length = (romEntry i.opcode).advance ∧ i.operand.bytes.length = operandBytes (romEntry i.opcode).mode

theorem lda (m : AluMode) : Statement (.lda m) := fun _ => by cases m <;> exact ⟨rfl, rfl⟩
theorem ldx (m : LdxMode) : Statement (.ldx m) := fun _ => by cases m <;> exact ⟨rfl, rfl⟩
theorem ldy (m : LdyMode) : Statement (.ldy m) := fun _ => by cases m <;> exact ⟨rfl, rfl⟩
theorem sta (m : StaMode) : Statement (.sta m) := fun _ => by cases m <;> exact ⟨rfl, rfl⟩
theorem stx (m : StxMode) : Statement (.stx m) := fun _ => by cases m <;> exact ⟨rfl, rfl⟩
theorem sty (m : StyMode) : Statement (.sty m) := fun _ => by cases m <;> exact ⟨rfl, rfl⟩
theorem tax : Statement .tax := fun _ => ⟨rfl, rfl⟩
theorem tay : Statement .tay := fun _ => ⟨rfl, rfl⟩
theorem txa : Statement .txa := fun _ => ⟨rfl, rfl⟩
theorem tya : Statement .tya := fun _ => ⟨rfl, rfl⟩
theorem tsx : Statement .tsx := fun _ => ⟨rfl, rfl⟩
theorem txs : Statement .txs := fun _ => ⟨rfl, rfl⟩
theorem pha : Statement .pha := fun _ => ⟨rfl, rfl⟩
theorem php : Statement .php := fun _ => ⟨rfl, rfl⟩
theorem pla : Statement .pla := fun _ => ⟨rfl, rfl⟩
theorem plp : Statement .plp := fun _ => ⟨rfl, rfl⟩
theorem adc (m : AluMode) : Statement (.adc m) := fun _ => by cases m <;> exact ⟨rfl, rfl⟩
theorem sbc (m : AluMode) : Statement (.sbc m) := fun _ => by cases m <;> exact ⟨rfl, rfl⟩
theorem and (m : AluMode) : Statement (.and m) := fun _ => by cases m <;> exact ⟨rfl, rfl⟩
theorem ora (m : AluMode) : Statement (.ora m) := fun _ => by cases m <;> exact ⟨rfl, rfl⟩
theorem eor (m : AluMode) : Statement (.eor m) := fun _ => by cases m <;> exact ⟨rfl, rfl⟩
theorem bit (m : BitMode) : Statement (.bit m) := fun _ => by cases m <;> exact ⟨rfl, rfl⟩
theorem cmp (m : AluMode) : Statement (.cmp m) := fun _ => by cases m <;> exact ⟨rfl, rfl⟩
theorem cpx (m : CpMode) : Statement (.cpx m) := fun _ => by cases m <;> exact ⟨rfl, rfl⟩
theorem cpy (m : CpMode) : Statement (.cpy m) := fun _ => by cases m <;> exact ⟨rfl, rfl⟩
theorem inc (m : RmwMode) : Statement (.inc m) := fun _ => by cases m <;> exact ⟨rfl, rfl⟩
theorem dec (m : RmwMode) : Statement (.dec m) := fun _ => by cases m <;> exact ⟨rfl, rfl⟩
theorem inx : Statement .inx := fun _ => ⟨rfl, rfl⟩
theorem iny : Statement .iny := fun _ => ⟨rfl, rfl⟩
theorem dex : Statement .dex := fun _ => ⟨rfl, rfl⟩
theorem dey : Statement .dey := fun _ => ⟨rfl, rfl⟩
theorem asl (m : ShiftMode) : Statement (.asl m) := fun _ => by cases m <;> exact ⟨rfl, rfl⟩
theorem lsr (m : ShiftMode) : Statement (.lsr m) := fun _ => by cases m <;> exact ⟨rfl, rfl⟩
theorem rol (m : ShiftMode) : Statement (.rol m) := fun _ => by cases m <;> exact ⟨rfl, rfl⟩
theorem ror (m : ShiftMode) : Statement (.ror m) := fun _ => by cases m <;> exact ⟨rfl, rfl⟩
theorem bcc (d : Byte) : Statement (.bcc d) := fun _ => ⟨rfl, rfl⟩
theorem bcs (d : Byte) : Statement (.bcs d) := fun _ => ⟨rfl, rfl⟩
theorem beq (d : Byte) : Statement (.beq d) := fun _ => ⟨rfl, rfl⟩
theorem bmi (d : Byte) : Statement (.bmi d) := fun _ => ⟨rfl, rfl⟩
theorem bne (d : Byte) : Statement (.bne d) := fun _ => ⟨rfl, rfl⟩
theorem bpl (d : Byte) : Statement (.bpl d) := fun _ => ⟨rfl, rfl⟩
theorem bvc (d : Byte) : Statement (.bvc d) := fun _ => ⟨rfl, rfl⟩
theorem bvs (d : Byte) : Statement (.bvs d) := fun _ => ⟨rfl, rfl⟩
theorem jmp (m : JmpMode) : Statement (.jmp m) := fun _ => by cases m <;> exact ⟨rfl, rfl⟩
theorem jsr (w : Word) : Statement (.jsr w) := fun _ => ⟨rfl, rfl⟩
theorem rts : Statement .rts := fun _ => ⟨rfl, rfl⟩
theorem brk : Statement .brk := fun _ => ⟨rfl, rfl⟩
theorem rti : Statement .rti := fun _ => ⟨rfl, rfl⟩
theorem clc : Statement .clc := fun _ => ⟨rfl, rfl⟩
theorem cld : Statement .cld := fun _ => ⟨rfl, rfl⟩
theorem cli : Statement .cli := fun _ => ⟨rfl, rfl⟩
theorem clv : Statement .clv := fun _ => ⟨rfl, rfl⟩
theorem sec : Statement .sec := fun _ => ⟨rfl, rfl⟩
theorem sed : Statement .sed := fun _ => ⟨rfl, rfl⟩
theorem sei : Statement .sei := fun _ => ⟨rfl, rfl⟩
theorem nop : Statement .nop := fun _ => ⟨rfl, rfl⟩

theorem illegal (op : Byte) : Statement (.illegal op) := by
  have h : ∀ op : Byte, illegalBytes.contains op = true →
      (romEntry op).advance = 1 ∧ operandBytes (romEntry op).mode = 0 := by decide +kernel
  intro hw
  obtain ⟨h1, h2⟩ := h op hw
  exact ⟨h1.symm, h2.symm⟩

end Sys2Proof.Laws.RomFits
end

