-- ==== Sys2Proof/Tests/Slice0.lean ====
section
/-! SUPPORT. The model's own tests. Every expected value is one of spec/95_test_vectors.md or of the rule named, and not the
model's answer. The theorems named wit_… show a concrete state and operands that meet the hypotheses of the
statement they are named after. -/

namespace Sys2Proof.Tests

set_option Elab.async false

open Sys2Proof Sys2Proof.Machine

/-! ### Helpers -/

/-- The state 95_test_vectors.md starts from: after Reset, with PC = $C000. -/
def base : State := { State.reset with pc := 0xC000#16 }

/-- Bytes placed from an address on, as the host places them (R68). -/
def place : Word → List Byte → State → State
  | _, [], s => s
  | a, b :: bs, s => place (a + 1#16) bs (hostWrite a b s)

/-- One step with these instruction bytes at PC. A step that does not complete gives `State.reset` with SP = 0. -/
def after (bs : List Byte) (s : State) : State :=
  match step (place s.pc bs s) with
  | .next t => t
  | .fault _ | .refused _ => { State.reset with sp := 0#8 }

/-- What the step returns as its cycle count (R149). -/
def cost (bs : List Byte) (s : State) : Nat := stepCycles s (after bs s)

/-- What a step or a host call answers, as a value that can be compared. -/
def answer {α : Type} : Host.Outcome α Fault Refusal → Option α
  | .next v => some v
  | .fault _ | .refused _ => none

/-- The fault of an outcome. -/
def faultOf {α : Type} : Host.Outcome α Fault Refusal → Option Fault
  | .fault f => some f
  | .next _ | .refused _ => none

/-- The refusal of an outcome. -/
def refusalOf {α : Type} : Host.Outcome α Fault Refusal → Option Refusal
  | .refused r => some r
  | .next _ | .fault _ => none

/-- The state with eight PRG banks. -/
def eight : State := { base with params := { Config.defaultParams with prgSize := 131072 } }

/-! ### WellFormed: each check refuses an ill-formed term (R123) -/

theorem test_wellFormed_refuses_legal_byte : (Instr.illegal 0xA9#8).wellFormed = false := by decide +kernel

theorem test_wellFormed_accepts_illegal_byte : (Instr.illegal 0x02#8).wellFormed = true := by decide +kernel

/-! ### Decoding: every constructor by a word written out from the opcode map (R120, R121) -/

theorem test_decode_load_store :
    decode [0xB1#8, 0x20#8] = .ok (.lda (.izy 0x20#8), []) ∧
    decode [0xB6#8, 0xF0#8] = .ok (.ldx (.zpy 0xF0#8), []) ∧
    decode [0xBC#8, 0x34#8, 0x12#8] = .ok (.ldy (.abx 0x1234#16), []) ∧
    decode [0x81#8, 0x05#8] = .ok (.sta (.izx 0x05#8), []) ∧
    decode [0x8E#8, 0x34#8, 0x12#8] = .ok (.stx (.abs 0x1234#16), []) ∧
    decode [0x94#8, 0x10#8] = .ok (.sty (.zpx 0x10#8), []) := by decide +kernel

theorem test_decode_transfer_stack :
    decode [0xAA#8] = .ok (.tax, []) ∧
    decode [0xA8#8] = .ok (.tay, []) ∧
    decode [0x8A#8] = .ok (.txa, []) ∧
    decode [0x98#8] = .ok (.tya, []) ∧
    decode [0xBA#8] = .ok (.tsx, []) ∧
    decode [0x9A#8] = .ok (.txs, []) ∧
    decode [0x48#8] = .ok (.pha, []) ∧
    decode [0x08#8] = .ok (.php, []) ∧
    decode [0x68#8] = .ok (.pla, []) ∧
    decode [0x28#8] = .ok (.plp, []) := by decide +kernel

theorem test_decode_arith_logic :
    decode [0x79#8, 0x34#8, 0x12#8] = .ok (.adc (.aby 0x1234#16), []) ∧
    decode [0xE9#8, 0x80#8] = .ok (.sbc (.imm 0x80#8), []) ∧
    decode [0x35#8, 0x10#8] = .ok (.and (.zpx 0x10#8), []) ∧
    decode [0x0D#8, 0x00#8, 0x80#8] = .ok (.ora (.abs 0x8000#16), []) ∧
    decode [0x41#8, 0xFE#8] = .ok (.eor (.izx 0xFE#8), []) ∧
    decode [0x2C#8, 0x02#8, 0x20#8] = .ok (.bit (.abs 0x2002#16), []) ∧
    decode [0xDD#8, 0xFF#8, 0xFF#8] = .ok (.cmp (.abx 0xFFFF#16), []) ∧
    decode [0xE4#8, 0x10#8] = .ok (.cpx (.zp 0x10#8), []) ∧
    decode [0xC0#8, 0x05#8] = .ok (.cpy (.imm 0x05#8), []) := by decide +kernel

theorem test_decode_incdec_shift :
    decode [0xF6#8, 0x10#8] = .ok (.inc (.zpx 0x10#8), []) ∧
    decode [0xCE#8, 0x00#8, 0x02#8] = .ok (.dec (.abs 0x0200#16), []) ∧
    decode [0xE8#8] = .ok (.inx, []) ∧
    decode [0xC8#8] = .ok (.iny, []) ∧
    decode [0xCA#8] = .ok (.dex, []) ∧
    decode [0x88#8] = .ok (.dey, []) ∧
    decode [0x0A#8] = .ok (.asl .acc, []) ∧
    decode [0x46#8, 0x10#8] = .ok (.lsr (.zp 0x10#8), []) ∧
    decode [0x36#8, 0x10#8] = .ok (.rol (.zpx 0x10#8), []) ∧
    decode [0x7E#8, 0xF0#8, 0x00#8] = .ok (.ror (.abx 0x00F0#16), []) := by decide +kernel

theorem test_decode_control :
    decode [0x90#8, 0x02#8] = .ok (.bcc 0x02#8, []) ∧
    decode [0xB0#8, 0x10#8] = .ok (.bcs 0x10#8, []) ∧
    decode [0xF0#8, 0x10#8] = .ok (.beq 0x10#8, []) ∧
    decode [0x30#8, 0x10#8] = .ok (.bmi 0x10#8, []) ∧
    decode [0xD0#8, 0xFE#8] = .ok (.bne 0xFE#8, []) ∧
    decode [0x10#8, 0x10#8] = .ok (.bpl 0x10#8, []) ∧
    decode [0x50#8, 0x10#8] = .ok (.bvc 0x10#8, []) ∧
    decode [0x70#8, 0x10#8] = .ok (.bvs 0x10#8, []) := by decide +kernel

theorem test_decode_jumps :
    decode [0x6C#8, 0xFF#8, 0x10#8] = .ok (.jmp (.ind 0x10FF#16), []) ∧
    decode [0x20#8, 0x00#8, 0xD0#8] = .ok (.jsr 0xD000#16, []) ∧
    decode [0x60#8] = .ok (.rts, []) ∧
    decode [0x00#8, 0x12#8] = .ok (.brk, []) ∧
    decode [0x40#8] = .ok (.rti, []) := by decide +kernel

theorem test_decode_flags_misc :
    decode [0x18#8] = .ok (.clc, []) ∧
    decode [0xD8#8] = .ok (.cld, []) ∧
    decode [0x58#8] = .ok (.cli, []) ∧
    decode [0xB8#8] = .ok (.clv, []) ∧
    decode [0x38#8] = .ok (.sec, []) ∧
    decode [0xF8#8] = .ok (.sed, []) ∧
    decode [0x78#8] = .ok (.sei, []) ∧
    decode [0xEA#8] = .ok (.nop, []) ∧
    decode [0xFF#8] = .ok (.illegal 0xFF#8, []) := by decide +kernel

/-- A three-byte instruction cut short is rejected by name. -/
theorem test_decode_truncated : decode [0xAD#8, 0x00#8] = .error (.truncated 0xAD#8) := by decide +kernel

theorem test_decode_table_word : decodeTableWord 24 0x1234BD = some (.lda (.abx 0x1234#16)) ∧ decodeTableWord 8 0xEA = some .nop ∧
    decodeTableWord 16 0x1200 = some .brk := by decide +kernel

/-- A word placed for the next step is what the step runs. -/
theorem test_withFetchWord_runs : (answer (step (State.reset.withFetchWord 16 0x05A9))).map State.a = some 0x05#8 := by decide +kernel

/-! ### One step each (95_test_vectors.md, sections 1 and 2) -/

theorem test_lda_zero : (let t := after [0xA9#8, 0x00#8] { base with p := 0xA4#8 }; (t.a, t.p, t.pc)) = (0x00#8, 0x26#8, 0xC002#16) := by decide +kernel

theorem test_lda_izx_pointer_wraps : (let t := after [0xA1#8, 0xFF#8] (place 0x0234#16 [0x99#8] (place 0x0000#16 [0x02#8] (place 0x00FF#16 [0x34#8] base))); (t.a, t.p)) = (0x99#8, 0xA4#8) := by decide +kernel

theorem test_ldx_zpy_wraps : (let t := after [0xB6#8, 0xF0#8] (place 0x0010#16 [0x77#8] ({ base with y := 0x20#8 })); (t.x, t.p)) = (0x77#8, 0x24#8) := by decide +kernel

theorem test_ldy_negative : (let t := after [0xA0#8, 0xFF#8] base; (t.y, t.p)) = (0xFF#8, 0xA4#8) := by decide +kernel

theorem test_sta_mirror : (let t := after [0x8D#8, 0x00#8, 0x0A#8] { base with a := 0x42#8 }; (t.ram.read 0x200, t.p)) = (0x42#8, 0x24#8) := by decide +kernel

theorem test_sta_serial_port : (let t := after [0x8D#8, 0x00#8, 0x80#8] { base with a := 0x01#8 }; (t.shift, t.prg.read 0)) = (0x18#5, 0x00#8) := by decide +kernel

theorem test_stx_zpy : (let t := after [0x96#8, 0xF0#8] { base with x := 0xAB#8, y := 0x20#8 }; t.ram.read 0x10) = 0xAB#8 := by decide +kernel

theorem test_sty_mirror : (let t := after [0x8C#8, 0x34#8, 0x12#8] { base with y := 0xCD#8 }; t.ram.read 0x234) = 0xCD#8 := by decide +kernel

/-- S2 and the store of 2.2: only a load pays for the crossing. -/
theorem test_costs_page_crossing : cost [0xBD#8, 0xF0#8, 0x12#8] { base with x := 0x0F#8 } = 4 ∧ cost [0xBD#8, 0xF0#8, 0x12#8] { base with x := 0x10#8 } = 5 ∧
    cost [0x9D#8, 0xF0#8, 0x12#8] { base with x := 0x10#8 } = 5 ∧ cost [0xBD#8, 0xFF#8, 0xFF#8] { base with x := 0x01#8 } = 5 := by decide +kernel

theorem test_tax : (let t := after [0xAA#8] { base with a := 0x80#8 }; (t.x, t.p)) = (0x80#8, 0xA4#8) := by decide +kernel

theorem test_tay : (let t := after [0xA8#8] { base with y := 0x11#8 }; (t.y, t.p)) = (0x00#8, 0x26#8) := by decide +kernel

theorem test_txa : (let t := after [0x8A#8] { base with x := 0x01#8 }; (t.a, t.p)) = (0x01#8, 0x24#8) := by decide +kernel

theorem test_tya : (let t := after [0x98#8] { base with y := 0xFF#8 }; (t.a, t.p)) = (0xFF#8, 0xA4#8) := by decide +kernel

theorem test_tsx : (let t := after [0xBA#8] { base with sp := 0x80#8 }; (t.x, t.p)) = (0x80#8, 0xA4#8) := by decide +kernel

theorem test_txs : (let t := after [0x9A#8] base; (t.sp, t.p)) = (0x00#8, 0x24#8) := by decide +kernel

theorem test_pha_wraps : (let t := after [0x48#8] { base with a := 0x7E#8, sp := 0x00#8 }; (t.ram.read 0x100, t.sp)) = (0x7E#8, 0xFF#8) := by decide +kernel

theorem test_php : (let t := after [0x08#8] base; (t.ram.read 0x1FD, t.sp, t.p)) = (0x34#8, 0xFC#8, 0x24#8) := by decide +kernel

theorem test_pla_wraps : (let t := after [0x68#8] (place 0x0100#16 [0x80#8] ({ base with sp := 0xFF#8 })); (t.a, t.sp, t.p)) = (0x80#8, 0x00#8, 0xA4#8) := by decide +kernel

theorem test_plp_all_ones : (let t := after [0x28#8] (place 0x01FE#16 [0xFF#8] base); (t.p, t.sp)) = (0xEF#8, 0xFE#8) := by decide +kernel

theorem test_plp_zero : (let t := after [0x28#8] base; t.p) = 0x20#8 := by decide +kernel

theorem test_adc_carry_and_zero : (let t := after [0x69#8, 0x00#8] { base with a := 0xFF#8, p := 0x25#8 }; (t.a, t.p)) = (0x00#8, 0x27#8) := by decide +kernel

theorem test_adc_ignores_decimal : (let t := after [0x69#8, 0x01#8] { base with a := 0x09#8, p := 0x2C#8 }; (t.a, t.p)) = (0x0A#8, 0x2C#8) := by decide +kernel

theorem test_sbc_overflow : (let t := after [0xE9#8, 0x01#8] { base with a := 0x80#8, p := 0x25#8 }; (t.a, t.p)) = (0x7F#8, 0x65#8) := by decide +kernel

theorem test_sbc_borrow : (let t := after [0xE9#8, 0x05#8] { base with a := 0x05#8 }; (t.a, t.p)) = (0xFF#8, 0xA4#8) := by decide +kernel

theorem test_and : (let t := after [0x29#8, 0x0F#8] { base with a := 0xF0#8 }; (t.a, t.p)) = (0x00#8, 0x26#8) := by decide +kernel

theorem test_ora : (let t := after [0x09#8, 0x80#8] { base with a := 0x01#8 }; (t.a, t.p)) = (0x81#8, 0xA4#8) := by decide +kernel

theorem test_eor : (let t := after [0x49#8, 0xFF#8] { base with a := 0xFF#8 }; (t.a, t.p)) = (0x00#8, 0x26#8) := by decide +kernel

theorem test_bit : (let t := after [0x24#8, 0x10#8] (place 0x0010#16 [0x41#8] ({ base with a := 0x01#8 })); (t.a, t.p)) = (0x01#8, 0x64#8) := by decide +kernel

theorem test_cmp_keeps_v : (let t := after [0xC9#8, 0x10#8] { base with a := 0x10#8, p := 0x64#8 }; (t.a, t.p)) = (0x10#8, 0x67#8) := by decide +kernel

theorem test_cpx_less : (let t := after [0xE0#8, 0x05#8] { base with x := 0x04#8 }; t.p) = 0xA4#8 := by decide +kernel

theorem test_cpy_more : (let t := after [0xC0#8, 0x05#8] { base with y := 0x06#8 }; t.p) = 0x25#8 := by decide +kernel

theorem test_inc_wraps : (let t := after [0xE6#8, 0x10#8] (place 0x0010#16 [0xFF#8] base); (t.ram.read 0x10, t.p)) = (0x00#8, 0x26#8) := by decide +kernel

/-- Storing $80 through the serial port resets the shift register (2.7). -/
theorem test_inc_serial_port : (let t := after [0xEE#8, 0x00#8, 0x80#8] (place 0x8000#16 [0x7F#8] ({ base with shift := 0x04#5, control := 0x0D#5 })); (t.shift, t.control, t.prg.read 0)) = (0x10#5, 0x0D#5, 0x7F#8) := by decide +kernel

theorem test_dec_wraps : (let t := after [0xC6#8, 0x10#8] base; (t.ram.read 0x10, t.p)) = (0xFF#8, 0xA4#8) := by decide +kernel

theorem test_inx : (let t := after [0xE8#8] { base with x := 0xFF#8 }; (t.x, t.p)) = (0x00#8, 0x26#8) := by decide +kernel

theorem test_iny : (let t := after [0xC8#8] { base with y := 0x7F#8 }; (t.y, t.p)) = (0x80#8, 0xA4#8) := by decide +kernel

theorem test_dex : (let t := after [0xCA#8] { base with x := 0x01#8 }; (t.x, t.p)) = (0x00#8, 0x26#8) := by decide +kernel

theorem test_dey : (let t := after [0x88#8] base; (t.y, t.p)) = (0xFF#8, 0xA4#8) := by decide +kernel

theorem test_asl_accumulator : (let t := after [0x0A#8] { base with a := 0x80#8 }; (t.a, t.p)) = (0x00#8, 0x27#8) := by decide +kernel

theorem test_asl_memory : (let t := after [0x06#8, 0x10#8] (place 0x0010#16 [0x41#8] ({ base with p := 0x25#8 })); (t.ram.read 0x10, t.p)) = (0x82#8, 0xA4#8) := by decide +kernel

theorem test_lsr : (let t := after [0x4A#8] { base with a := 0x01#8 }; (t.a, t.p)) = (0x00#8, 0x27#8) := by decide +kernel

theorem test_rol : (let t := after [0x2A#8] { base with a := 0x80#8 }; (t.a, t.p)) = (0x00#8, 0x27#8) := by decide +kernel

theorem test_ror_accumulator : (let t := after [0x6A#8] { base with a := 0x01#8, p := 0x25#8 }; (t.a, t.p)) = (0x80#8, 0xA5#8) := by decide +kernel

theorem test_ror_memory : (let t := after [0x7E#8, 0xF0#8, 0x00#8] (place 0x0100#16 [0x02#8] ({ base with x := 0x10#8, p := 0x25#8 })); (t.ram.read 0x100, t.p, t.cycles)) = (0x81#8, 0xA4#8, 7#64) := by decide +kernel

theorem test_bcc_not_taken : (let t := after [0x90#8, 0x10#8] { base with pc := 0xC000#16, p := 0x25#8 }; (t.pc, t.cycles)) = (0xC002#16, 2#64) := by decide +kernel

theorem test_bcs_taken : (let t := after [0xB0#8, 0x10#8] { base with pc := 0xC000#16, p := 0x25#8 }; (t.pc, t.cycles)) = (0xC012#16, 3#64) := by decide +kernel

theorem test_beq_page_of_next : (let t := after [0xF0#8, 0x01#8] { base with pc := 0xC0FE#16, p := 0x26#8 }; (t.pc, t.cycles)) = (0xC101#16, 3#64) := by decide +kernel

theorem test_beq_crosses : (let t := after [0xF0#8, 0x01#8] { base with pc := 0xC0FD#16, p := 0x26#8 }; (t.pc, t.cycles)) = (0xC100#16, 4#64) := by decide +kernel

theorem test_bmi_taken : (let t := after [0x30#8, 0x10#8] { base with pc := 0xC000#16, p := 0xA4#8 }; (t.pc, t.cycles)) = (0xC012#16, 3#64) := by decide +kernel

theorem test_bne_minus_128 : (let t := after [0xD0#8, 0x80#8] { base with pc := 0xC080#16, p := 0x24#8 }; (t.pc, t.cycles)) = (0xC002#16, 3#64) := by decide +kernel

theorem test_bne_backward_crosses : (let t := after [0xD0#8, 0xFC#8] { base with pc := 0xC100#16, p := 0x24#8 }; (t.pc, t.cycles)) = (0xC0FE#16, 4#64) := by decide +kernel

theorem test_bpl_not_taken : (let t := after [0x10#8, 0x10#8] { base with pc := 0xC000#16, p := 0xA4#8 }; (t.pc, t.cycles)) = (0xC002#16, 2#64) := by decide +kernel

theorem test_bvc_taken : (let t := after [0x50#8, 0x10#8] { base with pc := 0xC000#16, p := 0x24#8 }; (t.pc, t.cycles)) = (0xC012#16, 3#64) := by decide +kernel

theorem test_bvs_not_taken : (let t := after [0x70#8, 0x10#8] { base with pc := 0xC000#16, p := 0x24#8 }; (t.pc, t.cycles)) = (0xC002#16, 2#64) := by decide +kernel

theorem test_jmp_absolute : (let t := after [0x4C#8, 0x34#8, 0x12#8] base; (t.pc, t.cycles)) = (0x1234#16, 3#64) := by decide +kernel

theorem test_jmp_indirect_page_wrap : (let t := after [0x6C#8, 0xFF#8, 0x10#8] (place 0x0100#16 [0x56#8] (place 0x0000#16 [0x34#8] (place 0x00FF#16 [0x12#8] base))); (t.pc, t.cycles)) = (0x3412#16, 5#64) := by decide +kernel

theorem test_jsr_wraps : (let t := after [0x20#8, 0x00#8, 0xD0#8] { base with sp := 0x00#8 }; (t.ram.read 0x100, t.ram.read 0x1FF, t.sp, t.pc)) = (0xC0#8, 0x02#8, 0xFE#8, 0xD000#16) := by decide +kernel

theorem test_rts_wraps : (let t := after [0x60#8] (place 0x01FE#16 [0xFF#8, 0xFF#8] base); (t.pc, t.sp)) = (0x0000#16, 0xFF#8) := by decide +kernel

theorem test_brk_with_i_set : (let t := after [0x00#8, 0x12#8] (place 0xFFFE#16 [0x00#8, 0x80#8] ({ base with p := 0xE7#8 })); (t.ram.read 0x1FD, t.ram.read 0x1FC, t.ram.read 0x1FB, t.p, t.pc, t.cycles)) = (0xC0#8, 0x02#8, 0xF7#8, 0xE7#8, 0x8000#16, 7#64) := by decide +kernel

theorem test_rti : (let t := after [0x40#8] (place 0x01FB#16 [0xFF#8, 0x34#8, 0x12#8] ({ base with sp := 0xFA#8 })); (t.p, t.pc, t.sp, t.cycles)) = (0xEF#8, 0x1234#16, 0xFD#8, 6#64) := by decide +kernel

theorem test_clc : (let t := after [0x18#8] { base with p := 0xEF#8 }; (t.p, t.pc, t.cycles)) = (0xEE#8, 0xC001#16, 2#64) := by decide +kernel

theorem test_sec : (let t := after [0x38#8] { base with p := 0x20#8 }; (t.p, t.pc, t.cycles)) = (0x21#8, 0xC001#16, 2#64) := by decide +kernel

theorem test_cli : (let t := after [0x58#8] { base with p := 0x24#8 }; (t.p, t.pc, t.cycles)) = (0x20#8, 0xC001#16, 2#64) := by decide +kernel

theorem test_sei : (let t := after [0x78#8] { base with p := 0x20#8 }; (t.p, t.pc, t.cycles)) = (0x24#8, 0xC001#16, 2#64) := by decide +kernel

theorem test_clv : (let t := after [0xB8#8] { base with p := 0x60#8 }; (t.p, t.pc, t.cycles)) = (0x20#8, 0xC001#16, 2#64) := by decide +kernel

theorem test_cld : (let t := after [0xD8#8] { base with p := 0x28#8 }; (t.p, t.pc, t.cycles)) = (0x20#8, 0xC001#16, 2#64) := by decide +kernel

theorem test_sed : (let t := after [0xF8#8] { base with p := 0x20#8 }; (t.p, t.pc, t.cycles)) = (0x28#8, 0xC001#16, 2#64) := by decide +kernel

theorem test_nop : (let t := after [0xEA#8] { base with p := 0xA5#8 }; (t.p, t.pc, t.cycles)) = (0xA5#8, 0xC001#16, 2#64) := by decide +kernel

/-- PC wraps, and the diagnostic names the opcode and its address (2.10). -/
theorem test_illegal_at_ffff : (let t := after [0xFF#8] { base with pc := 0xFFFF#16, a := 0x11#8 }; (t.pc, t.a, t.p, t.events)) =
    (0x0000#16, 0x11#8, 0x24#8, [.illegalOpcode 0xFF#8 0xFFFF#16]) := by decide +kernel

/-! ### Interrupts, stall, watchdog, Reset (2.8, 2.11, 2.12) -/

/-- The vectors and handlers of section 2.11, with two NOPs at $C000. -/
def requests (p : Byte) : State :=
  place 0xFFFA#16 [0x00#8, 0x90#8] (place 0xFFFE#16 [0x00#8, 0xA0#8] (place 0x9000#16 [0xE8#8]
    (place 0xA000#16 [0xC8#8] { base with p := p })))

theorem test_nmi_before_irq : (let t := after [0xEA#8, 0xEA#8] (hostNmi (hostIrq (requests 0x20#8))); (t.cycles, t.p, t.x, t.pc, t.nmiPending, t.irqPending)) =
    (9#64, 0x24#8, 0x01#8, 0x9001#16, false, true) := by decide +kernel

theorem test_nmi_pushes : (let t := after [0xEA#8, 0xEA#8] (hostNmi (hostIrq (requests 0x20#8))); (t.ram.read 0x1FD, t.ram.read 0x1FC, t.ram.read 0x1FB, t.sp)) =
    (0xC0#8, 0x00#8, 0x30#8, 0xFA#8) := by decide +kernel

theorem test_irq_masked : (let t := after [0xEA#8, 0xEA#8] (hostIrq (requests 0x24#8)); (t.cycles, t.pc, t.irqPending)) =
    (2#64, 0xC001#16, true) := by decide +kernel

theorem test_irq_without_b : (let t := after [0xEA#8, 0xEA#8] (hostIrq { requests 0x20#8 with params := { Config.defaultParams with hwIntPushB := false } }); (t.cycles, t.ram.read 0x1FB, t.y, t.pc, t.irqPending)) =
    (9#64, 0x20#8, 0x01#8, 0xA001#16, false) := by decide +kernel

theorem test_stall_defers_nmi : (let t := after [0xEA#8, 0xEA#8] (hostNmi (hostAddStall 2 (requests 0x24#8))); (t.cycles, t.pc, t.stall, t.nmiPending)) =
    (1#64, 0xC000#16, 1, true) := by decide +kernel

theorem test_watchdog_first_turn : (let t := after [0xD0#8, 0xFE#8] { base with params := { Config.defaultParams with selfLoopAbort := true } };
    (t.pc, t.cycles, t.lastBranch)) = (0xC000#16, 3#64, some (0xC000#16, 0xC000#16)) := by decide +kernel

theorem test_watchdog_second_turn : faultOf (step (place 0xC000#16 [0xD0#8, 0xFE#8] { base with
    params := { Config.defaultParams with selfLoopAbort := true }, lastBranch := some (0xC000#16, 0xC000#16) })) =
    some (.selfLoop 0xC000#16) := by decide +kernel

theorem test_reset_vector : (let t := hostReset (place 0xFFFC#16 [0x00#8, 0xC0#8] { base with nmiPending := true, stall := 3, prgBank := 3#5, a := 0x11#8, resetDone := false });
    (t.pc, t.p, t.sp, t.a, t.nmiPending, t.stall, t.prgBank)) = (0xC000#16, 0x24#8, 0xFD#8, 0x00#8, false, 0, 3#5) := by decide +kernel

/-- R361: the abort records the accessor and its address. -/
theorem test_storageBounds_records_accessor :
    faultOf (readBankChr (-1) 0x1234#16 base) = some (.storageBounds .readBank (-1) 0x1234#16) ∧
    faultOf (writeBankChr 3 0x0FFF#16 0x55#8 base) = some (.storageBounds .writeBank 3 0x0FFF#16) := by decide +kernel

/-- R52: a machine not yet reset is reset before it runs an instruction. -/
theorem test_withFetchWord_resets :
    (answer (step (State.withFetchWord (State.powerOn Config.defaultParams [] [] []) 8 0xAA))).map State.sp =
      some 0xFD#8 := by decide +kernel

/-- R53, and the refusal of R52. -/
theorem test_cpuState_samples : answer (cpuState base) = some "A:00 X:00 Y:00 SP:FD PC:C000 P:24 [..-..I..]" ∧
    answer (cpuState { base with p := 0xE7#8 }) = some "A:00 X:00 Y:00 SP:FD PC:C000 P:E7 [NV-..IZC]" ∧
    answer (cpuState { base with p := 0x2C#8 }) = some "A:00 X:00 Y:00 SP:FD PC:C000 P:2C [..-.DI..]" ∧
    refusalOf (cpuState { base with resetDone := false }) = some .notReset := by decide +kernel

/-! ### Mapper (2.13) -/

theorem test_mapper_reset_discards : (let t := memWrite 0x8000#16 0x80#8 (memWrite 0xE000#16 1#8 (memWrite 0xE000#16 1#8 eight)); (t.shift, t.control, t.prgBank)) =
    (0x10#5, 0x0C#5, 0#5) := by decide +kernel

theorem test_mapper_bank_three : (let t := writeFive 0xE000#16 true true false false false eight; (t.prgBank, prgOff0 t, prgOff1 t)) = (3#5, 0xC000, 0x1C000) := by decide +kernel

theorem test_mapper_mode_zero : (let t := writeFive 0xE000#16 true true false false false (writeFive 0x8000#16 false false false false false eight);
    (t.control, prgOff0 t, prgOff1 t)) = (0#5, 2 * 0x4000, 3 * 0x4000) := by decide +kernel

theorem test_mapper_mode_two : (let t := writeFive 0xE000#16 true true false false false (writeFive 0x8000#16 false false false true false eight);
    (t.control, prgOff0 t, prgOff1 t)) = (8#5, 0, 3 * 0x4000) := by decide +kernel

theorem test_mapper_last_address_selects : (let t := memWrite 0xA000#16 1#8 (memWrite 0x9000#16 1#8 (memWrite 0x9FFF#16 1#8 (memWrite 0x8001#16 1#8 (memWrite 0x8000#16 1#8 eight))));
    (t.chrBank0, t.control)) = (0x1F#5, 0x0C#5) := by decide +kernel

theorem test_host_write_reaches_prg : (let t := hostWrite 0x8000#16 0xAA#8 eight; (t.prg.read 0, t.shift)) = (0xAA#8, 0x10#5) := by decide +kernel

/-! ### Disassembler and assembler (2.14, 2.15, section 1) -/

theorem test_disassemble_relative : disassemble .cpu 0xC009#16 (place 0xC009#16 [0x90#8, 0x02#8] base) = ("C009  90 02     BCC $02 ; $C00D", 0xC00B#16) := by decide +kernel

theorem test_disassemble_zpy : disassemble .cpu 0xC000#16 (place 0xC000#16 [0x96#8, 0x10#8] base) = ("C000  96 10     STX $10,Y", 0xC002#16) := by decide +kernel

theorem test_disassemble_illegal : disassemble .cpu 0xC000#16 (place 0xC000#16 [0xFF#8] base) = ("C000  FF        ???", 0xC001#16) := by decide +kernel

theorem test_disassemble_wraps : disassemble .cpu 0xFFFF#16 (place 0xFFFF#16 [0x4C#8] base) = ("FFFF  4C 00 00  JMP $0000", 0x0002#16) := by decide +kernel

/-- A session with nothing in it. -/
def fresh : Session := ⟨[], [], []⟩

/-- Lines assembled in order from a cursor: the last code, the session and the state. -/
def lines : List (List Char) → Word → Session → State → AsmCode × Session × State
  | [], _, ss, s => (.codeNone, ss, s)
  | l :: ls, c, ss, s =>
    let r := assemble .cpu l c ss s
    if ls.isEmpty then (r.code, r.session, r.st) else lines ls r.cursor r.session r.st

/-- What `ApplyFixups` reports after these lines, and the four bytes from $C000. -/
def assembled (ls : List (List Char)) : List (List Char) × List Byte :=
  let r := lines ls 0xC000#16 fresh base
  let f := applyFixups r.2.1 r.2.2
  (f.1, [f.2.2.peek 0xC000#16, f.2.2.peek 0xC001#16, f.2.2.peek 0xC002#16, f.2.2.peek 0xC003#16])

/-- S9. -/
theorem test_assemble_forward_jump : assembled ["JMP LATER".toList, "NOP".toList, "LATER:".toList] =
    ([], [0x4C#8, 0x04#8, 0xC0#8, 0xEA#8]) := by decide +kernel

/-- S10. -/
theorem test_assemble_unresolved : assembled ["JSR NOWHERE".toList] =
    (["Unresolved symbol 'NOWHERE' at $C001".toList], [0x20#8, 0x00#8, 0x00#8, 0x00#8]) := by decide +kernel

theorem test_assemble_branch_fixup : assembled ["BNE FWD".toList, "NOP".toList, "FWD:".toList] =
    ([], [0xD0#8, 0x01#8, 0xEA#8, 0x00#8]) := by decide +kernel

theorem test_assemble_branch_out_of_range : assembled ["BNE FAR".toList, ".ORG $C100".toList, "FAR:".toList] =
    (["Branch to 'FAR' out of range at $C001".toList], [0xD0#8, 0x00#8, 0x00#8, 0x00#8]) := by decide +kernel

theorem test_assemble_data_fixup : assembled [".DW LATER".toList, "LATER = $1234".toList] =
    ([], [0x34#8, 0x12#8, 0x00#8, 0x00#8]) := by decide +kernel

theorem test_assemble_known_symbol_is_byte : assembled ["X1 = 5".toList, "LDA X1".toList] =
    ([], [0xA5#8, 0x05#8, 0x00#8, 0x00#8]) := by decide +kernel

/-- S11. -/
theorem test_assemble_unknown_mnemonic : (let r := lines ["FOOBAR".toList] 0xC000#16 fresh base; (r.1, r.2.1, r.2.2.prg)) = (.unknownOpcode, fresh, []) := by decide +kernel

/-! ### Witnesses: the hypotheses of the statements can be met, each clause at a boundary of its range -/

theorem next_of_isSome {α : Type} {o : Host.Outcome α Fault Refusal} (h : (answer o).isSome = true) : ∃ t, o = .next t := by
  cases o with
  | next t => exact ⟨t, rfl⟩
  | fault f => exact absurd h (by simp [answer])
  | refused r => exact absurd h (by simp [answer])

theorem fault_of_eq {α : Type} {o : Host.Outcome α Fault Refusal} {f : Fault} (h : faultOf o = some f) : o = .fault f := by
  cases o with
  | next t => exact absurd h (by simp [faultOf])
  | fault g => simpa [faultOf] using h
  | refused r => exact absurd h (by simp [faultOf])

/-- A CHR bank, $00 to $0FFF. -/
def withChr : State := { base with params := { Config.defaultParams with chrSize := 4096 } }

/-- CPU stores to $8000-$FFFF reach PRG. -/
def storing : State := { base with params := { Config.defaultParams with romWriteMode := .storageWrite } }

/-- The watchdog exists and has seen the branch at $C000 once. -/
def watched : State :=
  { base with
    params := { Config.defaultParams with selfLoopAbort := true }
    lastBranch := some (0xC000#16, 0xC000#16)
    p := 0x26#8 }

theorem memoryOk_base : MemoryOk base := by unfold MemoryOk; decide +kernel

theorem flagsOk_base : FlagsOk base := by unfold FlagsOk; decide +kernel

theorem inv_base : Invariant base := by unfold Invariant MemoryOk FlagsOk SentinelOk WatchdogOk; decide +kernel

theorem wit_DecodeAfterEncode : (Instr.illegal 0xFF#8).WellFormed ∧ (Instr.lda (.imm 0x00#8)).WellFormed := by decide +kernel

theorem wit_EncodeAfterDecode :
    decode [0xA9#8, 0x00#8, 0xEA#8] = .ok (.lda (.imm 0x00#8), [0xEA#8]) ∧ Instr.lda (.imm 0x00#8) ≠ .brk ∧
    decode [0x00#8, 0xFF#8] = .ok (.brk, []) := by decide +kernel

theorem wit_IllegalOpcodeSet : 0x02#8 ∈ illegalBytes ∧ 0xFF#8 ∈ illegalBytes ∧ 0x00#8 ∉ illegalBytes ∧ 0xFE#8 ∉ illegalBytes := by
  decide +kernel

theorem wit_StepRunsDecodedInstruction :
    let s := place 0xC000#16 [0xAD#8, 0x34#8, 0x12#8] base
    let u := serviceInterrupt s
    let b0 := memRead u.pc u
    let b1 := memRead (u.pc + 1#16) b0.2
    let b2 := memRead (u.pc + 2#16) b1.2
    s.resetDone = true ∧ s.stall = 0 ∧ decode [b0.1, b1.1, b2.1] = .ok (.lda (.abs 0x1234#16), []) := by decide +kernel

theorem wit_StalledStepOnlyCounts : (hostAddStall 1 base).resetDone = true ∧ 0 < (hostAddStall 1 base).stall := by decide +kernel

theorem wit_StepRefusedOnlyBeforeReset :
    ∃ t, load Config.defaultParams [(0, 0x11#8)] [(16384, 0xEA#8)] [] = .next t := next_of_isSome (by decide +kernel)

theorem wit_EveryStepCompletes : base.resetDone = true ∧ base.params.selfLoopAbort = false := by decide +kernel

theorem wit_OnlyTheWatchdogFaults : step (place 0xC000#16 [0xF0#8, 0xFE#8] watched) = .fault (.selfLoop 0xC000#16) :=
  fault_of_eq (by decide +kernel)

theorem wit_StepCycleCount :
    (∃ t, step (hostAddStall 1 base) = .next t) ∧ 0 < (hostAddStall 1 base).stall ∧
    (∃ t, step (place 0xC000#16 [0xEA#8] base) = .next t) ∧ (place 0xC000#16 [0xEA#8] base).stall = 0 :=
  ⟨next_of_isSome (by decide +kernel), by decide +kernel, next_of_isSome (by decide +kernel), by decide +kernel⟩

theorem wit_StepKeepsInvariant : Invariant base ∧ ∃ t, step base = .next t := ⟨inv_base, next_of_isSome (by decide +kernel)⟩

theorem wit_ResetMeetsInvariant :
    ∃ t, load { Config.defaultParams with chrSize := 4096 } [(2047, 0xFF#8)] [(32767, 0xC0#8)] [(4095, 0x01#8)] = .next t :=
  next_of_isSome (by decide +kernel)

theorem wit_ProgramStorageIsReadOnly :
    (place 0xC000#16 [0x8D#8, 0x00#8, 0x80#8] base).params.romWriteMode = .registerLoad ∧
    ∃ t, step (place 0xC000#16 [0x8D#8, 0x00#8, 0x80#8] base) = .next t :=
  ⟨by decide +kernel, next_of_isSome (by decide +kernel)⟩

theorem wit_InstructionsLeaveControlsAlone :
    (∃ t, exec .nop base = .next t) ∧ Instr.nop ≠ .plp ∧ Instr.nop ≠ .rti :=
  ⟨next_of_isSome (by decide +kernel), by decide, by decide⟩

theorem wit_OperandReads : ∃ t, exec (.inc (.abs 0x2002#16)) base = .next t :=
  next_of_isSome (by decide +kernel)

theorem wit_InterruptSelection :
    (hostNmi base).nmiPending = true ∧
    (let s : State := hostIrq { base with p := 0x20#8 }
     s.nmiPending = false ∧ s.irqPending = true ∧ s.flag .i = false) ∧
    ((hostIrq base).nmiPending = false ∧ (hostIrq base).flag .i = true) ∧
    (base.nmiPending = false ∧ base.irqPending = false) := by decide +kernel

theorem wit_InterruptEntry : MemoryOk base ∧ (0xFFFA#16 = 0xFFFA#16 ∨ 0xFFFA#16 = 0xFFFE#16) := ⟨memoryOk_base, .inl rfl⟩

theorem wit_NmiCannotBeMasked :
    (hostNmi base).nmiPending = true ∧ (hostNmi base).flag .i = true ∧ (hostNmi base).stall = 0 ∧
    ∃ t, step (hostNmi base) = .next t :=
  ⟨by decide +kernel, by decide +kernel, by decide +kernel, next_of_isSome (by decide +kernel)⟩

theorem wit_MaskedIrqIsDeferred :
    ((hostIrq base).irqPending = true ∧ (hostIrq base).flag .i = true ∧ ∃ t, step (hostIrq base) = .next t) ∧
    (let s : State := hostIrq { base with p := 0x20#8 }
     s.irqPending = true ∧ (answer (step s)).map State.irqPending = some false) :=
  ⟨⟨by decide +kernel, by decide +kernel, next_of_isSome (by decide +kernel)⟩, by decide +kernel⟩

theorem wit_ReturnAfterEntry : MemoryOk base ∧ FlagsOk base ∧ (0xFFFE#16 = 0xFFFA#16 ∨ 0xFFFE#16 = 0xFFFE#16) :=
  ⟨memoryOk_base, flagsOk_base, .inr rfl⟩

theorem wit_MapperPowerOnState : ∃ t, load Config.defaultParams [] [] [] = .next t := next_of_isSome (by decide +kernel)

theorem wit_LoadChecksSizes :
    (¬ ∃ t, load { Config.defaultParams with prgSize := 0 } [] [] [] = .next t) ∧
    (¬ ∃ t, load Config.defaultParams [(2048, 0x01#8)] [] [] = .next t) ∧
    (∃ t, load Config.defaultParams [(2047, 0x01#8)] [(32767, 0x01#8)] [] = .next t) := by
  have no : ∀ {o : Result} {t : State}, answer o = none → o ≠ .next t := by rintro o t h rfl; exact absurd h (by simp [answer])
  exact ⟨fun ⟨_, h⟩ => no (by decide +kernel) h, fun ⟨_, h⟩ => no (by decide +kernel) h,
    next_of_isSome (by decide +kernel)⟩

theorem wit_HostWritePlacesBytes : MemoryOk base ∧ 0x7FFF#16 < 0x8000#16 ∧ 0x8000#16 ≤ 0x8000#16 ∧ 0x8000#16 ≤ 0xFFFF#16 :=
  ⟨memoryOk_base, by decide, by decide, by decide⟩

theorem wit_BankAwareAccess :
    (MemoryOk base ∧ base.params.valid = true ∧ base.params.chrSize = 0) ∧
    (MemoryOk withChr ∧ withChr.params.valid = true ∧ withChr.params.chrSize ≠ 0) ∧
    (0x8000#16 ≤ 0x8000#16 ∧ 0x8000#16 ≤ 0xFFFF#16) := by
  unfold MemoryOk; decide +kernel

theorem wit_WorkRamIsMirrored :
    0x1FFF#16 < 0x2000#16 ∧ MemoryOk base ∧
    (0x07FF#16 < 0x2000#16 ∧ (0x07FF#16).toNat % 2048 = (0x1FFF#16).toNat % 2048) ∧
    (0x0000#16 < 0x2000#16 ∧ (0x0000#16).toNat % 2048 ≠ (0x1FFF#16).toNat % 2048) :=
  ⟨by decide, memoryOk_base, by decide, by decide⟩

theorem wit_ExternalRegion :
    isExternal 0x1FFF#16 = false ∧ isExternal 0x2000#16 = true ∧ isExternal 0x7FFF#16 = true ∧
    isExternal 0x8000#16 = false := by decide

theorem wit_CpuStoreToProgramSpace :
    0x8000#16 ≤ 0x8000#16 ∧ MemoryOk base ∧ base.params.romWriteMode = .registerLoad ∧
    MemoryOk storing ∧ storing.params.romWriteMode = .storageWrite := by
  unfold MemoryOk; decide +kernel

theorem wit_SerialPort :
    (0x80#8).getLsbD 7 = true ∧ ((0x01#8).getLsbD 7 = false ∧ base.shift.getLsbD 0 = false) ∧ base.shift = 0x10#5 ∧
    ({ base with shift := 0x19#5 } : State).shift.getLsbD 0 = true ∧
    (0x8000#16 ≤ 0x9FFF#16 ∧ 0x9FFF#16 < 0xA000#16) ∧ (0xA000#16 ≤ 0xBFFF#16 ∧ 0xBFFF#16 < 0xC000#16) ∧
    (0xC000#16 ≤ 0xDFFF#16 ∧ 0xDFFF#16 < 0xE000#16) ∧ 0xE000#16 ≤ 0xE000#16 := by decide +kernel

theorem wit_BankWindows :
    base.params.valid = true ∧ withChr.params.valid = true ∧
    (0x8000#16 ≤ 0xBFFF#16 ∧ 0xBFFF#16 < 0xC000#16) ∧ 0xC000#16 ≤ 0xC000#16 ∧
    (0x04#5).toNat / 4 % 4 ≤ 1 ∧ (0x08#5).toNat / 4 % 4 = 2 ∧ base.control.toNat / 4 % 4 = 3 ∧
    base.params.chrSize / 4096 = 0 ∧ withChr.params.chrSize / 4096 ≠ 0 ∧
    withChr.control.getLsbD 4 = false ∧ ({ withChr with control := 0x10#5 } : State).control.getLsbD 4 = true := by
  decide +kernel

theorem wit_MapperWorkedExample :
    eight.params.valid = true ∧ eight.params.romWriteMode = .registerLoad ∧ eight.shift = 0x10#5 ∧
    eight.control.toNat / 4 % 4 = 3 := by decide +kernel

theorem wit_StackPrimitives : MemoryOk base := memoryOk_base

theorem wit_EffectiveAddresses : mkWord (base.peek (zext16 (0x20#8 + 1#8))) (base.peek (zext16 0x20#8)) = 0x0000#16 := by
  decide +kernel

theorem wit_StoreInstructions : MemoryOk base := memoryOk_base
theorem wit_PushInstructions : MemoryOk base := memoryOk_base
theorem wit_MemoryIncrement : MemoryOk base := memoryOk_base
theorem wit_ShiftInstructions : MemoryOk base ∧ ShiftMode.zp 0x10#8 ≠ .acc := ⟨memoryOk_base, by decide⟩
theorem wit_SubroutineInstructions : MemoryOk base := memoryOk_base
theorem wit_CallThenReturn : MemoryOk base := memoryOk_base
theorem wit_SoftwareInterrupt : MemoryOk base := memoryOk_base

theorem wit_ConditionalBranches :
    base.flag .z = false ∧ watched.flag .z = true ∧
    ¬ (base.params.selfLoopAbort = true ∧ BitVec.ofInt 16 ((base.pc.toNat : Int) + 2 + (0xFE#8).toInt) = base.pc ∧
      base.lastBranch = some (base.pc, base.pc)) := by decide +kernel

theorem wit_SelfLoopWatchdog :
    ((Instr.beq 0xFE#8).operand = .rel 0xFE#8 ∧ watched.params.selfLoopAbort = true ∧
      branchTaken (.beq 0xFE#8) watched = true ∧ eaOf (Instr.beq 0xFE#8).operand watched = watched.pc ∧
      watched.lastBranch = some (watched.pc, watched.pc)) ∧
    base.params.selfLoopAbort = false ∧ (∀ d, Instr.nop.operand ≠ .rel d) :=
  ⟨by decide +kernel, by decide +kernel, fun d h => by cases h⟩

theorem wit_JumpInstruction :
    (place 0x1000#16 [0x34#8] (place 0x10FF#16 [0x12#8] base)).peek 0x10FF#16 = 0x12#8 ∧
    (place 0x1000#16 [0x34#8] (place 0x10FF#16 [0x12#8] base)).peek 0x1000#16 = 0x34#8 := by decide +kernel

theorem wit_FlagInstructions :
    (Instr.clc, Flag.c, false) ∈ [(Instr.clc, Flag.c, false), (.cld, .d, false), (.cli, .i, false), (.clv, .v, false),
      (.sec, .c, true), (.sed, .d, true), (.sei, .i, true)] := by decide

theorem wit_IllegalOpcode : 0x02#8 ∈ illegalBytes := by decide +kernel

theorem wit_DisassemblerLeavesStateAlone :
    isExternal 0x1FFD#16 = false ∧ isExternal (0x1FFD#16 + 1#16) = false ∧ isExternal (0x1FFD#16 + 2#16) = false := by decide

theorem wit_FailingLineChangesNothing :
    (assemble .cpu "FOOBAR".toList 0xC000#16 fresh base).code = .unknownOpcode ∧
    (assemble .cpu "LDA #FUTURE".toList 0xC000#16 fresh base).code = .invalidOperand ∧
    (assemble .cpu "STX $10,X".toList 0xC000#16 fresh base).code = .invalidMode := by decide +kernel

end Sys2Proof.Tests
end

section
/-! The stack primitives (R16): what pushes leave, what pulls answer, and the word a pull gives back after its push. -/

namespace Sys2Proof.Machine

/-! ### Pushes -/

theorem Agrees.refl (s : State) : Agrees s s := ⟨SameWorld.refl s, ⟨rfl, rfl, rfl, rfl, rfl, rfl⟩, rfl, rfl⟩

theorem push_pushed_self {s : State} (hs : MemoryOk s) (v : Byte) : Pushed [v] s (push v s) :=
  (push_pushed hs (Agrees.refl s) v).1

theorem push16_setPC_pc (w : Word) (s : State) : (push16 w s).setPC s.pc = push16 w s := by
  rw [push16_eq]; rfl

theorem push16_pushed_self {s : State} (hs : MemoryOk s) (w : Word) : Pushed [hi w, lo w] s (push16 w s) := by
  have h := (push16_pushed hs (Agrees.refl s) w s.pc).1
  rwa [push16_setPC_pc] at h

/-! ### Pulls -/

theorem pull_eq_stackByte (s : State) : pull s = (stackByte s 1, { s with sp := s.sp + 1#8 }) := by
  rw [pull_eq, stackByte_eq]

theorem pull16_eq_stackByte (s : State) :
    pull16 s = (mkWord (stackByte s 2) (stackByte s 1), { s with sp := s.sp + 2#8 }) := by
  rw [pull16_eq, stackByte_eq, stackByte_eq]

/-! ### Pulling what was pushed -/

/-- The bytes above the stack pointer after a push sequence are the pushed ones, the last one nearest. -/
theorem Pushed.stackByte_eq {bs : List Byte} {s t : State} (h : Pushed bs s t) {j : Nat} (hj : j < bs.length) :
    stackByte t (bs.length - j) = bs[j] := by
  obtain ⟨hsp, hcells, -⟩ := h
  have hlen : BitVec.ofNat 8 bs.length = BitVec.ofNat 8 j + BitVec.ofNat 8 (bs.length - j) := by
    rw [← BitVec.ofNat_add, Nat.add_sub_cancel' hj.le]
  have haddr : t.sp + BitVec.ofNat 8 (bs.length - j) = s.sp - BitVec.ofNat 8 j := by
    rw [hsp, hlen]; bv_omega
  rw [stackByte, haddr]
  exact (hcells j hj).2

theorem pull16_push16 {s : State} (hs : MemoryOk s) (w : Word) :
    pull16 (push16 w s) = (w, { s with ram := (push16 w s).ram }) := by
  have hp := push16_pushed_self hs w
  have hhi : stackByte (push16 w s) 2 = hi w := hp.stackByte_eq (j := 0) (by simp)
  have hlo : stackByte (push16 w s) 1 = lo w := hp.stackByte_eq (j := 1) (by simp)
  have hst : { push16 w s with sp := (push16 w s).sp + 2#8 } = { s with ram := (push16 w s).ram } := by
    rw [push16_eq, BitVec.sub_add_cancel]
  rw [pull16_eq_stackByte, hhi, hlo, mkWord_hi_lo, hst]

/-- Settles O31 from the four primitives' own lemmas. -/
theorem stackPrimitives : Obligations.StackPrimitives := fun s v w hs =>
  ⟨push_pushed_self hs v, push16_pushed_self hs w, pull_eq_stackByte s, pull16_eq_stackByte s, pull16_push16 hs w⟩

end Sys2Proof.Machine
end

section
/-! What every step keeps (R37, R47, R49, R83): the invariant goes through any effect an instruction, the fetch or
interrupt service can have. -/

namespace Sys2Proof.Machine

/-! ### The invariant's parts look only at what `SameWorld` compares -/

theorem SameWorld.memoryOk {s t : State} (h : SameWorld s t) (hs : MemoryOk s) : MemoryOk t := by
  obtain ⟨hram, hprg, hchr, -, hparams, -⟩ := h
  unfold MemoryOk
  rwa [hram, hprg, hchr, hparams]

theorem SameWorld.sentinelOk {s t : State} (h : SameWorld s t) (hs : SentinelOk s) : SentinelOk t := by
  obtain ⟨-, -, -, ⟨hshift, -⟩, -, -⟩ := h
  unfold SentinelOk
  rwa [hshift]

theorem SameWorld.params_eq {s t : State} (h : SameWorld s t) : t.params = s.params := h.2.2.2.2.1

theorem pushBytes_memoryOk {s : State} (hs : MemoryOk s) (bs : List Byte) :
    MemoryOk { s with ram := pushBytes s.sp bs s.ram } := by
  obtain ⟨hram, hprg, hchr, hramLt, hprgLt, hchrLt⟩ := hs
  exact ⟨pushBytes_wf _ _ hram, hprg, hchr, pushBytes_below _ _ hramLt, hprgLt, hchrLt⟩

/-! ### The effect on memory, mapper and events keeps them -/

theorem WorldEffect.params_eq {s t : State} (h : WorldEffect s t) : t.params = s.params := by
  obtain h | ⟨a, v, h⟩ | ⟨bs, -, h⟩ | ⟨op, pc, h⟩ := h
  · exact h.params_eq
  · exact h.params_eq.trans (memWrite_params a v s)
  · exact h.params_eq
  · exact h.params_eq

theorem WorldEffect.memoryOk {s t : State} (h : WorldEffect s t) (hv : s.params.valid = true) (hs : MemoryOk s) :
    MemoryOk t := by
  obtain h | ⟨a, v, h⟩ | ⟨bs, -, h⟩ | ⟨op, pc, h⟩ := h
  · exact h.memoryOk hs
  · exact h.memoryOk (memWrite_memoryOk hv hs a v)
  · exact h.memoryOk (pushBytes_memoryOk hs bs)
  · exact h.memoryOk hs

theorem WorldEffect.sentinelOk {s t : State} (h : WorldEffect s t) (hs : SentinelOk s) : SentinelOk t := by
  obtain h | ⟨a, v, h⟩ | ⟨bs, -, h⟩ | ⟨op, pc, h⟩ := h
  · exact h.sentinelOk hs
  · exact h.sentinelOk (memWrite_sentinelOk hs a v)
  · exact h.sentinelOk hs
  · exact h.sentinelOk hs

/-! ### The phases of a step -/

/-- What a phase of a step must do to keep the invariant. It may clear a request and move the stall counter. -/
theorem Invariant.of_worldEffect {s t : State} (hs : Invariant s) (hw : WorldEffect s t)
    (hr : t.resetDone = s.resetDone) (hp : PFlagsOk s.p → PFlagsOk t.p)
    (hl : s.params.selfLoopAbort = false → t.lastBranch = s.lastBranch) : Invariant t := by
  obtain ⟨hvalid, hreset, hmem, hflags, hsent, hdog⟩ := hs
  refine ⟨?_, hr.trans hreset, hw.memoryOk hvalid hmem, hp hflags, hw.sentinelOk hsent, fun ha => ?_⟩
  · rw [hw.params_eq]; exact hvalid
  · rw [hw.params_eq] at ha
    exact (hl ha).trans (hdog ha)

theorem stallStep_invariant {s : State} (hs : Invariant s) : Invariant (stallStep s) :=
  hs.of_worldEffect (.inl ⟨rfl, rfl, rfl, ⟨rfl, rfl, rfl, rfl, rfl⟩, rfl, rfl⟩) rfl id fun _ => rfl

theorem fetch_invariant {s : State} (hs : Invariant s) : Invariant (fetch s).2 := by
  refine hs.of_worldEffect (.inl (fetch_world s)) ?_ ?_ ?_ <;> rw [fetch_frame] <;> simp

/-- Interrupt service is three pushes, P.I, PC, cycles and a cleared request, or nothing (R366, R368). -/
theorem serviceInterrupt_invariant {s : State} (hs : Invariant s) : Invariant (serviceInterrupt s) := by
  have entered : ∀ {t : State} {bs : List Byte}, bs.length ≤ 3 →
      SameWorld { s with ram := pushBytes s.sp bs s.ram } t → t.resetDone = s.resetDone →
      t.p = setFlag .i true s.p → t.lastBranch = s.lastBranch → Invariant t := fun hlen hw hr hp hl =>
    hs.of_worldEffect (.inr (.inr (.inl ⟨_, hlen, hw⟩))) hr
      (fun h => by rw [hp]; exact pFlagsOk_setFlag _ (by decide) (by decide) h) fun _ => hl
  obtain ⟨-, h⟩ | ⟨-, -, -, h⟩ | ⟨-, -, h⟩ := serviceInterrupt_cases s
  · rw [h]; exact entered (by simp) ⟨rfl, rfl, rfl, ⟨rfl, rfl, rfl, rfl, rfl⟩, rfl, rfl⟩ rfl rfl rfl
  · rw [h]; exact entered (by simp) ⟨rfl, rfl, rfl, ⟨rfl, rfl, rfl, rfl, rfl⟩, rfl, rfl⟩ rfl rfl rfl
  · rw [h]; exact hs

theorem exec_invariant {i : Instr} {s t : State} (hs : Invariant s) (h : exec i s = .next t) : Invariant t := by
  obtain ⟨hw, ⟨-, -, -, -, -, hr⟩, hp, hl⟩ := exec_effect h
  exact hs.of_worldEffect hw hr hp hl

/-- Settles O11: each phase of the step keeps the invariant. -/
theorem stepKeepsInvariant : Obligations.StepKeepsInvariant := by
  intro s t hs h
  obtain ⟨-, he⟩ | ⟨-, -, he⟩ | ⟨-, -, he⟩ := step_cases s
  · rw [he] at h; cases h
  · rw [he] at h; cases h; exact stallStep_invariant hs
  · rw [he] at h; exact exec_invariant (fetch_invariant (serviceInterrupt_invariant hs)) h

end Sys2Proof.Machine
end

section
/-! When a step is refused (R52, R404). -/

namespace Sys2Proof.Machine

theorem exec_ne_refused (i : Instr) (s : State) (r : Refusal) : exec i s ≠ .refused r := by
  obtain ⟨t, h⟩ | ⟨h, -⟩ := exec_cases i s <;> rw [h] <;> exact nofun

theorem step_refused_iff (s : State) (r : Refusal) :
    step s = .refused r ↔ (s.resetDone = false ∧ r = .notReset) := by
  obtain ⟨hr, he⟩ | ⟨hr, -, he⟩ | ⟨hr, -, he⟩ := step_cases s <;> rw [he, hr]
  · simp [eq_comm]
  · simp
  · simpa using exec_ne_refused _ _ r

theorem hostReset_resetDone (s : State) : (hostReset s).resetDone = true := by rw [hostReset_eq]

theorem load_resetDone {p : Params} {r g c : List Host.Cell} {t : State} (h : load p r g c = .next t) :
    t.resetDone = false := by
  obtain ⟨rfl, -, -⟩ := load_ok h
  rfl

/-- Settles O7: no instruction is refused, so the Reset mark alone decides. -/
theorem stepRefusedOnlyBeforeReset : Obligations.StepRefusedOnlyBeforeReset := by
  refine ⟨step_refused_iff, fun p r g c t h => ⟨?_, fun hr => ?_⟩⟩
  · exact (step_refused_iff t _).mpr ⟨load_resetDone h, rfl⟩
  · have hf := ((step_refused_iff _ _).mp hr).1
    rw [hostReset_resetDone] at hf
    cases hf

end Sys2Proof.Machine
end

section
/-! The flags an instruction can write: none but PLP and RTI reaches P.U and P.B (R36, R37). -/

namespace Sys2Proof.Machine

/-- The six flags that instructions compute: all but U and B (R36, R37). -/
def computedFlags : List Flag := [.n, .v, .d, .i, .z, .c]

/-! ### The flag computations write computed flags only -/

section
variable {f : Flag} (hf : f ∉ computedFlags)
include hf

theorem getFlag_setFlag_of_notMem (g : Flag) (hg : g ∈ computedFlags) (b : Bool) (p : Byte) :
    getFlag f (setFlag g b p) = getFlag f p := by
  rw [getFlag_setFlag, if_neg (ne_of_mem_of_not_mem hg hf).symm]

@[simp] theorem getFlag_nzFlags_of_notMem (v p : Byte) : getFlag f (nzFlags v p) = getFlag f p := by
  unfold nzFlags
  rw [getFlag_setFlag_of_notMem hf _ (by decide), getFlag_setFlag_of_notMem hf _ (by decide)]

@[simp] theorem getFlag_shiftFlags_of_notMem (r : Byte) (c : Bool) (p : Byte) :
    getFlag f (shiftFlags r c p) = getFlag f p := by
  unfold shiftFlags
  rw [getFlag_nzFlags_of_notMem hf, getFlag_setFlag_of_notMem hf _ (by decide)]

@[simp] theorem getFlag_cmpFlags_of_notMem (r m p : Byte) : getFlag f (cmpFlags r m p) = getFlag f p := by
  simp only [computedFlags, List.mem_cons, not_or] at hf
  simp [getFlag_cmpFlags, hf]

@[simp] theorem getFlag_bitFlags_of_notMem (a m p : Byte) : getFlag f (bitFlags a m p) = getFlag f p := by
  simp only [computedFlags, List.mem_cons, not_or] at hf
  simp [getFlag_bitFlags, hf]

@[simp] theorem getFlag_adcFlags_of_notMem (a m p : Byte) : getFlag f (adcFlags a m p) = getFlag f p := by
  simp only [computedFlags, List.mem_cons, not_or] at hf
  simp [getFlag_adcFlags, hf]

@[simp] theorem getFlag_sbcFlags_of_notMem (a m p : Byte) : getFlag f (sbcFlags a m p) = getFlag f p := by
  simp only [computedFlags, List.mem_cons, not_or] at hf
  simp [getFlag_sbcFlags, hf]

end

/-! ### P after each instruction shape -/

theorem readForm_flagsSameBut {i : Instr} {g : Byte → State → State} {s t : State}
    (hg : ∀ v u, FlagsSameBut computedFlags u (g v u)) (h : readForm i g s = .next t) :
    FlagsSameBut computedFlags s t := by
  cases h
  intro f hf
  rw [hg _ _ f hf, readM_snd_flag]

theorem impliedForm_flagsSameBut {i : Instr} {g : State → State} {s t : State}
    (hg : ∀ u, FlagsSameBut computedFlags u (g u)) (h : impliedForm i g s = .next t) :
    FlagsSameBut computedFlags s t := by
  cases h
  intro f hf
  rw [hg _ f hf, start_st_flag]

theorem storeForm_p {i : Instr} {reg : State → Byte} {s t : State} (h : storeForm i reg s = .next t) : t.p = s.p := by
  cases h
  simp

theorem rmwForm_p {i : Instr} {g : Byte → Byte} {s t : State} (h : rmwForm i g s = .next t) :
    ∃ v, t.p = nzFlags v s.p := by
  cases h
  exact ⟨_, congrArg (nzFlags _) (by simp [memRead])⟩

theorem shiftForm_p {i : Instr} {g : Byte → Bool → Byte × Bool} {s t : State} (h : shiftForm i g s = .next t) :
    ∃ r c, t.p = shiftFlags r c s.p := by
  cases h
  refine ⟨_, _, congrArg (shiftFlags _ _) ?_⟩
  split <;> rw [operandValue_snd] <;> simp

theorem branchForm_p {i : Instr} {cond : State → Bool} {s t : State} (h : branchForm i cond s = .next t) :
    t.p = s.p := by
  simp only [branchForm] at h
  split at h
  · split at h
    · cases h
    · cases h; simp
  · cases h; simp

/-! ### All instructions -/

theorem flagsSameBut_of_p_eq {fs : List Flag} {s t : State} (h : t.p = s.p) : FlagsSameBut fs s t := fun f _ => by
  rw [State.flag_eq, h, State.flag_eq]

theorem rmwForm_flagsSameBut {i : Instr} {g : Byte → Byte} {s t : State} (h : rmwForm i g s = .next t) :
    FlagsSameBut computedFlags s t := fun f hf => by
  obtain ⟨v, hp⟩ := rmwForm_p h
  rw [State.flag_eq, hp, getFlag_nzFlags_of_notMem hf, State.flag_eq]

theorem shiftForm_flagsSameBut {i : Instr} {g : Byte → Bool → Byte × Bool} {s t : State} (h : shiftForm i g s = .next t) :
    FlagsSameBut computedFlags s t := fun f hf => by
  obtain ⟨r, c, hp⟩ := shiftForm_p h
  rw [State.flag_eq, hp, getFlag_shiftFlags_of_notMem hf, State.flag_eq]

theorem exec_flagsSameBut {i : Instr} {s t : State} (hplp : i ≠ .plp) (hrti : i ≠ .rti) (h : exec i s = .next t) :
    FlagsSameBut computedFlags s t := by
  cases i with
  | plp => exact absurd rfl hplp
  | rti => exact absurd rfl hrti
  | lda _ | ldx _ | ldy _ | and _ | ora _ | eor _ | adc _ | sbc _ | bit _ | cmp _ | cpx _ | cpy _ =>
    simp only [exec, execLda, execLdx, execLdy, execAnd, execOra, execEor, execAdc, execSbc, execBit, execCmp, execCpx,
      execCpy] at h
    exact readForm_flagsSameBut (fun v u f hf => by simp [State.flag, hf]) h
  | sta _ | stx _ | sty _ =>
    simp only [exec, execSta, execStx, execSty] at h
    exact flagsSameBut_of_p_eq (storeForm_p h)
  | tax | tay | txa | tya | tsx | txs | inx | iny | dex | dey | nop =>
    simp only [exec, execTax, execTay, execTxa, execTya, execTsx, execTxs, execInx, execIny, execDex, execDey,
      execNop] at h
    exact impliedForm_flagsSameBut (fun u f hf => by simp [State.flag, hf]) h
  | clc | cld | cli | clv | sec | sed | sei =>
    simp only [exec, execClc, execCld, execCli, execClv, execSec, execSed, execSei] at h
    refine impliedForm_flagsSameBut (fun u f hf => ?_) h
    exact getFlag_setFlag_of_notMem hf _ (by decide) _ _
  | pha | php =>
    simp only [exec, execPha, execPhp] at h
    exact impliedForm_flagsSameBut (fun u => flagsSameBut_of_p_eq (by rw [push_eq])) h
  | pla =>
    simp only [exec, execPla] at h
    exact impliedForm_flagsSameBut (fun u f hf => by simp [pull_eq, State.flag, hf]) h
  | rts =>
    simp only [exec, execRts] at h
    exact impliedForm_flagsSameBut (fun u => flagsSameBut_of_p_eq (by rw [pull16_eq]; rfl)) h
  | brk =>
    simp only [exec, execBrk] at h
    refine impliedForm_flagsSameBut (fun u f hf => ?_) h
    rw [takeInterrupt_eq _ (.inr rfl)]
    exact getFlag_setFlag_of_notMem hf _ (by decide) _ _
  | inc _ | dec _ =>
    simp only [exec, execInc, execDec] at h
    exact rmwForm_flagsSameBut h
  | asl _ | lsr _ | rol _ | ror _ =>
    simp only [exec, execAsl, execLsr, execRol, execRor] at h
    exact shiftForm_flagsSameBut h
  | bcc _ | bcs _ | beq _ | bmi _ | bne _ | bpl _ | bvc _ | bvs _ =>
    simp only [exec, execBcc, execBcs, execBeq, execBmi, execBne, execBpl, execBvc, execBvs] at h
    exact flagsSameBut_of_p_eq (branchForm_p h)
  | jmp m =>
    simp only [exec, execJmp, Host.Outcome.next.injEq] at h
    subst h
    exact flagsSameBut_of_p_eq (start_st_p (.jmp m) s)
  | jsr w =>
    simp only [exec, execJsr, Host.Outcome.next.injEq] at h
    subst h
    exact flagsSameBut_of_p_eq (by rw [push16_eq]; exact start_st_p (.jsr w) s)
  | illegal op =>
    simp only [exec, execIllegal, Host.Outcome.next.injEq] at h
    subst h
    exact flagsSameBut_of_p_eq rfl

/-- Settles O14: the controls from what any instruction can do, U and B from the flags an instruction can write. -/
theorem instructionsLeaveControlsAlone : Obligations.InstructionsLeaveControlsAlone := by
  intro i s t h
  obtain ⟨-, hcontrols, -, -⟩ := exec_effect h
  refine ⟨hcontrols, fun hplp hrti => ?_⟩
  have hflags := exec_flagsSameBut hplp hrti h
  exact ⟨hflags .u (by decide), hflags .b (by decide)⟩

end Sys2Proof.Machine
end

section
/-! P.D takes no part in ADC and SBC (R38, R211, R212). -/

namespace Sys2Proof.Machine

/-! ### Addressing and the read of M do not look at P -/

theorem effAddr_setF (o : Operand) (s : State) (f : Flag) (b : Bool) :
    effAddr o (s.setF f b) = { effAddr o s with st := (effAddr o s).st.setF f b } := by
  cases o <;> rfl

theorem advance_setF (e : RomEntry) (crossed : Bool) (s : State) (f : Flag) (b : Bool) :
    advance e crossed (s.setF f b) = (advance e crossed s).setF f b := rfl

theorem operandValue_setF (o : Operand) (ea : Word) (s : State) (f : Flag) (b : Bool) :
    operandValue o ea (s.setF f b) = ((operandValue o ea s).1, (operandValue o ea s).2.setF f b) := by
  cases o <;> rfl

theorem readM_setF (i : Instr) (s : State) (f : Flag) (b : Bool) :
    readM i (s.setF f b) = ((readM i s).1, (readM i s).2.setF f b) := by
  simp only [readM, start, effAddr_setF, advance_setF, operandValue_setF]

/-! ### The flag computations of ADC and SBC carry P.D through -/

theorem adcFlags_setFlag_d (a m p : Byte) (d : Bool) :
    adcFlags a m (setFlag .d d p) = setFlag .d d (adcFlags a m p) :=
  flags_ext fun f => by cases f <;> simp [getFlag_adcFlags, getFlag_setFlag]

theorem sbcFlags_setFlag_d (a m p : Byte) (d : Bool) :
    sbcFlags a m (setFlag .d d p) = setFlag .d d (sbcFlags a m p) :=
  flags_ext fun f => by cases f <;> simp [getFlag_sbcFlags, getFlag_setFlag]

/-- A reading instruction whose update commutes with setting P.D, and keeps P.D, does so as a whole. -/
theorem readForm_setF_d {i : Instr} {g : Byte → State → State} {d : Bool}
    (hcomm : ∀ v u, g v (u.setF .d d) = (g v u).setF .d d) (hkeep : ∀ v u, (g v u).flag .d = u.flag .d) (s : State) :
    ∃ t, readForm i g s = .next t ∧ readForm i g (s.setF .d d) = .next (t.setF .d d) ∧ t.flag .d = s.flag .d := by
  refine ⟨g (readM i s).1 (readM i s).2, rfl, ?_, ?_⟩
  · simp only [readForm, readM_setF, hcomm]
  · rw [hkeep, readM_snd_flag]

theorem execAdc_setF_d (m : AluMode) (s : State) (d : Bool) :
    ∃ t, execAdc m s = .next t ∧ execAdc m (s.setF .d d) = .next (t.setF .d d) ∧ t.flag .d = s.flag .d := by
  refine readForm_setF_d (fun v u => ?_) (fun v u => ?_) s
  · simp only [State.flag_setF, State.setF_a, State.setF_p, adcFlags_setFlag_d]; rfl
  · exact getFlag_adcFlags .d u.a v u.p

theorem execSbc_setF_d (m : AluMode) (s : State) (d : Bool) :
    ∃ t, execSbc m s = .next t ∧ execSbc m (s.setF .d d) = .next (t.setF .d d) ∧ t.flag .d = s.flag .d := by
  refine readForm_setF_d (fun v u => ?_) (fun v u => ?_) s
  · simp only [State.flag_setF, State.setF_a, State.setF_p, sbcFlags_setFlag_d]; rfl
  · exact getFlag_sbcFlags .d u.a v u.p

/-- Settles O42 from the two instructions' own lemmas. -/
theorem decimalFlagIsInert : Obligations.DecimalFlagIsInert := fun m s d => ⟨execAdc_setF_d m s d, execSbc_setF_d m s d⟩

end Sys2Proof.Machine
end

section
/-! Program storage is read-only under the default mode of CPU stores (R67, R408). -/

namespace Sys2Proof.Machine

theorem memWrite_prg_of_registerLoad {s : State} (hm : s.params.romWriteMode = .registerLoad) (a : Word) (v : Byte) :
    (memWrite a v s).prg = s.prg := by
  by_cases hram : isRam a = true
  · rw [memWrite_of_isRam v s hram]
  by_cases hext : isExternal a = true
  · rw [memWrite_of_isExternal v s hext, State.emit_prg]
  have hle := le_of_not_isRam_not_isExternal (by simpa using hram) (by simpa using hext)
  rw [memWrite_of_registerLoad v s hle hm, serialWrite_prg]

theorem WorldEffect.prg_eq {s t : State} (h : WorldEffect s t) (hm : s.params.romWriteMode = .registerLoad) :
    t.prg = s.prg := by
  obtain ⟨-, hprg, -⟩ | ⟨a, v, -, hprg, -⟩ | ⟨bs, -, -, hprg, -⟩ | ⟨op, pc, -, hprg, -⟩ := h
  · exact hprg
  · exact hprg.trans (memWrite_prg_of_registerLoad hm a v)
  · exact hprg
  · exact hprg

theorem serviceInterrupt_prg_params (s : State) :
    (serviceInterrupt s).prg = s.prg ∧ (serviceInterrupt s).params = s.params := by
  obtain ⟨-, h⟩ | ⟨-, -, -, h⟩ | ⟨-, -, h⟩ := serviceInterrupt_cases s <;> rw [h] <;> exact ⟨rfl, rfl⟩

/-- Neither servicing a request nor fetching writes PRG: the pushes go to work RAM (R34). -/
theorem fetch_serviceInterrupt_prg_params (s : State) :
    (fetch (serviceInterrupt s)).2.prg = s.prg ∧ (fetch (serviceInterrupt s)).2.params = s.params := by
  rw [fetch_frame]
  exact serviceInterrupt_prg_params s

/-- Settles O13: the only write an instruction makes above $7FFF goes to the serial port. -/
theorem programStorageIsReadOnly : Obligations.ProgramStorageIsReadOnly := by
  intro s t hm h
  obtain ⟨-, he⟩ | ⟨-, -, he⟩ | ⟨-, -, he⟩ := step_cases s
  · rw [he] at h; cases h
  · rw [he] at h; cases h; exact ⟨rfl, rfl⟩
  · obtain ⟨hprg, hparams⟩ := fetch_serviceInterrupt_prg_params s
    rw [he] at h
    obtain ⟨hworld, -⟩ := exec_effect h
    exact ⟨(hworld.prg_eq (by rw [hparams]; exact hm)).trans hprg, hworld.params_eq.trans hparams⟩

end Sys2Proof.Machine
end

section
/-! The decoder's address fields as arithmetic (R63, R64, R66), and reads and writes region by region (R65, R75). -/

namespace Sys2Proof.Machine

theorem ramIndex_eq_mod (a : Word) : ramIndex a = a.toNat % 2048 := by simp [ramIndex]

theorem inPrgBank_eq_mod (a : Word) : inPrgBank a = a.toNat % 16384 := by simp [inPrgBank]

theorem isRam_iff_lt (a : Word) : isRam a = true ↔ a < 0x2000#16 := by simp [isRam]

theorem isExternal_iff (a : Word) : isExternal a = true ↔ 0x2000#16 ≤ a ∧ a < 0x8000#16 := by simp [isExternal]

theorem memRead_of_not_isExternal {a : Word} (s : State) (h : isExternal a = false) : memRead a s = (s.peek a, s) := by
  rw [memRead, touch_of_not_isExternal s h]

theorem memRead_of_isExternal {a : Word} (s : State) (h : isExternal a = true) :
    memRead a s = (Config.extRead s.extReads a, { s with extReads := s.extReads + 1 }) := by
  simp [memRead, State.peek, State.touch, h, isRam_of_isExternal h]

/-- Settles O26: the regions' bounds, and a read and a write in each. -/
theorem externalRegion : Obligations.ExternalRegion := by
  intro s a v
  refine ⟨isExternal_iff a, fun h => ?_, fun h => ⟨memRead_of_isExternal s h, memWrite_of_isExternal v s h⟩⟩
  rw [memRead_of_not_isExternal s h]
  exact ⟨rfl, memRead_of_not_isExternal s h⟩

/-! ### Work RAM (R64) -/

theorem peek_of_lt {a : Word} (s : State) (h : a < 0x2000#16) : s.peek a = s.ram.read (a.toNat % 2048) := by
  rw [peek_of_isRam s ((isRam_iff_lt a).mpr h), ramIndex_eq_mod]

theorem memWrite_ram_of_lt {a : Word} (v : Byte) (s : State) (h : a < 0x2000#16) :
    (memWrite a v s).ram = s.ram.write (a.toNat % 2048) v := by
  rw [memWrite_of_isRam v s ((isRam_iff_lt a).mpr h), ramIndex_eq_mod]

/-- Settles O25: two addresses below $2000 name the same byte exactly when they agree modulo 2048. -/
theorem workRamIsMirrored : Obligations.WorkRamIsMirrored := by
  refine ⟨fun _ _ _ _ _ ha => peek_of_lt _ ha, fun s a v hs ha => ⟨fun b hb he => ?_, fun b hb he => ?_, ?_⟩⟩
  · rw [peek_of_lt _ hb, memWrite_ram_of_lt v s ha, he]
    exact Memory.read_write_same hs.1 _ v
  · rw [peek_of_lt _ hb, memWrite_ram_of_lt v s ha, peek_of_lt _ hb]
    exact Memory.read_write_other v he
  · rw [peek_of_lt _ ha, peek_of_lt _ ha, hostReset_eq]

end Sys2Proof.Machine
end

section
/-! Storing one byte into PRG at the place a CPU address shows: the host's `Write` in every mode, the CPU's store in one
of them (R67, R68). -/

namespace Sys2Proof.Machine

/-- A byte stored where a program-space address shows it is read back there, and no other byte changes. -/
theorem prg_write_shown {s t : State} (hs : MemoryOk s) {a : Word} (ha : 0x8000#16 ≤ a) (v : Byte)
    (ht : t = { s with prg := s.prg.write (prgIndex s a) v }) :
    t = { s with prg := t.prg } ∧ t.peek a = v ∧ t.prg.read (prgIndex s a) = v ∧
      ∀ k, k ≠ prgIndex s a → t.prg.read k = s.prg.read k := by
  obtain ⟨-, hprg, -⟩ := hs
  have hback := Memory.read_write_same hprg (prgIndex s a) v
  subst ht
  refine ⟨rfl, ?_, hback, fun k hk => Memory.read_write_other v hk⟩
  rw [peek_of_le _ ha]
  exact hback

theorem hostWrite_of_lt {a : Word} (v : Byte) (s : State) (h : a < 0x8000#16) : hostWrite a v s = memWrite a v s := by
  by_cases hram : isRam a = true
  · simp [hostWrite, hram]
  · have hext : isExternal a = true := (isExternal_iff a).mpr ⟨by rw [isRam_iff_lt] at hram; bv_omega, h⟩
    simp [hostWrite, hext]

theorem hostWrite_of_le {a : Word} (v : Byte) (s : State) (h : 0x8000#16 ≤ a) :
    hostWrite a v s = { s with prg := s.prg.write (prgIndex s a) v } := by
  simp [hostWrite, isRam_of_le h, isExternal_of_le h]

/-- Settles O23: below $8000 the CPU's write, above it one byte of PRG. -/
theorem hostWritePlacesBytes : Obligations.HostWritePlacesBytes := fun s _ v hs =>
  ⟨rfl, hostWrite_of_lt v s, fun ha => prg_write_shown hs ha v (hostWrite_of_le v s ha)⟩

/-- Settles O27: by the mode, the serial port's write or the same store as the host's. -/
theorem cpuStoreToProgramSpace : Obligations.CpuStoreToProgramSpace := fun s a v hs ha =>
  ⟨fun hm => ⟨memWrite_of_registerLoad v s ha hm, memWrite_prg_of_registerLoad hm a v⟩,
    fun hm => prg_write_shown hs ha v (memWrite_of_storageWrite v s ha hm)⟩

end Sys2Proof.Machine
end

section
/-! The mapper's registers as bank numbers (R85 to R89), and the bytes and CHR offsets that the windows show
(R66, R88). -/

namespace Sys2Proof.Machine

/-! ### Sizes and bank offsets -/

theorem Params.valid_iff (p : Params) :
    p.valid = true ↔ 0 < p.prgSize ∧ p.prgSize % 16384 = 0 ∧ p.chrSize % 4096 = 0 := by
  simp [Params.valid, and_assoc]

theorem nprg_pos {p : Params} (h : p.valid = true) : 0 < nprg p := by
  obtain ⟨hpos, hmod, -⟩ := (Params.valid_iff p).mp h
  unfold nprg; omega

theorem nchr_ne_zero_iff {p : Params} (h : p.valid = true) : nchr p ≠ 0 ↔ p.chrSize ≠ 0 := by
  obtain ⟨-, -, hmod⟩ := (Params.valid_iff p).mp h
  unfold nchr; omega

theorem prgBankOffset_natCast (p : Params) (i : Nat) : prgBankOffset p (i : Int) = i % nprg p * 16384 := by
  rw [prgBankOffset, ← Int.natCast_mod, Int.toNat_natCast]

/-- Index -1 is the last bank (R89). -/
theorem prgBankOffset_neg_one {p : Params} (h : 0 < nprg p) : prgBankOffset p (-1) = (nprg p - 1) * 16384 := by
  have hwrap : (-1 : Int) % (nprg p : Int) = (nprg p : Int) - 1 := by
    rw [← Int.add_emod_right, Int.emod_eq_of_lt (by omega) (by omega)]; omega
  rw [prgBankOffset, hwrap]
  omega

theorem chrBankOffset_of_nchr_eq_zero {p : Params} (h : nchr p = 0) (i : Int) : chrBankOffset p i = none := if_pos h

theorem chrBankOffset_of_nchr_ne_zero {p : Params} (h : nchr p ≠ 0) (i : Int) :
    chrBankOffset p i = some ((i % (nchr p : Int)).toNat * 4096) := if_neg h

theorem chrBankOffset_natCast {p : Params} (h : nchr p ≠ 0) (i : Nat) :
    chrBankOffset p (i : Int) = some (i % nchr p * 4096) := by
  rw [chrBankOffset_of_nchr_ne_zero h, ← Int.natCast_mod, Int.toNat_natCast]

/-! ### Register fields -/

theorem prgMode_eq (s : State) : prgMode s = s.control.toNat / 4 % 4 := by
  simp [prgMode, Nat.shiftRight_eq_div_pow]

theorem prgMode_of_control_0C {s : State} (h : s.control = 0x0C#5) : prgMode s = 3 := by rw [prgMode_eq, h]; rfl

theorem prgSelect_toNat (s : State) : (prgSelect s).toNat = s.prgBank.toNat % 16 := by simp [prgSelect]

theorem chrMode_eq (s : State) : chrMode s = (s.control.getLsbD 4).toNat := by
  unfold chrMode
  generalize s.control = c
  revert c; decide

theorem toNat_clear_bit0 : ∀ b : BitVec 4, (b &&& 0xE#4).toNat = b.toNat - b.toNat % 2 := by decide

theorem toNat_set_bit0 : ∀ b : BitVec 4, (b ||| 0x1#4).toNat = b.toNat - b.toNat % 2 + 1 := by decide

theorem chrBank_toNat_clear_bit0 : ∀ b : BitVec 5, (b &&& 0x1E#5).toNat = b.toNat - b.toNat % 2 := by decide

theorem chrBank_toNat_set_bit0 : ∀ b : BitVec 5, (b ||| 0x01#5).toNat = b.toNat - b.toNat % 2 + 1 := by decide

/-! ### The PRG offsets, by `control[3:2]` (R88) -/

section
variable {s : State}

theorem prgOff_of_mode_le_one (h : prgMode s ≤ 1) :
    prgOff0 s = ((prgSelect s).toNat - (prgSelect s).toNat % 2) % nprg s.params * 16384 ∧
    prgOff1 s = ((prgSelect s).toNat - (prgSelect s).toNat % 2 + 1) % nprg s.params * 16384 := by
  rw [← toNat_set_bit0, ← toNat_clear_bit0, ← prgBankOffset_natCast, ← prgBankOffset_natCast]
  obtain h | h : prgMode s = 0 ∨ prgMode s = 1 := by omega
  all_goals exact ⟨by simp only [prgOff0, h], by simp only [prgOff1, h]⟩

theorem prgOff_of_mode_eq_two (h : prgMode s = 2) :
    prgOff0 s = 0 ∧ prgOff1 s = (prgSelect s).toNat % nprg s.params * 16384 := by
  rw [← prgBankOffset_natCast]
  exact ⟨by simp [prgOff0, h, prgBankOffset], by simp only [prgOff1, h]⟩

theorem prgOff_of_mode_eq_three (hv : s.params.valid = true) (h : prgMode s = 3) :
    prgOff0 s = (prgSelect s).toNat % nprg s.params * 16384 ∧ prgOff1 s = (nprg s.params - 1) * 16384 := by
  rw [← prgBankOffset_natCast, ← prgBankOffset_neg_one (nprg_pos hv)]
  exact ⟨by simp only [prgOff0, h], by simp only [prgOff1, h]⟩

theorem chrOff_of_nchr_eq_zero (h : nchr s.params = 0) : chrOff0 s = none ∧ chrOff1 s = none := by
  simp only [chrOff0, chrOff1, chrBankOffset_of_nchr_eq_zero h]
  constructor <;> split <;> rfl

theorem chrOff_of_mode_eq_zero (hn : nchr s.params ≠ 0) (h : s.control.getLsbD 4 = false) :
    chrOff0 s = some ((s.chrBank0.toNat - s.chrBank0.toNat % 2) % nchr s.params * 4096) ∧
    chrOff1 s = some ((s.chrBank0.toNat - s.chrBank0.toNat % 2 + 1) % nchr s.params * 4096) := by
  rw [← chrBank_toNat_set_bit0, ← chrBank_toNat_clear_bit0, ← chrBankOffset_natCast hn,
    ← chrBankOffset_natCast hn]
  have hmode : chrMode s = 0 := by rw [chrMode_eq, h]; rfl
  exact ⟨by simp only [chrOff0, hmode], by simp only [chrOff1, hmode]⟩

theorem chrOff_of_mode_eq_one (hn : nchr s.params ≠ 0) (h : s.control.getLsbD 4 = true) :
    chrOff0 s = some (s.chrBank0.toNat % nchr s.params * 4096) ∧
    chrOff1 s = some (s.chrBank1.toNat % nchr s.params * 4096) := by
  rw [← chrBankOffset_natCast hn, ← chrBankOffset_natCast hn]
  have hmode : chrMode s = 1 := by rw [chrMode_eq, h]; rfl
  exact ⟨by simp only [chrOff0, hmode], by simp only [chrOff1, hmode]⟩

end

/-! ### The windows (R66) -/

theorem peek_low_window {a : Word} (s : State) (h : 0x8000#16 ≤ a) (h' : a < 0xC000#16) :
    s.peek a = s.prg.read (prgOff0 s + a.toNat % 16384) := by
  rw [peek_of_le s h, prgIndex, if_pos h', inPrgBank_eq_mod]

theorem peek_high_window {a : Word} (s : State) (h : 0xC000#16 ≤ a) :
    s.peek a = s.prg.read (prgOff1 s + a.toNat % 16384) := by
  rw [peek_of_le s (by bv_omega), prgIndex, if_neg (by bv_omega), inPrgBank_eq_mod]

/-- Settles O29: each window shows its offset's bank, and the offsets are those of the mode. -/
theorem bankWindows : Obligations.BankWindows := by
  intro s a hv
  simp only [← prgMode_eq, ← prgSelect_toNat]
  refine ⟨fun hlo hhi => ⟨fun hmode => ?_, fun hmode => ?_, fun hmode => ?_⟩,
    fun hlo => ⟨fun hmode => ?_, fun hmode => ?_, fun hmode => ?_⟩,
    chrOff_of_nchr_eq_zero, fun hn => ⟨chrOff_of_mode_eq_zero hn, chrOff_of_mode_eq_one hn⟩⟩
  · rw [peek_low_window s hlo hhi, (prgOff_of_mode_le_one hmode).1]; rfl
  · rw [peek_low_window s hlo hhi, (prgOff_of_mode_eq_two hmode).1, Nat.zero_add]
  · rw [peek_low_window s hlo hhi, (prgOff_of_mode_eq_three hv hmode).1]; rfl
  · rw [peek_high_window s hlo, (prgOff_of_mode_le_one hmode).2]; rfl
  · rw [peek_high_window s hlo, (prgOff_of_mode_eq_two hmode).2]; rfl
  · rw [peek_high_window s hlo, (prgOff_of_mode_eq_three hv hmode).2]; rfl

end Sys2Proof.Machine
end

section
/-! The bank-aware accessors (R69, R78). -/

namespace Sys2Proof.Machine

theorem prgBankIndex_eq (bank : Int) (off : Word) (s : State) :
    prgBankIndex bank off s = (bank % (nprg s.params : Int)).toNat * 16384 + off.toNat % 16384 := by
  rw [prgBankIndex, inPrgBank_eq_mod, prgBankOffset]

theorem prgBankIndex_lt {s : State} (hv : s.params.valid = true) (bank : Int) (off : Word) :
    prgBankIndex bank off s < s.params.prgSize := by
  have := prgBankOffset_lt hv bank
  rw [prgBankIndex, inPrgBank_eq_mod]
  omega

theorem chrBankIndex_of_nchr_ne_zero {s : State} (h : nchr s.params ≠ 0) (bank : Int) (off : Word) :
    chrBankIndex bank off s = some ((bank % (nchr s.params : Int)).toNat * 4096 + off.toNat % 4096) := by
  simp [chrBankIndex, chrBankOffset_of_nchr_ne_zero h]

theorem chrBankIndex_of_nchr_eq_zero {s : State} (h : nchr s.params = 0) (bank : Int) (off : Word) :
    chrBankIndex bank off s = none := by
  simp [chrBankIndex, chrBankOffset_of_nchr_eq_zero h]

theorem chrBankIndex_lt {s : State} (hv : s.params.valid = true) {bank : Int} {off : Word} {k : Nat}
    (h : chrBankIndex bank off s = some k) : k < s.params.chrSize := by
  obtain ⟨j, hj, rfl⟩ := Option.map_eq_some_iff.mp h
  have := chrBankOffset_lt hv bank hj
  have := (off.extractLsb' 0 12).isLt
  omega

/-! ### PRG -/

/-- A bank-aware PRG write is read back, and changes that byte alone. -/
theorem writeBankPrg_stored {s : State} (hs : MemoryOk s) (bank : Int) (off : Word) (v : Byte) :
    writeBankPrg bank off v s = { s with prg := (writeBankPrg bank off v s).prg } ∧
    readBankPrg bank off (writeBankPrg bank off v s) = v ∧
    ∀ j, j ≠ prgBankIndex bank off s → (writeBankPrg bank off v s).prg.read j = s.prg.read j := by
  obtain ⟨-, hprg, -⟩ := hs
  exact ⟨rfl, Memory.read_write_same hprg _ v, fun j hj => Memory.read_write_other v hj⟩

/-! ### CHR -/

theorem bankChr_abort {s : State} (h : nchr s.params = 0) (bank : Int) (off : Word) (v : Byte) :
    readBankChr bank off s = .fault (.storageBounds .readBank bank off) ∧
    writeBankChr bank off v s = .fault (.storageBounds .writeBank bank off) := by
  simp [readBankChr, writeBankChr, chrBankIndex_of_nchr_eq_zero h]

theorem readBankChr_of_index {s : State} {bank : Int} {off : Word} {k : Nat} (h : chrBankIndex bank off s = some k) :
    readBankChr bank off s = .next (s.chr.read k) := by
  simp [readBankChr, h]

/-- A bank-aware CHR write is read back, and changes that byte alone. -/
theorem writeBankChr_stored {s : State} (hs : MemoryOk s) {bank : Int} {off : Word} {k : Nat}
    (h : chrBankIndex bank off s = some k) (v : Byte) :
    ∃ t, writeBankChr bank off v s = .next t ∧ t = { s with chr := t.chr } ∧ readBankChr bank off t = .next v ∧
      ∀ j, j ≠ k → t.chr.read j = s.chr.read j := by
  obtain ⟨-, -, hchr, -⟩ := hs
  refine ⟨{ s with chr := s.chr.write k v }, by simp [writeBankChr, h], rfl, ?_,
    fun j hj => Memory.read_write_other v hj⟩
  rw [readBankChr_of_index (s := { s with chr := s.chr.write k v }) h, Memory.read_write_same hchr]

/-- Settles O24 from the accessors' locations, by whether there is a CHR bank. -/
theorem bankAwareAccess : Obligations.BankAwareAccess := by
  intro s bank off v hs hv
  have hlt := prgBankIndex_lt hv bank off
  obtain ⟨hframe, hback, hother⟩ := writeBankPrg_stored hs bank off v
  rw [prgBankIndex_eq] at hlt hother
  refine ⟨hlt, by rw [readBankPrg, prgBankIndex_eq]; rfl, hframe, hback, hother, fun h0 => ?_, fun h0 => ?_,
    fun a _ => prgIndex_lt hv a⟩
  · exact bankChr_abort (by simp [nchr, h0]) bank off v
  · have hidx := chrBankIndex_of_nchr_ne_zero ((nchr_ne_zero_iff hv).mpr h0) bank off
    exact ⟨chrBankIndex_lt hv hidx, readBankChr_of_index hidx, writeBankChr_stored hs hidx v⟩

end Sys2Proof.Machine
end

section
/-! Loading a cartridge (R62), and the mapper's power-on state (R90). -/

namespace Sys2Proof.Machine

theorem Memory.below_iff (n : Nat) (m : Memory) : m.below n = true ↔ ∀ e ∈ m, e.1 < n := by
  simp [Memory.below]

theorem load_next_iff (p : Params) (r g c : List Host.Cell) :
    (∃ t, load p r g c = .next t) ↔
      p.valid = true ∧ Memory.below 2048 r = true ∧ Memory.below p.prgSize g = true ∧
        Memory.below p.chrSize c = true := by
  unfold load
  split_ifs with h
  · exact iff_of_true ⟨_, rfl⟩ (by simpa [and_assoc] using h)
  · exact iff_of_false nofun (by simpa [and_assoc] using h)

theorem load_refused_of_not_next {p : Params} {r g c : List Host.Cell} (h : ¬ ∃ t, load p r g c = .next t) :
    load p r g c = .refused .badConfiguration := by
  unfold load at h ⊢
  split_ifs at h ⊢
  · exact absurd ⟨_, rfl⟩ h
  · rfl

/-- Settles O22: the check that `load` makes, read as a proposition. -/
theorem loadChecksSizes : Obligations.LoadChecksSizes := by
  refine fun p r g c => ⟨?_, load_refused_of_not_next⟩
  rw [load_next_iff, Params.valid_iff, Memory.below_iff, Memory.below_iff, Memory.below_iff, and_assoc, and_assoc]

theorem hostReset_mapper_params (s : State) : SameMapper s (hostReset s) ∧ (hostReset s).params = s.params := by
  rw [hostReset_eq]; exact ⟨⟨rfl, rfl, rfl, rfl, rfl⟩, rfl⟩

theorem prgOff_powerOn {s : State} (hv : s.params.valid = true) (hc : s.control = 0x0C#5) (hb : s.prgBank = 0#5) :
    prgOff0 s = 0 ∧ prgOff1 s = (s.params.prgSize / 16384 - 1) * 16384 := by
  obtain ⟨h0, h1⟩ := prgOff_of_mode_eq_three hv (prgMode_of_control_0C hc)
  exact ⟨by rw [h0, prgSelect_toNat, hb]; simp, h1⟩

/-- Settles O21: the loaded state has these values, and `Reset()` keeps the mapper. -/
theorem mapperPowerOnState : Obligations.MapperPowerOnState := by
  intro p r g c t h u hu
  obtain ⟨rfl, hv, -⟩ := load_ok h
  obtain ⟨⟨hshift, hcontrol, hchr0, hchr1, hprg⟩, hparams⟩ :=
    hostReset_mapper_params (State.powerOn p (.ofCells r) (.ofCells g) (.ofCells c))
  obtain rfl | rfl := hu
  · exact ⟨rfl, rfl, rfl, rfl, rfl, prgOff_powerOn hv rfl rfl⟩
  · refine ⟨hshift, hcontrol, hchr0, hchr1, hprg, ?_⟩
    have hoff := prgOff_powerOn (s := hostReset _) (by rw [hparams]; exact hv) hcontrol hprg
    rwa [hparams] at hoff

end Sys2Proof.Machine
end
section
/-! The mapper's serial port (R83, R84) and the source's worked example (R93). -/

namespace Sys2Proof.Machine

/-! ### One write -/

/-- The bit shifted in enters at bit 4 (R83). -/
theorem shiftIn_eq (sh : BitVec 5) (v : Byte) :
    shiftIn sh v = (sh >>> 1) ||| (if v.getLsbD 0 then 0x10#5 else 0x00#5) := by
  unfold shiftIn
  cases v.getLsbD 0 <;> rfl

section
variable {a : Word} {v : Byte} {s : State}

theorem serialWrite_of_bit7 (h : v.getLsbD 7 = true) :
    serialWrite a v s = { s with shift := 0x10#5, control := s.control ||| 0x0C#5 } := if_pos h

theorem serialWrite_of_incomplete (h : v.getLsbD 7 = false) (h0 : s.shift.getLsbD 0 = false) :
    serialWrite a v s = { s with shift := shiftIn s.shift v } := by
  rw [serialWrite, if_neg (ne_true_of_eq_false h), if_neg (ne_true_of_eq_false h0)]

theorem serialWrite_of_complete (h : v.getLsbD 7 = false) (h0 : s.shift.getLsbD 0 = true) :
    serialWrite a v s = loadRegister a (shiftIn s.shift v) { s with shift := shiftEmpty } := by
  rw [serialWrite, if_neg (ne_true_of_eq_false h), if_pos h0]

end

/-- The register that `a[14:13]` selects, by the address's range (R84). -/
theorem loadRegister_by_range {a : Word} (ha : 0x8000#16 ≤ a) (w : BitVec 5) (s : State) :
    (a < 0xA000#16 → loadRegister a w s = { s with control := w }) ∧
    (0xA000#16 ≤ a → a < 0xC000#16 → loadRegister a w s = { s with chrBank0 := w }) ∧
    (0xC000#16 ≤ a → a < 0xE000#16 → loadRegister a w s = { s with chrBank1 := w }) ∧
    (0xE000#16 ≤ a → loadRegister a w s = { s with prgBank := w }) := by
  have hsel : (a.extractLsb' 13 2).toNat = a.toNat / 8192 % 4 := by simp [Nat.shiftRight_eq_div_pow]
  refine ⟨fun hlt => ?_, fun hle hlt => ?_, fun hle hlt => ?_, fun hle => ?_⟩
  · have hreg : a.toNat / 8192 % 4 = 0 := by bv_omega
    simp only [loadRegister, hsel, hreg]
  · have hreg : a.toNat / 8192 % 4 = 1 := by bv_omega
    simp only [loadRegister, hsel, hreg]
  · have hreg : a.toNat / 8192 % 4 = 2 := by bv_omega
    simp only [loadRegister, hsel, hreg]
  · have hreg : a.toNat / 8192 % 4 = 3 := by bv_omega
    simp only [loadRegister, hsel, hreg]

/-! ### Five writes -/

/-- The shift register after bits are shifted in, the first one first (R83). -/
def shiftBits (bits : List Bool) (sh : BitVec 5) : BitVec 5 :=
  bits.foldl (fun sh b => (sh >>> 1) ||| (if b then 0x10#5 else 0x00#5)) sh

/-- The sentinel reaches bit 0 with the fourth bit and not before. -/
theorem shiftBits_sentinel : ∀ b1 b2 b3 b4 : Bool,
    (shiftBits [] shiftEmpty).getLsbD 0 = false ∧ (shiftBits [b1] shiftEmpty).getLsbD 0 = false ∧
    (shiftBits [b1, b2] shiftEmpty).getLsbD 0 = false ∧ (shiftBits [b1, b2, b3] shiftEmpty).getLsbD 0 = false ∧
    (shiftBits [b1, b2, b3, b4] shiftEmpty).getLsbD 0 = true := by decide

/-- Five bits push the sentinel out and stand in their order, the first one lowest. -/
theorem shiftBits_five : ∀ b1 b2 b3 b4 b5 : Bool,
    shiftBits [b1, b2, b3, b4, b5] shiftEmpty = fiveBits b1 b2 b3 b4 b5 := by decide

theorem serialWrite_shifts {a : Word} {v : Byte} {s : State} {bits : List Bool} (hv : v.getLsbD 7 = false)
    (h0 : (shiftBits bits shiftEmpty).getLsbD 0 = false) :
    serialWrite a v { s with shift := shiftBits bits shiftEmpty } =
      { s with shift := shiftBits (bits ++ [v.getLsbD 0]) shiftEmpty } := by
  rw [serialWrite_of_incomplete hv h0, shiftIn_eq, shiftBits, shiftBits, List.foldl_append]
  rfl

/-- Five writes load the five bits into the register that the last address selects (R83). -/
theorem serialWrite_five {s : State} (hs : s.shift = 0x10#5) (a1 a2 a3 a4 a : Word) {v1 v2 v3 v4 v5 : Byte}
    (h1 : v1.getLsbD 7 = false) (h2 : v2.getLsbD 7 = false) (h3 : v3.getLsbD 7 = false) (h4 : v4.getLsbD 7 = false)
    (h5 : v5.getLsbD 7 = false) :
    serialWrite a v5 (serialWrite a4 v4 (serialWrite a3 v3 (serialWrite a2 v2 (serialWrite a1 v1 s)))) =
      loadRegister a (fiveBits (v1.getLsbD 0) (v2.getLsbD 0) (v3.getLsbD 0) (v4.getLsbD 0) (v5.getLsbD 0)) s := by
  obtain ⟨n0, n1, n2, n3, full⟩ := shiftBits_sentinel (v1.getLsbD 0) (v2.getLsbD 0) (v3.getLsbD 0) (v4.getLsbD 0)
  have hempty : s = { s with shift := shiftBits [] shiftEmpty } := by rw [shiftBits, List.foldl_nil, shiftEmpty, ← hs]
  have hfour : serialWrite a4 v4 (serialWrite a3 v3 (serialWrite a2 v2 (serialWrite a1 v1 s))) =
      { s with shift := shiftBits [v1.getLsbD 0, v2.getLsbD 0, v3.getLsbD 0, v4.getLsbD 0] shiftEmpty } := by
    conv_lhs => rw [hempty]
    simp only [serialWrite_shifts, h1, h2, h3, h4, n0, n1, n2, n3, List.nil_append, List.cons_append]
  rw [hfour, serialWrite_of_complete h5 full, ← shiftBits_five, shiftIn_eq]
  congr 1
  exact hempty.symm

/-- Settles O28: bit 7, the incomplete and the completing write, and five of them in a row. -/
theorem serialPort : Obligations.SerialPort := by
  refine ⟨fun s a v h => serialWrite_of_bit7 h, fun s a v h h0 => ?_, fun s a v h h0 ha => ?_,
    fun s a1 a2 a3 a4 a v1 v2 v3 v4 v5 hs h1 h2 h3 h4 h5 ha => ?_⟩
  · rw [serialWrite_of_incomplete h h0, shiftIn_eq]
  · rw [serialWrite_of_complete h h0, shiftIn_eq]
    exact loadRegister_by_range ha _ _
  · rw [serialWrite_five hs a1 a2 a3 a4 a h1 h2 h3 h4 h5]
    exact loadRegister_by_range ha _ _

/-! ### The source's example (R93) -/

theorem bitByte_getLsbD (b : Bool) : (bitByte b).getLsbD 7 = false ∧ (bitByte b).getLsbD 0 = b := by
  cases b <;> decide

/-- Five CPU stores in the default mode are five serial writes. -/
theorem writeFive_eq_loadRegister {s : State} (hm : s.params.romWriteMode = .registerLoad) (hs : s.shift = 0x10#5)
    {a : Word} (ha : 0x8000#16 ≤ a) (b0 b1 b2 b3 b4 : Bool) :
    writeFive a b0 b1 b2 b3 b4 s = loadRegister a (fiveBits b0 b1 b2 b3 b4) s := by
  have hstore : ∀ (v : Byte) (u : State), u.params = s.params → memWrite a v u = serialWrite a v u := fun v u hu =>
    memWrite_of_registerLoad v u ha (by rw [hu]; exact hm)
  have hfive := serialWrite_five hs a a a a a (bitByte_getLsbD b0).1 (bitByte_getLsbD b1).1 (bitByte_getLsbD b2).1
    (bitByte_getLsbD b3).1 (bitByte_getLsbD b4).1
  simp only [bitByte_getLsbD] at hfive
  rw [writeFive, hstore _ s rfl, hstore, hstore, hstore, hstore, hfive] <;> simp

/-- Bank 3 in mode 3: bank 3 low, the last bank high (R88). -/
theorem prgOff_of_bank_three {s : State} (hv : s.params.valid = true) (hmode : prgMode s = 3)
    (hb : s.prgBank = 0x03#5) :
    prgOff0 s = 3 % nprg s.params * 16384 ∧ prgOff1 s = (nprg s.params - 1) * 16384 := by
  obtain ⟨h0, h1⟩ := prgOff_of_mode_eq_three hv hmode
  exact ⟨by rw [h0, prgSelect_toNat, hb]; rfl, h1⟩

/-- The second five writes load 3 into `prg_bank`. -/
theorem writeFive_bank_three {s : State} (hm : s.params.romWriteMode = .registerLoad) (hs : s.shift = 0x10#5) :
    writeFive 0xE000#16 true true false false false s = { s with prgBank := 0x03#5 } := by
  rw [writeFive_eq_loadRegister hm hs (by decide)]; rfl

/-- The first five writes load $0C into `control`. -/
theorem writeFive_control_0C {s : State} (hm : s.params.romWriteMode = .registerLoad) (hs : s.shift = 0x10#5) :
    writeFive 0x8000#16 false false true true false s = { s with control := 0x0C#5 } := by
  rw [writeFive_eq_loadRegister hm hs (by decide)]; rfl

/-- Settles O30: the two runs of five writes, and mode 3's offsets. -/
theorem mapperWorkedExample : Obligations.MapperWorkedExample := by
  intro s hv hm hs
  rw [writeFive_control_0C hm hs, writeFive_bank_three (s := { s with control := 0x0C#5 }) hm hs,
    writeFive_bank_three hm hs]
  refine ⟨⟨rfl, rfl, hs, ?_⟩, fun hmode => ⟨rfl, rfl, ?_⟩⟩
  · exact prgOff_of_bank_three hv (prgMode_of_control_0C rfl) rfl
  · exact prgOff_of_bank_three hv (by rw [prgMode_eq]; exact hmode) rfl

end Sys2Proof.Machine
end

section
/-! How many draws of the external region an instruction makes (R65, R77, R154). -/

namespace Sys2Proof.Machine

/-! ### The operand's reads -/

/-- S4 draws for the pointer bytes alone (R109). -/
theorem start_st_extReads (i : Instr) (s : State) :
    (start i s).st.extReads = s.extReads + operandDraws false i.operand s := by
  rw [start_st, advance_extReads]
  cases i.operand with
  | ind w =>
    simp only [effAddr, read16Bug, memRead, State.touch_extReads, operandDraws, nextInPage]
    split <;> split <;> rfl
  | izx l | izy l => rw [effAddr_st_of_ne_ind s (by simp)]; rfl
  | _ => rfl

theorem operand_of_readsM {i : Instr} (h : readsM i = true) :
    (∀ w, i.operand ≠ .ind w) ∧ ∀ d, i.operand ≠ .rel d := by
  cases i with
  | lda m | ldx m | ldy m | adc m | sbc m | and m | ora m | eor m | bit m | cmp m | cpx m | cpy m | inc m | dec m
  | asl m | lsr m | rol m | ror m => cases m <;> exact ⟨nofun, nofun⟩
  | _ => cases h

/-- An instruction that reads M draws once more, for M itself (R154). -/
theorem readM_extReads {i : Instr} (h : readsM i = true) (s : State) :
    (readM i s).2.extReads = s.extReads + operandDraws true i.operand s := by
  obtain ⟨hind, hrel⟩ := operand_of_readsM h
  have hstart := start_st_extReads i s
  have hea := start_ea i s
  simp only [readM, operandValue]
  generalize i.operand = o at hind hrel hstart hea ⊢
  cases o with
  | ind w => exact absurd rfl (hind w)
  | rel d => exact absurd rfl (hrel d)
  | imm v | acc => exact hstart
  | imp => rw [hea]; exact hstart
  | zp _ | zpx _ | zpy _ | izx _ | izy _ | abs _ | abx _ | aby _ =>
    simp only [operandDraws, memRead, State.touch_extReads, hstart, hea, Bool.true_and, Bool.false_and]
    split <;> rfl

/-! ### The instruction shapes -/

/-- From `s` to `t` the draw counter grew by what the operand of `i` reads. -/
def OperandDrawn (i : Instr) (s t : State) : Prop := t.extReads = s.extReads + operandDraws (readsM i) i.operand s

section
variable {i : Instr} {s t : State}

/-- Without a read of M the draws are those of S4. -/
theorem operandDrawn_of_start (hi : readsM i = false) (h : t.extReads = (start i s).st.extReads) :
    OperandDrawn i s t := by
  rw [OperandDrawn, h, hi, start_st_extReads]

theorem operandDrawn_of_readM (hi : readsM i = true) (h : t.extReads = (readM i s).2.extReads) :
    OperandDrawn i s t := by
  rw [OperandDrawn, h, hi, readM_extReads hi]

theorem readForm_drawn {f : Byte → State → State} (h : readForm i f s = .next t) (hi : readsM i = true)
    (hf : ∀ v u, (f v u).extReads = u.extReads) : OperandDrawn i s t := by
  cases h
  exact operandDrawn_of_readM hi (hf _ _)

theorem impliedForm_drawn {f : State → State} (h : impliedForm i f s = .next t) (hi : readsM i = false)
    (hf : ∀ u, (f u).extReads = u.extReads) : OperandDrawn i s t := by
  cases h
  exact operandDrawn_of_start hi (hf _)

theorem storeForm_drawn {reg : State → Byte} (hi : readsM i = false) (h : storeForm i reg s = .next t) :
    OperandDrawn i s t := by
  cases h
  exact operandDrawn_of_start hi (memWrite_extReads ..)

/-- The write of a read-modify-write instruction draws nothing (R77). -/
theorem rmwForm_drawn {f : Byte → Byte} (hi : readsM i = true)
    (hread : memRead (start i s).ea (start i s).st = readM i s) (h : rmwForm i f s = .next t) : OperandDrawn i s t := by
  cases h
  refine operandDrawn_of_readM hi ?_
  rw [← hread]
  exact memWrite_extReads ..

theorem shiftForm_drawn {f : Byte → Bool → Byte × Bool} (hi : readsM i = true) (h : shiftForm i f s = .next t) :
    OperandDrawn i s t := by
  cases h
  refine operandDrawn_of_readM hi ?_
  simp only [readM]
  split
  · rfl
  · exact memWrite_extReads ..

theorem branchForm_drawn {cond : State → Bool} (hi : readsM i = false) (h : branchForm i cond s = .next t) :
    OperandDrawn i s t := by
  simp only [branchForm] at h
  refine operandDrawn_of_start hi ?_
  split at h
  · split at h <;> cases h
    rfl
  · cases h
    rfl

end

theorem takeInterrupt_extReads (s : State) : (takeInterrupt irqVector true s).extReads = s.extReads := by
  rw [takeInterrupt_eq _ (.inr rfl)]

/-- Settles O33: by the shape of each instruction; pushes and pulls go to work RAM and draw nothing (R34). -/
theorem operandReads : Obligations.OperandReads := by
  intro i s t h
  show OperandDrawn i s t
  cases i with
  | lda _ | ldx _ | ldy _ | and _ | ora _ | eor _ | adc _ | sbc _ | bit _ | cmp _ | cpx _ | cpy _ =>
    simp only [exec, execLda, execLdx, execLdy, execAnd, execOra, execEor, execAdc, execSbc, execBit, execCmp, execCpx,
      execCpy] at h
    exact readForm_drawn h rfl fun _ _ => rfl
  | sta _ | stx _ | sty _ =>
    simp only [exec, execSta, execStx, execSty] at h
    exact storeForm_drawn rfl h
  | tax | tay | txa | tya | tsx | txs | inx | iny | dex | dey | clc | cld | cli | clv | sec | sed | sei | nop =>
    simp only [exec, execTax, execTay, execTxa, execTya, execTsx, execTxs, execInx, execIny, execDex, execDey, execClc,
      execCld, execCli, execClv, execSec, execSed, execSei, execNop] at h
    exact impliedForm_drawn h rfl fun _ => rfl
  | pha | php =>
    simp only [exec, execPha, execPhp] at h
    exact impliedForm_drawn h rfl fun _ => by rw [push_eq]
  | pla | plp =>
    simp only [exec, execPla, execPlp] at h
    exact impliedForm_drawn h rfl fun _ => by rw [pull_eq]; rfl
  | rts =>
    simp only [exec, execRts] at h
    exact impliedForm_drawn h rfl fun _ => by rw [pull16_eq]; rfl
  | brk =>
    simp only [exec, execBrk] at h
    exact impliedForm_drawn h rfl takeInterrupt_extReads
  | rti =>
    simp only [exec, execRti] at h
    exact impliedForm_drawn h rfl fun _ => by rw [returnFromInterrupt_eq]
  | inc m | dec m =>
    simp only [exec, execInc, execDec] at h
    exact rmwForm_drawn rfl (by cases m <;> rfl) h
  | asl _ | lsr _ | rol _ | ror _ =>
    simp only [exec, execAsl, execLsr, execRol, execRor] at h
    exact shiftForm_drawn rfl h
  | bcc _ | bcs _ | beq _ | bmi _ | bne _ | bpl _ | bvc _ | bvs _ =>
    simp only [exec, execBcc, execBcs, execBeq, execBmi, execBne, execBpl, execBvc, execBvs] at h
    exact branchForm_drawn rfl h
  | jmp m =>
    simp only [exec, execJmp] at h
    cases h
    exact operandDrawn_of_start rfl rfl
  | jsr w =>
    simp only [exec, execJsr] at h
    cases h
    exact operandDrawn_of_start rfl (by rw [push16_eq]; rfl)
  | illegal op =>
    simp only [exec, execIllegal] at h
    cases h
    rfl

end Sys2Proof.Machine
end

section
/-! The 105 illegal bytes (R123): their ROM entry, their decoding, and that no other byte decodes to an illegal
instruction. -/

namespace Sys2Proof.Machine

theorem mem_illegalBytes_iff (op : Byte) : op ∈ illegalBytes ↔ isIllegal op = true := by
  rw [← illegal_bytes_agree, List.contains_iff_mem]

/-! ### An illegal byte -/

theorem rom_of_isIllegal {op : Byte} (h : isIllegal op = true) :
    rom op = ⟨.placeholder, .invalid, 0, Config.illegalCycles op, 0⟩ := by
  rw [rom, if_pos h, romEntry_of_isIllegal op h]; rfl

/-- An illegal instruction is its opcode byte alone (R145). -/
theorem codes_of_isIllegal {op : Byte} (h : isIllegal op = true) : Codes [op] (.illegal op) := by
  intro rest
  have hlen : (romEntry op).advance = 1 := by rw [romEntry_of_isIllegal op h]; rfl
  rw [List.singleton_append, decode, decodeOpcode_of_isIllegal _ _ _ h, hlen, if_neg (by omega)]
  rfl

/-! ### A legal byte -/

theorem rom_of_legal {op : Byte} (h : isIllegal op = false) : rom op = romEntry op := by
  rw [rom, h]; rfl

theorem romEntry_size_ne_zero {op : Byte} (h : isIllegal op = false) : (romEntry op).size ≠ 0 := by
  simpa [isIllegal] using h

theorem romEntry_mode_ne_invalid : ∀ op : Byte, isIllegal op = false → (romEntry op).mode ≠ .invalid := by
  decide +kernel

/-- Whether a mnemonic has a mode does not depend on the operand bytes. -/
theorem build_isSome (n : Mnemonic) (m : Mode) (l h : Byte) : (build n m l h).isSome = hasMode n m := by
  unfold hasMode
  cases n with
  | lda | ldx | ldy | sta | stx | sty | adc | sbc | and | ora | eor | bit | cmp | cpx | cpy | inc | dec | asl | lsr
  | rol | ror | jmp => cases m <;> rfl
  | _ => rfl

/-- Every instruction that `build` gives belongs to a mnemonic, so none is illegal. -/
theorem build_ne_illegal (n : Mnemonic) (m : Mode) (l h op : Byte) : build n m l h ≠ some (.illegal op) := by
  cases n <;> simp [build]

theorem decodeOpcode_ne_illegal {op : Byte} (h : isIllegal op = false) (b1 b2 op' : Byte) :
    decodeOpcode op b1 b2 ≠ .illegal op' := by
  have hsome := (build_isSome _ _ b1 b2).trans (hasMode_of_legal op h)
  obtain ⟨i, hi⟩ := Option.isSome_iff_exists.mp hsome
  rw [decodeOpcode, hi, Option.getD_some]
  rintro rfl
  exact build_ne_illegal _ _ _ _ _ hi

/-! ### Every byte -/

/-- Settles O3: a listed byte is one whose ROM entry has length 0, and any other byte's entry names a form. -/
theorem illegalOpcodeSet : Obligations.IllegalOpcodeSet := by
  refine ⟨rfl, by decide +kernel, fun op => ⟨fun hmem => ?_, fun hmem => ?_⟩⟩ <;> rw [mem_illegalBytes_iff] at hmem
  · exact ⟨rom_of_isIllegal hmem, codes_of_isIllegal hmem⟩
  · have hlegal : isIllegal op = false := eq_false_of_ne_true hmem
    rw [rom_of_legal hlegal]
    exact ⟨romEntry_size_ne_zero hlegal, romEntry_mode_ne_invalid op hlegal,
      fun l h => decodeOpcode_ne_illegal hlegal l h op⟩

end Sys2Proof.Machine
end

section
/-! The effective address, the page-crossing bit and the operand value of every mode (R103 to R112, R154). -/

namespace Sys2Proof.Machine

/-! ### Sums modulo 256 and modulo 2^16 -/

theorem zext16_toNat (v : Byte) : (zext16 v).toNat = v.toNat := BitVec.toNat_setWidth_of_le (by decide)

theorem zext16_add_toNat (v w : Byte) : (zext16 (v + w)).toNat = (v.toNat + w.toNat) % 256 := by
  rw [zext16_toNat, BitVec.toNat_add]

theorem add_zext16 (base : Word) (index : Byte) :
    base + zext16 index = BitVec.ofNat 16 (base.toNat + index.toNat) := by
  rw [BitVec.ofNat_add, BitVec.ofNat_toNat, BitVec.setWidth_eq, ← zext16_toNat, BitVec.ofNat_toNat, BitVec.setWidth_eq]

/-! ### The effective address -/

/-- Indexing adds at 16 bits and crosses when the sum has another page (R105, R111). -/
theorem indexed_eq (base : Word) (index : Byte) (s : State) :
    indexed base index s =
      ⟨BitVec.ofNat 16 (base.toNat + index.toNat),
        hi base != hi (BitVec.ofNat 16 (base.toNat + index.toNat)), s⟩ := by
  rw [indexed, add_zext16]

theorem eaOf_crossedOf_of_effAddr {o : Operand} {s : State} {l : Located} (h : effAddr o s = l) :
    eaOf o s = l.ea ∧ crossedOf o s = l.crossed := by
  rw [eaOf, crossedOf, h]; exact ⟨rfl, rfl⟩

/-! ### The operand value -/

/-- Where M is in memory and the mode reads no pointer outside page zero, M is the byte at the address as it reads
before the instruction (R154). -/
theorem operandM_eq_peek (s : State) {o : Operand} (hacc : o ≠ .acc) (himm : ∀ v, o ≠ .imm v)
    (hind : ∀ w, o ≠ .ind w) : operandM o s = s.peek (eaOf o s) := by
  have hst := effAddr_st_of_ne_ind s hind
  cases o with
  | acc => exact absurd rfl hacc
  | imm v => exact absurd rfl (himm v)
  | _ => simp only [operandM, hst, eaOf]

/-- Settles O32: one clause for each operand form, the indexed ones by `indexed_eq`. -/
theorem effectiveAddresses : Obligations.EffectiveAddresses := by
  intro s
  refine ⟨fun _ => ⟨rfl, rfl⟩,
    fun w => eaOf_crossedOf_of_effAddr (o := .abx w) (s := s) (indexed_eq w s.x s),
    fun w => eaOf_crossedOf_of_effAddr (o := .aby w) (s := s) (indexed_eq w s.y s),
    fun l => ⟨zext16_toNat l, rfl⟩,
    fun l => ⟨zext16_add_toNat l s.x, rfl⟩,
    fun l => ⟨zext16_add_toNat l s.y, rfl⟩,
    fun _ => ⟨rfl, rfl⟩,
    fun l => eaOf_crossedOf_of_effAddr (effAddr_izx l s),
    fun l base hbase => ?_,
    fun _ => ⟨rfl, rfl⟩,
    fun d => ⟨eaOf_rel d s, rfl⟩,
    fun _ => rfl, rfl, fun l => ?_, fun w => ?_⟩
  · subst hbase
    exact eaOf_crossedOf_of_effAddr ((effAddr_izy l s).trans (indexed_eq _ s.y s))
  · refine ⟨?_, ?_, ?_, ?_, ?_⟩ <;> exact operandM_eq_peek s nofun nofun nofun
  · refine ⟨?_, ?_, ?_⟩ <;> exact operandM_eq_peek s nofun nofun nofun

end Sys2Proof.Machine
end

section
/-! How a step ends (R152, R270, R361): a branch is the one instruction that can fault, and only by the watchdog's abort. -/

namespace Sys2Proof.Machine

/-! ### A branch by its mnemonic's condition -/

/-- S4 and S5 do not touch the flags a branch tests. -/
theorem branchTaken_start (i j : Instr) (s : State) : branchTaken i (start j s).st = branchTaken i s := by
  cases i <;> simp only [branchTaken, start_st_flag]

theorem exec_of_branch {i : Instr} {d : Byte} (hi : i.operand = .rel d) (s : State) :
    exec i s = branchForm i (branchTaken i) s := by
  cases i with
  | bcc _ | bcs _ | beq _ | bmi _ | bne _ | bpl _ | bvc _ | bvs _ => rfl
  | lda m | ldx m | ldy m | sta m | stx m | sty m | adc m | sbc m | and m | ora m | eor m | bit m | cmp m | cpx m
  | cpy m | inc m | dec m | asl m | lsr m | rol m | ror m | jmp m => cases m <;> cases hi
  | _ => cases hi

theorem exec_next_of_not_branch {i : Instr} (hi : ∀ d, i.operand ≠ .rel d) (s : State) : ∃ t, exec i s = .next t := by
  cases i with
  | bcc d | bcs d | beq d | bmi d | bne d | bpl d | bvc d | bvs d => exact absurd rfl (hi d)
  | _ => exact ⟨_, rfl⟩

/-! ### The watchdog's abort -/

/-- A branch that faults is taken, to its own address, and so was the branch before it (R270). -/
theorem branchForm_fault {i : Instr} {cond : State → Bool} {s : State} {f : Fault}
    (h : branchForm i cond s = .fault f) :
    f = .selfLoop s.pc ∧ cond (start i s).st = true ∧ s.params.selfLoopAbort = true ∧ eaOf i.operand s = s.pc ∧
      s.lastBranch = some (s.pc, s.pc) := by
  cases hc : cond (start i s).st with
  | false => rw [branchForm_untaken hc] at h; cases h
  | true =>
    by_cases hw : s.params.selfLoopAbort = true ∧ eaOf i.operand s = s.pc ∧ s.lastBranch = some (s.pc, s.pc)
    · rw [branchForm_abort hc hw.1 hw.2.1 hw.2.2] at h
      cases h
      exact ⟨rfl, rfl, hw⟩
    · rw [branchForm_taken hc hw] at h
      cases h

theorem exec_fault {i : Instr} {s : State} {f : Fault} (h : exec i s = .fault f) :
    f = .selfLoop s.pc ∧ branchTaken i s = true ∧ s.params.selfLoopAbort = true ∧ eaOf i.operand s = s.pc ∧
      s.lastBranch = some (s.pc, s.pc) := by
  by_cases hi : ∃ d, i.operand = .rel d
  · obtain ⟨d, hi⟩ := hi
    rw [exec_of_branch hi] at h
    have hf := branchForm_fault h
    rwa [branchTaken_start] at hf
  · obtain ⟨t, ht⟩ := exec_next_of_not_branch (not_exists.mp hi) s
    rw [ht] at h
    cases h

/-! ### What the phases before S4 leave for the watchdog -/

theorem serviceInterrupt_lastBranch (s : State) : (serviceInterrupt s).lastBranch = s.lastBranch := by
  obtain ⟨-, h⟩ | ⟨-, -, -, h⟩ | ⟨-, -, h⟩ := serviceInterrupt_cases s <;> rw [h]

@[simp] theorem fetch_snd_pc (s : State) : (fetch s).2.pc = s.pc := by rw [fetch_frame]

@[simp] theorem fetch_snd_cycles (s : State) : (fetch s).2.cycles = s.cycles := by rw [fetch_frame]

@[simp] theorem fetch_snd_lastBranch (s : State) : (fetch s).2.lastBranch = s.lastBranch := by rw [fetch_frame]

/-! ### The whole step -/

/-- Settles O8: only the watchdog ends an instruction without a next state, and no phase before S4 switches it on. -/
theorem everyStepCompletes : Obligations.EveryStepCompletes := by
  intro s hr ha
  obtain ⟨hr', -⟩ | ⟨-, -, he⟩ | ⟨-, -, he⟩ := step_cases s
  · rw [hr] at hr'; cases hr'
  · exact ⟨_, he⟩
  · rw [he]
    obtain hnext | ⟨-, habort, -⟩ := exec_cases (fetch (serviceInterrupt s)).1 (fetch (serviceInterrupt s)).2
    · exact hnext
    · rw [(fetch_serviceInterrupt_prg_params s).2, ha] at habort; cases habort

/-- Settles O9: a step that faults ran an instruction that does, on the state that S2 and the fetch leave. -/
theorem onlyTheWatchdogFaults : Obligations.OnlyTheWatchdogFaults := by
  intro s f h u
  obtain ⟨-, he⟩ | ⟨-, -, he⟩ | ⟨-, -, he⟩ := step_cases s <;> rw [he] at h
  · cases h
  · cases h
  · obtain ⟨hf, htaken, habort, hea, hlast⟩ := exec_fault h
    rw [(fetch_serviceInterrupt_prg_params s).2] at habort
    rw [fetch_snd_pc] at hf hea hlast
    rw [fetch_snd_lastBranch, serviceInterrupt_lastBranch] at hlast
    exact ⟨hf, habort, hlast, htaken, hea⟩

end Sys2Proof.Machine
end

section
/-! The cycles a step charges (R151): each instruction's by its shape, interrupt service's, and a stall's. -/

namespace Sys2Proof.Machine

/-! ### The instruction shapes -/

/-- From `s` to `t` the cycle counter grew by what running `i` costs. -/
def Charged (i : Instr) (s t : State) : Prop := t.cycles = s.cycles + cyc (instrCost i s)

/-- The cycles S4 and S5 charge (R144, R145). -/
theorem start_st_cycles_eq (i : Instr) (s : State) :
    (start i s).st.cycles =
      s.cycles + cyc (i.info.cycles + if crossedOf i.operand s then i.info.pagecycles else 0) := by
  rw [start_st_cycles, BitVec.add_assoc, cyc_add, Nat.add_comm]

section
variable {i : Instr} {s t : State}

/-- Without a taken branch the cost is that of S4 and S5. -/
theorem charged_of_start (hi : branchTaken i s = false) (h : t.cycles = (start i s).st.cycles) : Charged i s t := by
  rw [Charged, h, start_st_cycles_eq, instrCost, hi]
  rfl

theorem readForm_charged {f : Byte → State → State} (h : readForm i f s = .next t) (hi : branchTaken i s = false)
    (hf : ∀ v u, (f v u).cycles = u.cycles) : Charged i s t := by
  cases h
  exact charged_of_start hi ((hf _ _).trans (by rw [readM_frame]))

theorem impliedForm_charged {f : State → State} (h : impliedForm i f s = .next t) (hi : branchTaken i s = false)
    (hf : ∀ u, (f u).cycles = u.cycles) : Charged i s t := by
  cases h
  exact charged_of_start hi (hf _)

theorem storeForm_charged {reg : State → Byte} (hi : branchTaken i s = false) (h : storeForm i reg s = .next t) :
    Charged i s t := by
  cases h
  exact charged_of_start hi (memWrite_cycles ..)

theorem rmwForm_charged {f : Byte → Byte} (hi : branchTaken i s = false) (h : rmwForm i f s = .next t) :
    Charged i s t := by
  cases h
  exact charged_of_start hi (memWrite_cycles ..)

theorem shiftForm_charged {f : Byte → Bool → Byte × Bool} (hi : branchTaken i s = false)
    (h : shiftForm i f s = .next t) : Charged i s t := by
  cases h
  refine charged_of_start hi ?_
  split <;> rw [operandValue_snd]
  · rfl
  · exact memWrite_cycles ..

/-- A branch's charge, taken or not; its next instruction is two bytes on (R101, R269). -/
theorem branchForm_charged (hadv : i.info.advance = 2) (h : branchForm i (branchTaken i) s = .next t) :
    Charged i s t := by
  cases hc : branchTaken i s with
  | false =>
    rw [branchForm_untaken ((branchTaken_start i i s).trans hc)] at h
    cases h
    exact charged_of_start hc rfl
  | true =>
    have hstart : branchTaken i (start i s).st = true := (branchTaken_start i i s).trans hc
    by_cases hw : s.params.selfLoopAbort = true ∧ eaOf i.operand s = s.pc ∧ s.lastBranch = some (s.pc, s.pc)
    · rw [branchForm_abort hstart hw.1 hw.2.1 hw.2.2] at h
      cases h
    · rw [branchForm_taken hstart hw] at h
      cases h
      simp only [Charged, start_st_cycles_eq, start_st_pc, hadv, takenCycles, instrCost, hc, if_true, ite_not,
        BitVec.add_assoc, cyc_add]

end

/-! ### All instructions -/

theorem exec_charged {i : Instr} {s t : State} (hi : ∀ op, i = .illegal op → isIllegal op = true)
    (h : exec i s = .next t) : Charged i s t := by
  cases i with
  | bcc _ | bcs _ | beq _ | bmi _ | bne _ | bpl _ | bvc _ | bvs _ =>
    rw [exec_of_branch rfl] at h
    exact branchForm_charged rfl h
  | lda _ | ldx _ | ldy _ | and _ | ora _ | eor _ | adc _ | sbc _ | bit _ | cmp _ | cpx _ | cpy _ =>
    simp only [exec, execLda, execLdx, execLdy, execAnd, execOra, execEor, execAdc, execSbc, execBit, execCmp, execCpx,
      execCpy] at h
    exact readForm_charged h rfl fun _ _ => rfl
  | sta _ | stx _ | sty _ =>
    simp only [exec, execSta, execStx, execSty] at h
    exact storeForm_charged rfl h
  | tax | tay | txa | tya | tsx | txs | inx | iny | dex | dey | clc | cld | cli | clv | sec | sed | sei | nop =>
    simp only [exec, execTax, execTay, execTxa, execTya, execTsx, execTxs, execInx, execIny, execDex, execDey, execClc,
      execCld, execCli, execClv, execSec, execSed, execSei, execNop] at h
    exact impliedForm_charged h rfl fun _ => rfl
  | pha | php =>
    simp only [exec, execPha, execPhp] at h
    exact impliedForm_charged h rfl fun _ => by rw [push_eq]
  | pla | plp =>
    simp only [exec, execPla, execPlp] at h
    exact impliedForm_charged h rfl fun _ => by rw [pull_eq]; rfl
  | rts =>
    simp only [exec, execRts] at h
    exact impliedForm_charged h rfl fun _ => by rw [pull16_eq]; rfl
  | brk =>
    simp only [exec, execBrk] at h
    exact impliedForm_charged h rfl fun _ => by rw [takeInterrupt_eq _ (.inr rfl)]
  | rti =>
    simp only [exec, execRti] at h
    exact impliedForm_charged h rfl fun _ => by rw [returnFromInterrupt_eq]
  | inc _ | dec _ =>
    simp only [exec, execInc, execDec] at h
    exact rmwForm_charged rfl h
  | asl _ | lsr _ | rol _ | ror _ =>
    simp only [exec, execAsl, execLsr, execRol, execRor] at h
    exact shiftForm_charged rfl h
  | jmp m =>
    simp only [exec, execJmp] at h
    cases h
    exact charged_of_start rfl rfl
  | jsr w =>
    simp only [exec, execJsr] at h
    cases h
    exact charged_of_start rfl (by rw [push16_eq]; rfl)
  | illegal op =>
    simp only [exec, execIllegal] at h
    cases h
    have hrom : (Instr.illegal op).info = _ := rom_of_isIllegal (hi op rfl)
    rw [Charged, instrCost, hrom]
    rfl

/-! ### The whole step -/

/-- The decoder answers an illegal instruction for illegal bytes only (R123). -/
theorem isIllegal_of_decodeOpcode {op l h op' : Byte} (hd : decodeOpcode op l h = .illegal op') :
    isIllegal op' = true := by
  cases hop : isIllegal op with
  | false => exact absurd hd (decodeOpcode_ne_illegal hop l h op')
  | true =>
    rw [decodeOpcode_of_isIllegal op l h hop] at hd
    cases hd
    exact hop

theorem serviceInterrupt_cycles (s : State) :
    (serviceInterrupt s).cycles = s.cycles + cyc (if serviced s then 7 else 0) := by
  obtain ⟨hn, h⟩ | ⟨hn, hq, hf, h⟩ | ⟨hn, hq, h⟩ := serviceInterrupt_cases s
  · simp [h, serviced, hn]
  · simp [h, serviced, hn, hq, hf]
  · obtain hq | hq := hq <;> simp [h, serviced, hn, hq, cyc]

/-- Settles O10: a stall's one cycle, or what S2 and the instruction charge. -/
theorem stepCycleCount : Obligations.StepCycleCount := by
  intro s t h
  obtain ⟨-, he⟩ | ⟨-, hs, he⟩ | ⟨-, hs, he⟩ := step_cases s <;> rw [he] at h
  · cases h
  · cases h
    exact ⟨fun _ => rfl, fun hs' => absurd hs' hs.ne'⟩
  · refine ⟨fun hs' => absurd hs hs'.ne', fun _ => ?_⟩
    have hcost : Charged _ _ t := exec_charged (fun op hop => isIllegal_of_decodeOpcode hop) h
    rw [Charged, fetch_snd_cycles, serviceInterrupt_cycles, BitVec.add_assoc, cyc_add] at hcost
    exact hcost

end Sys2Proof.Machine
end

section
/-! A stalled step (R141) and `AddStall` (R380). -/

namespace Sys2Proof.Machine

theorem step_of_stalled {s : State} (hr : s.resetDone = true) (hs : 0 < s.stall) : step s = .next (stallStep s) := by
  rw [step, if_pos hr, if_pos hs]

theorem step_of_not_stalled {s : State} (hr : s.resetDone = true) (hs : s.stall = 0) :
    step s = exec (fetch (serviceInterrupt s)).1 (fetch (serviceInterrupt s)).2 := by
  rw [step, if_pos hr, if_neg (by omega), runInstruction]

theorem emulate_of_step {s t : State} (h : step s = .next t) :
    emulate s = .next (t, stepCycles s t, diagnosticOf (newEvents s t)) := by
  rw [emulate, h]

theorem stepCycles_stallStep (s : State) : stepCycles s (stallStep s) = 1 := by
  rw [stepCycles, stallStep_cycles, add_sub_cancel_left]
  rfl

/-- Without new events there is no diagnostic. -/
theorem diagnosticOf_newEvents_of_same {s t : State} (h : t.events = s.events) :
    diagnosticOf (newEvents s t) = none := by
  rw [newEvents, h, Nat.sub_self]
  rfl

/-- Settles O6: the step is S1 alone, and it adds one cycle and no event. -/
theorem stalledStepOnlyCounts : Obligations.StalledStepOnlyCounts := by
  refine ⟨fun s hr hs => ?_, fun s n => ⟨rfl, rfl⟩⟩
  have hstep := step_of_stalled hr hs
  have hemulate := emulate_of_step hstep
  rw [stepCycles_stallStep, diagnosticOf_newEvents_of_same (stallStep_events s)] at hemulate
  exact ⟨hstep, hemulate⟩

end Sys2Proof.Machine
end

section
/-! Fetching (R100, R143): the three bytes at PC decode to the instruction a step runs, and each byte that is read draws
when it lies in the external region (R65). -/

namespace Sys2Proof.Machine

/-! ### The draws of the fetch -/

theorem fetchDraws_succ (n : Nat) (pc : Word) :
    fetchDraws (n + 1) pc = fetchDraws n pc + if isExternal (pc + BitVec.ofNat 16 n) then 1 else 0 := by
  rw [fetchDraws, List.range_succ, List.filter_append, List.length_append, ← fetchDraws, List.filter_singleton]
  cases isExternal (pc + BitVec.ofNat 16 n) <;> rfl

/-- The state after reading the first `n` bytes from `pc` on. -/
def State.fetched (s : State) (n : Nat) (pc : Word) : State := { s with extReads := s.extReads + fetchDraws n pc }

theorem State.fetched_zero (s : State) (pc : Word) : s.fetched 0 pc = s := rfl

theorem State.touch_fetched (s : State) (n : Nat) (pc : Word) :
    (s.fetched n pc).touch (pc + BitVec.ofNat 16 n) = s.fetched (n + 1) pc := by
  simp only [State.touch, State.fetched, fetchDraws_succ]
  split <;> rfl

theorem operandBytes_le_two (m : Mode) : operandBytes m ≤ 2 := by cases m <;> decide

/-- S3 and the operand reads of S4: the opcode and as many bytes as its mode has. -/
theorem fetch_snd_eq (s : State) :
    (fetch s).2 = s.fetched (1 + operandBytes (romEntry (s.peek s.pc)).mode) s.pc := by
  have hle := operandBytes_le_two (romEntry (s.peek s.pc)).mode
  have h0 : s.touch s.pc = s.fetched 1 s.pc := by
    have h := s.touch_fetched 0 s.pc
    rwa [State.fetched_zero, BitVec.add_zero] at h
  have h1 : (s.fetched 1 s.pc).touch (s.pc + 1#16) = s.fetched 2 s.pc := s.touch_fetched 1 s.pc
  have h2 : (s.fetched 2 s.pc).touch (s.pc + 2#16) = s.fetched 3 s.pc := s.touch_fetched 2 s.pc
  simp only [fetch, memRead, h0]
  generalize operandBytes (romEntry (s.peek s.pc)).mode = n at hle ⊢
  match n, hle with
  | 0, _ => rfl
  | 1, _ => exact h1
  | 2, _ => exact (congrArg (State.touch · _) h1).trans h2

/-! ### The instruction that is fetched -/

/-- The instruction is decoded from the three bytes at PC, though not all of them need be read (R101, R125). -/
theorem fetch_fst_eq (s : State) :
    let b0 := memRead s.pc s
    let b1 := memRead (s.pc + 1#16) b0.2
    let b2 := memRead (s.pc + 2#16) b1.2
    (fetch s).1 = decodeOpcode b0.1 b1.1 b2.1 := by
  refine decodeOpcode_congr _ _ _ _ _ (fun hl => ?_) (fun hh => ?_)
  · rw [if_pos hl]
  · have hl : 1 ≤ operandBytes (romEntry (memRead s.pc s).1).mode := by omega
    rw [if_pos hh, if_pos hl]

/-- Three bytes are enough for every opcode. -/
theorem decode_three_eq_ok {op l h : Byte} {i : Instr} {rest : List Byte} (hd : decode [op, l, h] = .ok (i, rest)) :
    decodeOpcode op l h = i := by
  rw [decode] at hd
  split at hd
  · cases hd
  · cases hd
    rfl

/-- How many bytes an instruction's operand has does not depend on their values. -/
theorem build_operand_length (n : Mnemonic) (m : Mode) (l h : Byte) :
    (build n m l h).map (·.operand.bytes.length) = (build n m 0#8 0#8).map (·.operand.bytes.length) := by
  cases n with
  | lda | ldx | ldy | sta | stx | sty | adc | sbc | and | ora | eor | bit | cmp | cpx | cpy | inc | dec | asl | lsr
  | rol | ror | jmp => cases m <;> rfl
  | _ => rfl

/-- An instruction's operand has the bytes that its opcode's mode reads (R101). -/
theorem decodeOpcode_operand_length (op l h : Byte) :
    (decodeOpcode op l h).operand.bytes.length = operandBytes (romEntry op).mode := by
  have hzero : ∀ op : Byte, (decodeOpcode op 0#8 0#8).operand.bytes.length = operandBytes (romEntry op).mode := by
    decide +kernel
  have hlen : ∀ l h, (decodeOpcode op l h).operand.bytes.length =
      ((build (romEntry op).mnemonic (romEntry op).mode l h).map (·.operand.bytes.length)).getD 0 := fun _ _ =>
    (Option.getD_map (fun i : Instr => i.operand.bytes.length) (.illegal op) _).symm
  rw [hlen, build_operand_length, ← hlen, hzero]

/-- Settles O5: the fetch decodes the bytes at PC and reads the opcode and its operand bytes. -/
theorem stepRunsDecodedInstruction : Obligations.StepRunsDecodedInstruction := by
  intro s i rest hr hs u b0 b1 b2 hd
  have hi : (fetch u).1 = i := (fetch_fst_eq u).trans (decode_three_eq_ok hd)
  have hlen : i.operand.bytes.length = operandBytes (romEntry (u.peek u.pc)).mode := by
    rw [← hi]
    exact decodeOpcode_operand_length _ _ _
  calc step s = exec (fetch u).1 (fetch u).2 := step_of_not_stalled hr hs
    _ = exec i (u.fetched (1 + i.operand.bytes.length) u.pc) := by rw [hi, fetch_snd_eq, hlen]

end Sys2Proof.Machine
end


section
/-! LDA, LDX and LDY (R171 to R173): encodings, and the loaded register with N and Z over the shared shape of the
instructions that read M. -/

namespace Sys2Proof.Machine

/-! ### Length and cost of the instructions that read M and write no memory -/

/-- The instructions that read M and write no memory (R170, R210). -/
def readsOnly (i : Instr) : Bool :=
  match i with
  | .lda _ | .ldx _ | .ldy _ | .adc _ | .sbc _ | .and _ | .ora _ | .eor _ | .bit _ | .cmp _ | .cpx _ | .cpy _ => true
  | _ => false

/-- For each of them the ROM's length and cycles are those of the mode tables (R101, R210, R414): only the indexed modes
with a 16-bit base are charged for a page crossing. -/
theorem rom_of_readsOnly {i : Instr} (hi : readsOnly i = true) (s : State) :
    i.info.advance = formLength i.operand ∧
    (if crossedOf i.operand s then i.info.pagecycles else 0) + i.info.cycles = readCost i.operand s := by
  cases i with
  | lda m | adc m | sbc m | and m | ora m | eor m | cmp m =>
    cases m with
    | abx _ | aby _ | izy _ => exact ⟨rfl, ite_cost rfl rfl⟩
    | imm _ | zp _ | zpx _ | abs _ | izx _ => exact ⟨rfl, ite_cost_const rfl rfl⟩
  | ldx m =>
    cases m with
    | aby _ => exact ⟨rfl, ite_cost rfl rfl⟩
    | imm _ | zp _ | zpy _ | abs _ => exact ⟨rfl, ite_cost_const rfl rfl⟩
  | ldy m =>
    cases m with
    | abx _ => exact ⟨rfl, ite_cost rfl rfl⟩
    | imm _ | zp _ | zpx _ | abs _ => exact ⟨rfl, ite_cost_const rfl rfl⟩
  | bit m | cpx m | cpy m => cases m <;> exact ⟨rfl, ite_cost_const rfl rfl⟩
  | _ => cases hi

/-- One of them that updates registers and flags by `f` answers `f` of M, leaves all else alone, and moves on by its
form's length and cost. -/
theorem readForm_next_of_readsOnly {i : Instr} (hi : readsOnly i = true) {f : Byte → State → State} (s : State)
    (hf : ∀ v u, Settled u (f v u)) :
    readForm i f s = .next (f (operandM i.operand s) (readM i s).2) ∧
    RestSame s (f (operandM i.operand s) (readM i s).2) ∧
    Moved (formLength i.operand) (readCost i.operand s) s (f (operandM i.operand s) (readM i s).2) := by
  obtain ⟨hlength, hcost⟩ := rom_of_readsOnly hi s
  exact readForm_next hlength hcost hf

/-! ### Encodings -/

theorem lda_codes : AluCodes .lda 0xA9#8 0xA5#8 0xB5#8 0xAD#8 0xBD#8 0xB9#8 0xA1#8 0xB1#8 := fun _ _ =>
  ⟨codes_two rfl fun _ => rfl, codes_two rfl fun _ => rfl, codes_two rfl fun _ => rfl, codes_three rfl rfl,
    codes_three rfl rfl, codes_three rfl rfl, codes_two rfl fun _ => rfl, codes_two rfl fun _ => rfl⟩

theorem ldx_codes (l h : Byte) :
    Codes [0xA2#8, l] (.ldx (.imm l)) ∧ Codes [0xA6#8, l] (.ldx (.zp l)) ∧ Codes [0xB6#8, l] (.ldx (.zpy l)) ∧
    Codes [0xAE#8, l, h] (.ldx (.abs (mkWord h l))) ∧ Codes [0xBE#8, l, h] (.ldx (.aby (mkWord h l))) :=
  ⟨codes_two rfl fun _ => rfl, codes_two rfl fun _ => rfl, codes_two rfl fun _ => rfl, codes_three rfl rfl,
    codes_three rfl rfl⟩

theorem ldy_codes (l h : Byte) :
    Codes [0xA0#8, l] (.ldy (.imm l)) ∧ Codes [0xA4#8, l] (.ldy (.zp l)) ∧ Codes [0xB4#8, l] (.ldy (.zpx l)) ∧
    Codes [0xAC#8, l, h] (.ldy (.abs (mkWord h l))) ∧ Codes [0xBC#8, l, h] (.ldy (.abx (mkWord h l))) :=
  ⟨codes_two rfl fun _ => rfl, codes_two rfl fun _ => rfl, codes_two rfl fun _ => rfl, codes_three rfl rfl,
    codes_three rfl rfl⟩

/-! ### The three loads -/

theorem exec_lda (m : AluMode) (s : State) : ∃ t, exec (.lda m) s = .next t ∧
    t.a = operandM m.operand s ∧ NZOf (operandM m.operand s) [] s t ∧ t.x = s.x ∧ t.y = s.y ∧ t.sp = s.sp ∧
    RestSame s t ∧ Moved (formLength m.operand) (readCost m.operand s) s t := by
  obtain ⟨hnext, hrest, hmoved⟩ := readForm_next_of_readsOnly (i := .lda m) rfl
    (f := fun v u => (u.setA v).setNZ v) s fun v u => settled_of u v u.x u.y u.sp _
  exact ⟨_, hnext, rfl, nzOf_setNZ _ (readM_snd_p ..), readM_snd_x .., readM_snd_y .., readM_snd_sp .., hrest, hmoved⟩

theorem exec_ldx (m : LdxMode) (s : State) : ∃ t, exec (.ldx m) s = .next t ∧
    t.x = operandM m.operand s ∧ NZOf (operandM m.operand s) [] s t ∧ t.a = s.a ∧ t.y = s.y ∧ t.sp = s.sp ∧
    RestSame s t ∧ Moved (formLength m.operand) (readCost m.operand s) s t := by
  obtain ⟨hnext, hrest, hmoved⟩ := readForm_next_of_readsOnly (i := .ldx m) rfl
    (f := fun v u => (u.setX v).setNZ v) s fun v u => settled_of u u.a v u.y u.sp _
  exact ⟨_, hnext, rfl, nzOf_setNZ _ (readM_snd_p ..), readM_snd_a .., readM_snd_y .., readM_snd_sp .., hrest, hmoved⟩

theorem exec_ldy (m : LdyMode) (s : State) : ∃ t, exec (.ldy m) s = .next t ∧
    t.y = operandM m.operand s ∧ NZOf (operandM m.operand s) [] s t ∧ t.a = s.a ∧ t.x = s.x ∧ t.sp = s.sp ∧
    RestSame s t ∧ Moved (formLength m.operand) (readCost m.operand s) s t := by
  obtain ⟨hnext, hrest, hmoved⟩ := readForm_next_of_readsOnly (i := .ldy m) rfl
    (f := fun v u => (u.setY v).setNZ v) s fun v u => settled_of u u.a u.x v u.sp _
  exact ⟨_, hnext, rfl, nzOf_setNZ _ (readM_snd_p ..), readM_snd_a .., readM_snd_x .., readM_snd_sp .., hrest, hmoved⟩

/-- Settles O34: the encodings, and each load as an instruction that reads M into its register. -/
theorem loadInstructions : Obligations.LoadInstructions :=
  ⟨lda_codes, ldx_codes, ldy_codes, exec_lda, exec_ldx, exec_ldy⟩

end Sys2Proof.Machine
end

section
/-! STA, STX and STY (R174 to R176): encodings, and the byte stored over the shared shape of the stores. -/

namespace Sys2Proof.Machine

/-! ### Encodings -/

theorem store_codes (l h : Byte) :
    Codes [0x85#8, l] (.sta (.zp l)) ∧ Codes [0x95#8, l] (.sta (.zpx l)) ∧
    Codes [0x8D#8, l, h] (.sta (.abs (mkWord h l))) ∧ Codes [0x9D#8, l, h] (.sta (.abx (mkWord h l))) ∧
    Codes [0x99#8, l, h] (.sta (.aby (mkWord h l))) ∧ Codes [0x81#8, l] (.sta (.izx l)) ∧
    Codes [0x91#8, l] (.sta (.izy l)) ∧ Codes [0x86#8, l] (.stx (.zp l)) ∧ Codes [0x96#8, l] (.stx (.zpy l)) ∧
    Codes [0x8E#8, l, h] (.stx (.abs (mkWord h l))) ∧ Codes [0x84#8, l] (.sty (.zp l)) ∧
    Codes [0x94#8, l] (.sty (.zpx l)) ∧ Codes [0x8C#8, l, h] (.sty (.abs (mkWord h l))) :=
  ⟨codes_two rfl fun _ => rfl, codes_two rfl fun _ => rfl, codes_three rfl rfl, codes_three rfl rfl,
    codes_three rfl rfl, codes_two rfl fun _ => rfl, codes_two rfl fun _ => rfl, codes_two rfl fun _ => rfl,
    codes_two rfl fun _ => rfl, codes_three rfl rfl, codes_two rfl fun _ => rfl, codes_two rfl fun _ => rfl,
    codes_three rfl rfl⟩

/-! ### The stores -/

/-- STA, STX and STY (R174 to R176). -/
def isStore (i : Instr) : Bool :=
  match i with
  | .sta _ | .stx _ | .sty _ => true
  | _ => false

/-- For each store the ROM's length and cycles are those of the mode tables, whether or not a page is crossed (R101,
R174, R414). -/
theorem rom_of_isStore {i : Instr} (hi : isStore i = true) (s : State) :
    i.info.advance = formLength i.operand ∧
    (if crossedOf i.operand s then i.info.pagecycles else 0) + i.info.cycles = storeCost i.operand := by
  cases i with
  | sta m | stx m | sty m => cases m <;> exact ⟨rfl, ite_cost_const rfl rfl⟩
  | _ => cases hi

/-- A store of a register that S4 and S5 leave alone: the byte at the effective address is its whole effect. -/
theorem storeForm_next_of_isStore {i : Instr} (hi : isStore i = true) {reg : State → Byte} {s : State}
    (hs : MemoryOk s) (hr : reg (start i s).st = reg s) :
    ∃ t, storeForm i reg s = .next t ∧ Stored (eaOf i.operand s) (reg s) s t ∧ SameRegs s t ∧ SameControls s t ∧
      t.lastBranch = s.lastBranch ∧ Moved (formLength i.operand) (storeCost i.operand) s t := by
  obtain ⟨hlength, hcost⟩ := rom_of_isStore hi s
  exact storeForm_next hs hlength hcost hr

/-- Settles O35: the encodings, $89 as an illegal byte, and each store as a write of its register. -/
theorem storeInstructions : Obligations.StoreInstructions :=
  ⟨store_codes, fun l h => decodeOpcode_of_isIllegal 0x89#8 l h (by decide),
    fun m s hs => storeForm_next_of_isStore (i := .sta m) rfl hs (start_st_a _ s),
    fun m s hs => storeForm_next_of_isStore (i := .stx m) rfl hs (start_st_x _ s),
    fun m s hs => storeForm_next_of_isStore (i := .sty m) rfl hs (start_st_y _ s)⟩

end Sys2Proof.Machine
end

section
/-! TAX, TAY, TXA, TYA, TSX and TXS (R191 to R196), PHA and PHP (R197, R198), PLA and PLP (R199, R200): the encodings,
and each instruction as a copy of a register, a push or a pull over the shared implied shape. -/

namespace Sys2Proof.Machine

/-! ### The implied shape: copies with N and Z, and pushes -/

/-- An implied instruction that puts a byte, the same before and after S4 and S5, into a register with N and Z of it. -/
theorem impliedForm_nz {i : Instr} {src : State → Byte} {dst : Byte → State → State} {s : State} {n c : Nat}
    (hn : i.info.advance = n) (hc : (if crossedOf i.operand s then i.info.pagecycles else 0) + i.info.cycles = c)
    (hsrc : src (start i s).st = src s) (hdst : ∀ v u, Settled u ((dst v u).setNZ v))
    (hp : ∀ v u, (dst v u).p = u.p) :
    let t := (dst (src s) (start i s).st).setNZ (src s)
    impliedForm i (fun u => (dst (src u) u).setNZ (src u)) s = .next t ∧ NZOf (src s) [] s t ∧ RestSame s t ∧
      Moved n c s t := by
  have hform := impliedForm_next (f := fun u => (dst (src u) u).setNZ (src u)) hn hc fun u => hdst (src u) u
  rw [hsrc] at hform
  obtain ⟨hnext, hrest, hmoved⟩ := hform
  exact ⟨hnext, nzOf_setNZ _ ((hp ..).trans (start_st_p ..)), hrest, hmoved⟩

/-- An implied instruction that pushes a byte, the same before and after S4 and S5. -/
theorem impliedForm_push {i : Instr} {src : State → Byte} {s : State} {n c : Nat} (hs : MemoryOk s)
    (hn : i.info.advance = n) (hc : (if crossedOf i.operand s then i.info.pagecycles else 0) + i.info.cycles = c)
    (hsrc : src (start i s).st = src s) :
    ∃ t, impliedForm i (fun u => push (src u) u) s = .next t ∧ Pushed [src s] s t ∧ SameAXY s t ∧ t.p = s.p ∧
      Moved n c s t := by
  obtain ⟨hpushed, ⟨ha, hx, hy⟩, hp, hpc, hcycles⟩ := push_pushed hs (start_agrees i s) (src s)
  obtain ⟨mpc, mcycles⟩ := start_moved hn hc
  exact ⟨push (src s) (start i s).st, by rw [impliedForm, hsrc], hpushed,
    ⟨ha.trans (start_st_a ..), hx.trans (start_st_x ..), hy.trans (start_st_y ..)⟩, hp.trans (start_st_p ..),
    hpc.trans mpc, hcycles.trans mcycles⟩

/-- S4 and S5 leave the byte that the next pull answers. -/
theorem stackByte_start_st (i : Instr) (s : State) (n : Nat) : stackByte (start i s).st n = stackByte s n := by
  rw [stackByte_eq, stackByte_eq, start_st_sp, start_st_ram]

/-! ### Encodings -/

theorem transfer_codes :
    Codes [0xAA#8] .tax ∧ Codes [0xA8#8] .tay ∧ Codes [0x8A#8] .txa ∧ Codes [0x98#8] .tya ∧ Codes [0xBA#8] .tsx ∧
    Codes [0x9A#8] .txs :=
  ⟨codes_one rfl fun _ _ => rfl, codes_one rfl fun _ _ => rfl, codes_one rfl fun _ _ => rfl,
    codes_one rfl fun _ _ => rfl, codes_one rfl fun _ _ => rfl, codes_one rfl fun _ _ => rfl⟩

theorem push_codes : Codes [0x48#8] .pha ∧ Codes [0x08#8] .php :=
  ⟨codes_one rfl fun _ _ => rfl, codes_one rfl fun _ _ => rfl⟩

theorem pull_codes : Codes [0x68#8] .pla ∧ Codes [0x28#8] .plp :=
  ⟨codes_one rfl fun _ _ => rfl, codes_one rfl fun _ _ => rfl⟩

/-! ### The transfers -/

theorem exec_tax (s : State) : ∃ t, exec .tax s = .next t ∧ t.x = s.a ∧ NZOf s.a [] s t ∧ t.a = s.a ∧ t.y = s.y ∧
    t.sp = s.sp ∧ RestSame s t ∧ Moved 1 2 s t := by
  obtain ⟨hnext, hnz, hrest, hmoved⟩ := impliedForm_nz (i := .tax) (src := State.a) (dst := fun v u => u.setX v) (s := s)
    rfl (ite_cost_const rfl rfl) (start_st_a ..) (fun v u => settled_of u u.a v u.y u.sp _) fun _ _ => rfl
  exact ⟨_, hnext, rfl, hnz, start_st_a .., start_st_y .., start_st_sp .., hrest, hmoved⟩

theorem exec_tay (s : State) : ∃ t, exec .tay s = .next t ∧ t.y = s.a ∧ NZOf s.a [] s t ∧ t.a = s.a ∧ t.x = s.x ∧
    t.sp = s.sp ∧ RestSame s t ∧ Moved 1 2 s t := by
  obtain ⟨hnext, hnz, hrest, hmoved⟩ := impliedForm_nz (i := .tay) (src := State.a) (dst := fun v u => u.setY v) (s := s)
    rfl (ite_cost_const rfl rfl) (start_st_a ..) (fun v u => settled_of u u.a u.x v u.sp _) fun _ _ => rfl
  exact ⟨_, hnext, rfl, hnz, start_st_a .., start_st_x .., start_st_sp .., hrest, hmoved⟩

theorem exec_txa (s : State) : ∃ t, exec .txa s = .next t ∧ t.a = s.x ∧ NZOf s.x [] s t ∧ t.x = s.x ∧ t.y = s.y ∧
    t.sp = s.sp ∧ RestSame s t ∧ Moved 1 2 s t := by
  obtain ⟨hnext, hnz, hrest, hmoved⟩ := impliedForm_nz (i := .txa) (src := State.x) (dst := fun v u => u.setA v) (s := s)
    rfl (ite_cost_const rfl rfl) (start_st_x ..) (fun v u => settled_of u v u.x u.y u.sp _) fun _ _ => rfl
  exact ⟨_, hnext, rfl, hnz, start_st_x .., start_st_y .., start_st_sp .., hrest, hmoved⟩

theorem exec_tya (s : State) : ∃ t, exec .tya s = .next t ∧ t.a = s.y ∧ NZOf s.y [] s t ∧ t.x = s.x ∧ t.y = s.y ∧
    t.sp = s.sp ∧ RestSame s t ∧ Moved 1 2 s t := by
  obtain ⟨hnext, hnz, hrest, hmoved⟩ := impliedForm_nz (i := .tya) (src := State.y) (dst := fun v u => u.setA v) (s := s)
    rfl (ite_cost_const rfl rfl) (start_st_y ..) (fun v u => settled_of u v u.x u.y u.sp _) fun _ _ => rfl
  exact ⟨_, hnext, rfl, hnz, start_st_x .., start_st_y .., start_st_sp .., hrest, hmoved⟩

theorem exec_tsx (s : State) : ∃ t, exec .tsx s = .next t ∧ t.x = s.sp ∧ NZOf s.sp [] s t ∧ t.a = s.a ∧ t.y = s.y ∧
    t.sp = s.sp ∧ RestSame s t ∧ Moved 1 2 s t := by
  obtain ⟨hnext, hnz, hrest, hmoved⟩ := impliedForm_nz (i := .tsx) (src := State.sp) (dst := fun v u => u.setX v) (s := s)
    rfl (ite_cost_const rfl rfl) (start_st_sp ..) (fun v u => settled_of u u.a v u.y u.sp _) fun _ _ => rfl
  exact ⟨_, hnext, rfl, hnz, start_st_a .., start_st_y .., start_st_sp .., hrest, hmoved⟩

/-- TXS is the one transfer without N and Z (R196). -/
theorem exec_txs (s : State) : ∃ t, exec .txs s = .next t ∧ t.sp = s.x ∧ t.p = s.p ∧ SameAXY s t ∧ RestSame s t ∧
    Moved 1 2 s t := by
  obtain ⟨hnext, hrest, hmoved⟩ := impliedForm_next (i := .txs) (f := fun u => u.setSP u.x) (s := s) rfl
    (ite_cost_const rfl rfl) fun u => settled_of u u.a u.x u.y u.x u.p
  exact ⟨_, hnext, start_st_x .., start_st_p .., ⟨start_st_a .., start_st_x .., start_st_y ..⟩, hrest, hmoved⟩

/-- Settles O36: the encodings, five copies with N and Z, and TXS. -/
theorem transferInstructions : Obligations.TransferInstructions :=
  ⟨transfer_codes, fun s => ⟨exec_tax s, exec_tay s, exec_txa s, exec_tya s, exec_tsx s, exec_txs s⟩⟩

/-! ### The pushes -/

theorem exec_pha {s : State} (hs : MemoryOk s) : ∃ t, exec .pha s = .next t ∧ Pushed [s.a] s t ∧ SameAXY s t ∧
    t.p = s.p ∧ Moved 1 3 s t :=
  impliedForm_push (i := .pha) (src := State.a) hs rfl (ite_cost_const rfl rfl) (start_st_a ..)

/-- The mask of `pushedFlags` with its break bit set is the byte R198 gives. -/
theorem pushedFlags_true (p : Byte) : pushedFlags p true = (p &&& 0xCF#8) ||| 0x30#8 := by
  rw [pushedFlags_eq, if_pos rfl, BitVec.or_assoc]; rfl

theorem exec_php {s : State} (hs : MemoryOk s) : ∃ t, exec .php s = .next t ∧
    Pushed [(s.p &&& 0xCF#8) ||| 0x30#8] s t ∧ SameAXY s t ∧ t.p = s.p ∧ Moved 1 3 s t := by
  rw [← pushedFlags_true]
  exact impliedForm_push (i := .php) (src := fun u => pushedFlags u.p true) hs rfl (ite_cost_const rfl rfl)
    (by rw [start_st_p])

/-- Settles O37: the encodings, and the two pushes over the shared shape. -/
theorem pushInstructions : Obligations.PushInstructions := ⟨push_codes, fun _ hs => ⟨exec_pha hs, exec_php hs⟩⟩

/-! ### The pulls -/

theorem exec_pla (s : State) : ∃ t, exec .pla s = .next t ∧ t.a = stackByte s 1 ∧ NZOf (stackByte s 1) [] s t ∧
    t.sp = s.sp + 1#8 ∧ t.x = s.x ∧ t.y = s.y ∧ RestSame s t ∧ Moved 1 4 s t := by
  obtain ⟨hnext, hnz, hrest, hmoved⟩ := impliedForm_nz (i := .pla) (src := fun u => stackByte u 1)
    (dst := fun v u => (u.setSP (u.sp + 1#8)).setA v) (s := s) rfl (ite_cost_const rfl rfl) (stackByte_start_st ..)
    (fun v u => settled_of u v u.x u.y (u.sp + 1#8) _) fun _ _ => rfl
  simp only [exec, execPla, pull_eq_stackByte]
  exact ⟨_, hnext, rfl, hnz, congrArg (· + 1#8) (start_st_sp ..), start_st_x .., start_st_y .., hrest, hmoved⟩

/-- A pulled flags word has U set, whatever the stack held (R200). -/
@[simp] theorem State.flag_u_setP_pulledFlags (s : State) (v : Byte) : (s.setP (pulledFlags v)).flag .u = true :=
  getFlag_pulledFlags .u v

/-- A pulled flags word has B clear, whatever the stack held (R200). -/
@[simp] theorem State.flag_b_setP_pulledFlags (s : State) (v : Byte) : (s.setP (pulledFlags v)).flag .b = false :=
  getFlag_pulledFlags .b v

theorem exec_plp (s : State) : ∃ t, exec .plp s = .next t ∧ t.p = (stackByte s 1 &&& 0xEF#8) ||| 0x20#8 ∧
    t.flag .u = true ∧ t.flag .b = false ∧ t.sp = s.sp + 1#8 ∧ SameAXY s t ∧ RestSame s t ∧ Moved 1 4 s t := by
  obtain ⟨hnext, hrest, hmoved⟩ := impliedForm_next (i := .plp)
    (f := fun u => (u.setSP (u.sp + 1#8)).setP (pulledFlags (stackByte u 1))) (s := s) rfl (ite_cost_const rfl rfl)
    fun u => settled_of u u.a u.x u.y (u.sp + 1#8) _
  simp only [exec, execPlp, pull_eq_stackByte]
  exact ⟨_, hnext, congrArg pulledFlags (stackByte_start_st ..), State.flag_u_setP_pulledFlags ..,
    State.flag_b_setP_pulledFlags .., congrArg (· + 1#8) (start_st_sp ..),
    ⟨start_st_a .., start_st_x .., start_st_y ..⟩, hrest, hmoved⟩

/-- Settles O38: the encodings, PLA as a copy with N and Z of the pulled byte, and PLP. -/
theorem pullInstructions : Obligations.PullInstructions := ⟨pull_codes, fun s => ⟨exec_pla s, exec_plp s⟩⟩

end Sys2Proof.Machine
end

section
/-! ADC, SBC, AND, ORA, EOR, BIT, CMP, CPX and CPY (R211 to R219): the encodings, and each instruction as a new A and a
new P over the shared shape of the instructions that read M. -/

namespace Sys2Proof.Machine

/-! ### Encodings -/

/-- The eight-mode group's encodings, from the ROM's lengths and the decoder's answers for the eight opcodes. -/
theorem aluCodes_of_decodeOpcode {mk : AluMode → Instr} {imm zp zpx abs abx aby izx izy : Byte}
    (htwo : ∀ op ∈ [imm, zp, zpx, izx, izy], (romEntry op).advance = 2)
    (hthree : ∀ op ∈ [abs, abx, aby], (romEntry op).advance = 3)
    (hdecode : ∀ l h, decodeOpcode imm l h = mk (.imm l) ∧ decodeOpcode zp l h = mk (.zp l) ∧
      decodeOpcode zpx l h = mk (.zpx l) ∧ decodeOpcode abs l h = mk (.abs (mkWord h l)) ∧
      decodeOpcode abx l h = mk (.abx (mkWord h l)) ∧ decodeOpcode aby l h = mk (.aby (mkWord h l)) ∧
      decodeOpcode izx l h = mk (.izx l) ∧ decodeOpcode izy l h = mk (.izy l)) :
    AluCodes mk imm zp zpx abs abx aby izx izy := by
  intro l h
  simp only [forall_and] at hdecode
  obtain ⟨dimm, dzp, dzpx, dabs, dabx, daby, dizx, dizy⟩ := hdecode
  exact ⟨codes_two (htwo _ (by simp)) (dimm l), codes_two (htwo _ (by simp)) (dzp l),
    codes_two (htwo _ (by simp)) (dzpx l), codes_three (hthree _ (by simp)) (dabs l h),
    codes_three (hthree _ (by simp)) (dabx l h), codes_three (hthree _ (by simp)) (daby l h),
    codes_two (htwo _ (by simp)) (dizx l), codes_two (htwo _ (by simp)) (dizy l)⟩

theorem adc_codes : AluCodes .adc 0x69#8 0x65#8 0x75#8 0x6D#8 0x7D#8 0x79#8 0x61#8 0x71#8 :=
  aluCodes_of_decodeOpcode (by decide) (by decide) fun _ _ => ⟨rfl, rfl, rfl, rfl, rfl, rfl, rfl, rfl⟩

theorem sbc_codes : AluCodes .sbc 0xE9#8 0xE5#8 0xF5#8 0xED#8 0xFD#8 0xF9#8 0xE1#8 0xF1#8 :=
  aluCodes_of_decodeOpcode (by decide) (by decide) fun _ _ => ⟨rfl, rfl, rfl, rfl, rfl, rfl, rfl, rfl⟩

theorem and_codes : AluCodes .and 0x29#8 0x25#8 0x35#8 0x2D#8 0x3D#8 0x39#8 0x21#8 0x31#8 :=
  aluCodes_of_decodeOpcode (by decide) (by decide) fun _ _ => ⟨rfl, rfl, rfl, rfl, rfl, rfl, rfl, rfl⟩

theorem ora_codes : AluCodes .ora 0x09#8 0x05#8 0x15#8 0x0D#8 0x1D#8 0x19#8 0x01#8 0x11#8 :=
  aluCodes_of_decodeOpcode (by decide) (by decide) fun _ _ => ⟨rfl, rfl, rfl, rfl, rfl, rfl, rfl, rfl⟩

theorem eor_codes : AluCodes .eor 0x49#8 0x45#8 0x55#8 0x4D#8 0x5D#8 0x59#8 0x41#8 0x51#8 :=
  aluCodes_of_decodeOpcode (by decide) (by decide) fun _ _ => ⟨rfl, rfl, rfl, rfl, rfl, rfl, rfl, rfl⟩

theorem cmp_codes : AluCodes .cmp 0xC9#8 0xC5#8 0xD5#8 0xCD#8 0xDD#8 0xD9#8 0xC1#8 0xD1#8 :=
  aluCodes_of_decodeOpcode (by decide) (by decide) fun _ _ => ⟨rfl, rfl, rfl, rfl, rfl, rfl, rfl, rfl⟩

theorem bit_codes (l h : Byte) :
    Codes [0x24#8, l] (.bit (.zp l)) ∧ Codes [0x2C#8, l, h] (.bit (.abs (mkWord h l))) :=
  ⟨codes_two rfl fun _ => rfl, codes_three rfl rfl⟩

theorem cpx_codes : CpCodes .cpx 0xE0#8 0xE4#8 0xEC#8 := fun _ _ =>
  ⟨codes_two rfl fun _ => rfl, codes_two rfl fun _ => rfl, codes_three rfl rfl⟩

theorem cpy_codes : CpCodes .cpy 0xC0#8 0xC4#8 0xCC#8 := fun _ _ =>
  ⟨codes_two rfl fun _ => rfl, codes_two rfl fun _ => rfl, codes_three rfl rfl⟩

/-! ### The shape: A and P from registers and M -/

/-- An instruction that reads M and computes A and P from it and from what S4, S5 and the read of M leave alone: both are
those of the state it began in, and all else stays. -/
theorem readForm_setA_setP {i : Instr} (hi : readsOnly i = true) {newA newP : Byte → State → Byte} (s : State)
    (ha : ∀ v, newA v (readM i s).2 = newA v s) (hp : ∀ v, newP v (readM i s).2 = newP v s) :
    ∃ t, readForm i (fun v u => (u.setA (newA v u)).setP (newP v u)) s = .next t ∧
      t.a = newA (operandM i.operand s) s ∧ t.p = newP (operandM i.operand s) s ∧ t.x = s.x ∧ t.y = s.y ∧
      t.sp = s.sp ∧ RestSame s t ∧ Moved (formLength i.operand) (readCost i.operand s) s t := by
  obtain ⟨hnext, hrest, hmoved⟩ := readForm_next_of_readsOnly hi (f := fun v u => (u.setA (newA v u)).setP (newP v u)) s
    fun v u => settled_of u (newA v u) u.x u.y u.sp (newP v u)
  exact ⟨_, hnext, ha _, hp _, readM_snd_x .., readM_snd_y .., readM_snd_sp .., hrest, hmoved⟩

/-- N and Z of `r` written last over a flags word that keeps the flags outside `fs`. -/
theorem nzOf_of_nzFlags {s t : State} {r q : Byte} {fs : List Flag} (hp : t.p = nzFlags r q)
    (hq : ∀ f, f ∉ fs → getFlag f q = s.flag f) : NZOf r fs s t := by
  refine ⟨?_, ?_, fun f hf => ?_⟩
  · rw [State.flag_eq, hp, getFlag_nzFlags]; rfl
  · rw [State.flag_eq, hp, getFlag_nzFlags]; rfl
  · simp only [List.mem_cons, not_or] at hf
    obtain ⟨hn, hz, hfs⟩ := hf
    rw [State.flag_eq, hp, getFlag_nzFlags, if_neg hn, if_neg hz, hq f hfs]

/-! ### ADC and SBC -/

/-- Writing C and V keeps the other flags. -/
theorem getFlag_setFlag_v_setFlag_c {f : Flag} (hf : f ∉ [Flag.c, Flag.v]) (v c : Bool) (p : Byte) :
    getFlag f (setFlag .v v (setFlag .c c p)) = getFlag f p := by
  simp only [List.mem_cons, not_or] at hf
  obtain ⟨hc, hv, -⟩ := hf
  rw [getFlag_setFlag, if_neg hv, getFlag_setFlag, if_neg hc]

theorem adcSum_eq (a m : Byte) (c : Bool) : adcSum a m c = a.toNat + m.toNat + (if c then 1 else 0) := by
  cases c <;> rfl

theorem sbcDiff_eq (a m : Byte) (c : Bool) :
    sbcDiff a m c = (a.toNat : Int) - m.toNat - (1 - (if c then 1 else 0)) := by
  cases c <;> rfl

/-- ADC in the terms of R211: the exact sum gives A and C, the signs give V. -/
theorem exec_adc (m : AluMode) (s : State) :
    let v := operandM m.operand s
    let sum := s.a.toNat + v.toNat + (if s.flag .c then 1 else 0)
    ∃ t, exec (.adc m) s = .next t ∧ t.a = BitVec.ofNat 8 sum ∧ t.flag .c = decide (sum > 255) ∧
      t.flag .v = (decide ((s.a ^^^ v) &&& 0x80#8 = 0#8) && decide ((s.a ^^^ t.a) &&& 0x80#8 ≠ 0#8)) ∧
      NZOf t.a [.c, .v] s t ∧ t.x = s.x ∧ t.y = s.y ∧ t.sp = s.sp ∧ RestSame s t ∧
      Moved (formLength m.operand) (readCost m.operand s) s t := by
  intro v sum
  obtain ⟨t, hnext, ha, hp, hframe⟩ := readForm_setA_setP (i := .adc m) rfl
    (newA := fun v u => adcResult u.a v (u.flag .c)) (newP := fun v u => adcFlags u.a v u.p) s (by simp) (by simp)
  have hsum : adcSum s.a v (s.flag .c) = sum := adcSum_eq ..
  refine ⟨t, hnext, by rw [ha, ← hsum]; rfl, ?_, ?_, ?_, hframe⟩
  · rw [State.flag_eq, hp, getFlag_adcFlags, ← hsum]; rfl
  · rw [State.flag_eq, hp, getFlag_adcFlags, ha, decide_not]; rfl
  · rw [ha]; exact nzOf_of_nzFlags hp fun f hf => getFlag_setFlag_v_setFlag_c hf ..

/-- SBC in the terms of R212: the exact difference gives A and C, the signs give V. -/
theorem exec_sbc (m : AluMode) (s : State) :
    let v := operandM m.operand s
    let diff : Int := (s.a.toNat : Int) - v.toNat - (1 - (if s.flag .c then 1 else 0))
    ∃ t, exec (.sbc m) s = .next t ∧ t.a = BitVec.ofInt 8 diff ∧ t.flag .c = decide (diff ≥ 0) ∧
      t.flag .v = (decide ((s.a ^^^ v) &&& 0x80#8 ≠ 0#8) && decide ((s.a ^^^ t.a) &&& 0x80#8 ≠ 0#8)) ∧
      NZOf t.a [.c, .v] s t ∧ t.x = s.x ∧ t.y = s.y ∧ t.sp = s.sp ∧ RestSame s t ∧
      Moved (formLength m.operand) (readCost m.operand s) s t := by
  intro v diff
  obtain ⟨t, hnext, ha, hp, hframe⟩ := readForm_setA_setP (i := .sbc m) rfl
    (newA := fun v u => sbcResult u.a v (u.flag .c)) (newP := fun v u => sbcFlags u.a v u.p) s (by simp) (by simp)
  have hdiff : sbcDiff s.a v (s.flag .c) = diff := sbcDiff_eq ..
  refine ⟨t, hnext, by rw [ha, ← hdiff]; rfl, ?_, ?_, ?_, hframe⟩
  · rw [State.flag_eq, hp, getFlag_sbcFlags, ← hdiff]; rfl
  · rw [State.flag_eq, hp, getFlag_sbcFlags, ha, decide_not, decide_not]; rfl
  · rw [ha]; exact nzOf_of_nzFlags hp fun f hf => getFlag_setFlag_v_setFlag_c hf ..

/-- Settles O39: the encodings, and ADC in every form. -/
theorem addWithCarry : Obligations.AddWithCarry := ⟨adc_codes, exec_adc⟩

/-- Settles O40: the encodings, and SBC in every form. -/
theorem subtractWithBorrow : Obligations.SubtractWithBorrow := ⟨sbc_codes, exec_sbc⟩

/-! ### AND, ORA and EOR -/

/-- An instruction that reads M and puts `op A M` into A with N and Z of it. -/
theorem readForm_logic {i : Instr} (hi : readsOnly i = true) (op : Byte → Byte → Byte) (s : State) :
    let r := op s.a (operandM i.operand s)
    ∃ t, readForm i (fun v u => (u.setA (op u.a v)).setNZ (op u.a v)) s = .next t ∧ t.a = r ∧ NZOf r [] s t ∧
      t.x = s.x ∧ t.y = s.y ∧ t.sp = s.sp ∧ RestSame s t ∧
      Moved (formLength i.operand) (readCost i.operand s) s t := by
  obtain ⟨t, hnext, ha, hp, hframe⟩ := readForm_setA_setP hi (newA := fun v u => op u.a v)
    (newP := fun v u => nzFlags (op u.a v) u.p) s (by simp) (by simp)
  exact ⟨t, hnext, ha, nzOf_of_nzFlags hp fun _ _ => rfl, hframe⟩

/-- Settles O43: the encodings, and the three instructions as one shape with three operations. -/
theorem logicInstructions : Obligations.LogicInstructions :=
  ⟨and_codes, ora_codes, eor_codes, fun m s =>
    ⟨readForm_logic (i := .and m) rfl (· &&& ·) s, readForm_logic (i := .ora m) rfl (· ||| ·) s,
      readForm_logic (i := .eor m) rfl (· ^^^ ·) s⟩⟩

/-! ### BIT and the compares -/

/-- An instruction that reads M and computes P alone, from it and from what S4, S5 and the read of M leave alone. -/
theorem readForm_setP {i : Instr} (hi : readsOnly i = true) {newP : Byte → State → Byte} (s : State)
    (hp : ∀ v, newP v (readM i s).2 = newP v s) :
    ∃ t, readForm i (fun v u => u.setP (newP v u)) s = .next t ∧ t.p = newP (operandM i.operand s) s ∧ SameAXY s t ∧
      t.sp = s.sp ∧ RestSame s t ∧ Moved (formLength i.operand) (readCost i.operand s) s t := by
  obtain ⟨t, hnext, ha, hp, hx, hy, hframe⟩ := readForm_setA_setP hi (newA := fun _ u => u.a) s (by simp) hp
  exact ⟨t, hnext, hp, ⟨ha, hx, hy⟩, hframe⟩

theorem exec_bit (m : BitMode) (s : State) :
    let v := operandM m.operand s
    ∃ t, exec (.bit m) s = .next t ∧ t.flag .z = decide (s.a &&& v = 0#8) ∧ t.flag .v = v.getLsbD 6 ∧
      t.flag .n = v.getLsbD 7 ∧ FlagsSameBut [.z, .v, .n] s t ∧ SameAXY s t ∧ t.sp = s.sp ∧ RestSame s t ∧
      Moved (formLength m.operand) (readCost m.operand s) s t := by
  intro v
  obtain ⟨t, hnext, hp, hframe⟩ := readForm_setP (i := .bit m) rfl (newP := fun v u => bitFlags u.a v u.p) s (by simp)
  have hflag (f : Flag) := (congrArg (getFlag f) hp).trans (getFlag_bitFlags ..)
  refine ⟨t, hnext, hflag .z, hflag .v, hflag .n, fun f hf => ?_, hframe⟩
  simp only [List.mem_cons, not_or] at hf
  obtain ⟨hz, hv, hn, -⟩ := hf
  rw [State.flag_eq, hflag, if_neg hn, if_neg hv, if_neg hz, State.flag_eq]

/-- A compare of M with a register that S4, S5 and the read of M leave alone. -/
theorem readForm_compare {i : Instr} (hi : readsOnly i = true) {reg : State → Byte} (s : State)
    (hreg : reg (readM i s).2 = reg s) :
    let v := operandM i.operand s
    ∃ t, readForm i (fun v u => u.setP (cmpFlags (reg u) v u.p)) s = .next t ∧
      t.flag .c = decide (v.toNat ≤ (reg s).toNat) ∧ t.flag .z = decide (reg s = v) ∧
      t.flag .n = (reg s - v).getLsbD 7 ∧ FlagsSameBut [.c, .z, .n] s t ∧ SameAXY s t ∧ t.sp = s.sp ∧ RestSame s t ∧
      Moved (formLength i.operand) (readCost i.operand s) s t := by
  intro v
  obtain ⟨t, hnext, hp, hframe⟩ := readForm_setP hi (newP := fun v u => cmpFlags (reg u) v u.p) s (by simp [hreg])
  have hflag (f : Flag) := (congrArg (getFlag f) hp).trans (getFlag_cmpFlags ..)
  refine ⟨t, hnext, hflag .c, hflag .z, hflag .n, fun f hf => ?_, hframe⟩
  simp only [List.mem_cons, not_or] at hf
  obtain ⟨hc, hz, hn, -⟩ := hf
  rw [State.flag_eq, hflag, if_neg hn, if_neg hz, if_neg hc, State.flag_eq]

/-- Settles O44: the encodings, and the flags of `bitFlags`. -/
theorem bitTest : Obligations.BitTest := ⟨bit_codes, exec_bit⟩

/-- Settles O45: the encodings, and the three instructions as one compare with three registers. -/
theorem compareInstructions : Obligations.CompareInstructions :=
  ⟨cmp_codes, cpx_codes, cpy_codes, fun m s => readForm_compare (i := .cmp m) rfl s (readM_snd_a ..),
    fun m s => ⟨readForm_compare (i := .cpx m) rfl s (readM_snd_x ..),
      readForm_compare (i := .cpy m) rfl s (readM_snd_y ..)⟩⟩

end Sys2Proof.Machine
end

section
/-! What the spec infers of ADC and SBC (R212, R220, R221): the XOR form of the overflow formula, V as signed overflow,
and SBC as ADC of the complement. -/

namespace Sys2Proof.Machine

/-! ### Signed overflow of the sum -/

/-- The result of ADC is the signed sum modulo 256 as well as the unsigned one. -/
theorem toInt_adcResult (a m : Byte) (c : Bool) :
    (adcResult a m c).toInt = (a.toInt + m.toInt + (if c then 1 else 0)).bmod 256 := by
  have h : adcResult a m c = BitVec.ofInt 8 (a.toInt + m.toInt + (if c then 1 else 0)) := by
    simp only [adcResult, adcSum_eq, BitVec.ofInt_add, BitVec.ofInt_toInt, BitVec.ofNat_add, BitVec.ofNat_toNat,
      BitVec.setWidth_eq]
    cases c <;> rfl
  rw [h, BitVec.toInt_ofInt]

/-- The XOR formula in signs: equal operand signs, and a result of the other sign. -/
theorem overflowBit_iff (a m r : Byte) :
    ((~~~(a ^^^ m)) &&& (a ^^^ r)).getLsbD 7 = true ↔
      (a.toInt < 0 ↔ m.toInt < 0) ∧ ¬ (a.toInt < 0 ↔ r.toInt < 0) := by
  rw [← BitVec.msb_eq_getLsbD_last (w := 8), BitVec.msb_and, BitVec.msb_not, BitVec.msb_xor, BitVec.msb_xor,
    BitVec.msb_eq_toInt, BitVec.msb_eq_toInt, BitVec.msb_eq_toInt, Bool.and_eq_true]
  simp [← decide_eq_decide]

/-- The sign tests of R211 are the XOR formula (R221). -/
theorem signTests_eq_overflowBit (x y : Byte) :
    (decide (x &&& 0x80#8 = 0#8) && decide (y &&& 0x80#8 ≠ 0#8)) = ((~~~x) &&& y).getLsbD 7 := by
  have hx : decide (x &&& 0x80#8 = 0#8) = !x.getLsbD 7 := and_sign_eq_zero x
  have hy : (!decide (y &&& 0x80#8 = 0#8)) = y.getLsbD 7 := and_sign_ne_zero y
  rw [decide_not, hx, hy, BitVec.getLsbD_and, BitVec.getLsbD_not]
  rfl

/-- The formula holds exactly when the byte is not the exact signed sum. -/
theorem overflowBit_adcResult (a m : Byte) (c : Bool) :
    ((~~~(a ^^^ m)) &&& (a ^^^ adcResult a m c)).getLsbD 7 = true ↔
      (adcResult a m c).toInt ≠ a.toInt + m.toInt + (if c then 1 else 0) := by
  rw [overflowBit_iff, toInt_adcResult, Int.bmod_def]
  have ha := a.toInt_lt; have ha' := a.le_toInt
  have hm := m.toInt_lt; have hm' := m.le_toInt
  omega

/-! ### SBC is ADC of the complement (R212) -/

theorem xor_ff_eq_not (m : Byte) : m ^^^ 0xFF#8 = ~~~m := BitVec.xor_allOnes

theorem toNat_complement (m : Byte) : (m ^^^ 0xFF#8).toNat = 255 - m.toNat := by
  rw [xor_ff_eq_not, BitVec.toNat_not]

theorem toInt_complement (m : Byte) : (m ^^^ 0xFF#8).toInt = -m.toInt - 1 := by
  rw [BitVec.toInt_eq_toNat_cond, BitVec.toInt_eq_toNat_cond, toNat_complement]
  have := m.isLt
  omega

/-- The exact sum with the complement is the exact difference and 256 more. -/
theorem adcSum_complement (a m : Byte) (c : Bool) : (adcSum a (m ^^^ 0xFF#8) c : Int) = sbcDiff a m c + 256 := by
  rw [adcSum, sbcDiff, toNat_complement]
  have := m.isLt
  omega

theorem sbcResult_eq_adcResult (a m : Byte) (c : Bool) : sbcResult a m c = adcResult a (m ^^^ 0xFF#8) c := by
  rw [sbcResult, adcResult, ← BitVec.ofInt_natCast, adcSum_complement, BitVec.ofInt_add]
  exact (BitVec.add_zero _).symm

/-- C of SBC is the carry out of that sum. -/
theorem sbcDiff_nonneg_iff (a m : Byte) (c : Bool) : sbcDiff a m c ≥ 0 ↔ adcSum a (m ^^^ 0xFF#8) c > 0xFF := by
  have := adcSum_complement a m c
  omega

theorem sbcFlags_eq_adcFlags (a m p : Byte) : sbcFlags a m p = adcFlags a (m ^^^ 0xFF#8) p := by
  have hv : ((a ^^^ m) &&& 0x80#8 != 0#8) = ((a ^^^ (m ^^^ 0xFF#8)) &&& 0x80#8 == 0#8) := by
    rw [and_sign_ne_zero, and_sign_eq_zero]
    simp
  simp only [sbcFlags, adcFlags, sbcResult_eq_adcResult, sbcDiff_nonneg_iff, hv]

theorem exec_sbc_imm (v : Byte) (s : State) : exec (.sbc (.imm v)) s = exec (.adc (.imm (v ^^^ 0xFF#8))) s := by
  have hread : (readM (.sbc (.imm v)) s).2 = (readM (.adc (.imm (v ^^^ 0xFF#8))) s).2 := rfl
  simp only [exec, execSbc, execAdc, readForm, readM_fst, hread]
  simp only [Instr.operand, AluMode.operand, operandM, sbcResult_eq_adcResult, sbcFlags_eq_adcFlags]

/-! ### The statement -/

theorem exec_adc_imm_overflow (v : Byte) (s : State) :
    ∃ t, exec (.adc (.imm v)) s = .next t ∧ t.flag .v = ((~~~(s.a ^^^ v)) &&& (s.a ^^^ t.a)).getLsbD 7 ∧
      (t.flag .v = true ↔ t.a.toInt ≠ s.a.toInt + v.toInt + (if s.flag .c then 1 else 0)) := by
  obtain ⟨t, hnext, ha, -, hv, -⟩ := exec_adc (.imm v) s
  have ha : t.a = adcResult s.a v (s.flag .c) := by rw [ha, adcResult, adcSum_eq]; rfl
  have hv : t.flag .v = ((~~~(s.a ^^^ v)) &&& (s.a ^^^ t.a)).getLsbD 7 := by
    rw [hv, signTests_eq_overflowBit]; rfl
  refine ⟨t, hnext, hv, ?_⟩
  rw [hv, ha, overflowBit_adcResult]

/-- ADC of the complement, read as SBC. -/
theorem exec_sbc_imm_overflow (v : Byte) (s : State) :
    ∃ t, exec (.sbc (.imm v)) s = .next t ∧ t.flag .v = ((s.a ^^^ v) &&& (s.a ^^^ t.a)).getLsbD 7 ∧
      (t.flag .v = true ↔ t.a.toInt ≠ s.a.toInt - v.toInt - (if s.flag .c then 0 else 1)) := by
  obtain ⟨t, hnext, hv, hsigned⟩ := exec_adc_imm_overflow (v ^^^ 0xFF#8) s
  refine ⟨t, (exec_sbc_imm v s).trans hnext, ?_, ?_⟩
  · rw [hv, xor_ff_eq_not, ← BitVec.not_xor_right, BitVec.not_not]
  · rw [hsigned, toInt_complement]
    split <;> omega

/-- Settles O41: the ADC clauses by the signed sum, and the SBC clauses from them by the complement. -/
theorem overflowFormula : Obligations.OverflowFormula := fun v s =>
  ⟨exec_adc_imm_overflow v s, exec_sbc_imm_overflow v s, exec_sbc_imm v s⟩

end Sys2Proof.Machine
end

section
/-! INX, INY, DEX and DEY (R243 to R246), INC and DEC (R241, R242), ASL, LSR, ROL and ROR (R247 to R250): the encodings,
the index registers and the Accumulator forms over the implied shape, and the memory forms as one read and one write. -/

namespace Sys2Proof.Machine

/-! ### Encodings -/

/-- The encodings of the four memory modes, from the ROM's lengths and the decoder's answers for the four opcodes. -/
theorem rmwCodes_of_decodeOpcode {mk : RmwMode → Instr} {zp zpx abs abx : Byte}
    (htwo : ∀ op ∈ [zp, zpx], (romEntry op).advance = 2) (hthree : ∀ op ∈ [abs, abx], (romEntry op).advance = 3)
    (hdecode : ∀ l h, decodeOpcode zp l h = mk (.zp l) ∧ decodeOpcode zpx l h = mk (.zpx l) ∧
      decodeOpcode abs l h = mk (.abs (mkWord h l)) ∧ decodeOpcode abx l h = mk (.abx (mkWord h l))) :
    RmwCodes mk zp zpx abs abx := by
  intro l h
  simp only [forall_and] at hdecode
  obtain ⟨dzp, dzpx, dabs, dabx⟩ := hdecode
  exact ⟨codes_two (htwo _ (by simp)) (dzp l), codes_two (htwo _ (by simp)) (dzpx l),
    codes_three (hthree _ (by simp)) (dabs l h), codes_three (hthree _ (by simp)) (dabx l h)⟩

theorem inc_codes : RmwCodes .inc 0xE6#8 0xF6#8 0xEE#8 0xFE#8 :=
  rmwCodes_of_decodeOpcode (by decide) (by decide) fun _ _ => ⟨rfl, rfl, rfl, rfl⟩

theorem dec_codes : RmwCodes .dec 0xC6#8 0xD6#8 0xCE#8 0xDE#8 :=
  rmwCodes_of_decodeOpcode (by decide) (by decide) fun _ _ => ⟨rfl, rfl, rfl, rfl⟩

theorem index_codes : Codes [0xE8#8] .inx ∧ Codes [0xC8#8] .iny ∧ Codes [0xCA#8] .dex ∧ Codes [0x88#8] .dey :=
  ⟨codes_one rfl fun _ _ => rfl, codes_one rfl fun _ _ => rfl, codes_one rfl fun _ _ => rfl,
    codes_one rfl fun _ _ => rfl⟩

/-- The memory modes of a shift are those of INC and DEC. -/
def shiftModeOf : RmwMode → ShiftMode
  | .zp l => .zp l | .zpx l => .zpx l | .abs w => .abs w | .abx w => .abx w

theorem asl_codes : ShiftCodes .asl 0x0A#8 0x06#8 0x16#8 0x0E#8 0x1E#8 :=
  ⟨codes_one rfl fun _ _ => rfl, rmwCodes_of_decodeOpcode (mk := fun m => .asl (shiftModeOf m)) (by decide) (by decide)
    fun _ _ => ⟨rfl, rfl, rfl, rfl⟩⟩

theorem lsr_codes : ShiftCodes .lsr 0x4A#8 0x46#8 0x56#8 0x4E#8 0x5E#8 :=
  ⟨codes_one rfl fun _ _ => rfl, rmwCodes_of_decodeOpcode (mk := fun m => .lsr (shiftModeOf m)) (by decide) (by decide)
    fun _ _ => ⟨rfl, rfl, rfl, rfl⟩⟩

theorem rol_codes : ShiftCodes .rol 0x2A#8 0x26#8 0x36#8 0x2E#8 0x3E#8 :=
  ⟨codes_one rfl fun _ _ => rfl, rmwCodes_of_decodeOpcode (mk := fun m => .rol (shiftModeOf m)) (by decide) (by decide)
    fun _ _ => ⟨rfl, rfl, rfl, rfl⟩⟩

theorem ror_codes : ShiftCodes .ror 0x6A#8 0x66#8 0x76#8 0x6E#8 0x7E#8 :=
  ⟨codes_one rfl fun _ _ => rfl, rmwCodes_of_decodeOpcode (mk := fun m => .ror (shiftModeOf m)) (by decide) (by decide)
    fun _ _ => ⟨rfl, rfl, rfl, rfl⟩⟩

/-! ### INX, INY, DEX and DEY -/

/-- An implied instruction that applies `f` to X with N and Z of the result. -/
theorem impliedForm_mapX {i : Instr} {s : State} {n c : Nat} (f : Byte → Byte) (hn : i.info.advance = n)
    (hc : (if crossedOf i.operand s then i.info.pagecycles else 0) + i.info.cycles = c) :
    ∃ t, impliedForm i (fun u => (u.setX (f u.x)).setNZ (f u.x)) s = .next t ∧ t.x = f s.x ∧ NZOf (f s.x) [] s t ∧
      t.a = s.a ∧ t.y = s.y ∧ t.sp = s.sp ∧ RestSame s t ∧ Moved n c s t := by
  obtain ⟨hnext, hnz, hrest, hmoved⟩ := impliedForm_nz (src := fun u => f u.x) (dst := fun v u => u.setX v) hn hc
    (congrArg f (start_st_x ..)) (fun v u => settled_of u u.a v u.y u.sp _) fun _ _ => rfl
  exact ⟨_, hnext, rfl, hnz, start_st_a .., start_st_y .., start_st_sp .., hrest, hmoved⟩

/-- An implied instruction that applies `f` to Y with N and Z of the result. -/
theorem impliedForm_mapY {i : Instr} {s : State} {n c : Nat} (f : Byte → Byte) (hn : i.info.advance = n)
    (hc : (if crossedOf i.operand s then i.info.pagecycles else 0) + i.info.cycles = c) :
    ∃ t, impliedForm i (fun u => (u.setY (f u.y)).setNZ (f u.y)) s = .next t ∧ t.y = f s.y ∧ NZOf (f s.y) [] s t ∧
      t.a = s.a ∧ t.x = s.x ∧ t.sp = s.sp ∧ RestSame s t ∧ Moved n c s t := by
  obtain ⟨hnext, hnz, hrest, hmoved⟩ := impliedForm_nz (src := fun u => f u.y) (dst := fun v u => u.setY v) hn hc
    (congrArg f (start_st_y ..)) (fun v u => settled_of u u.a u.x v u.sp _) fun _ _ => rfl
  exact ⟨_, hnext, rfl, hnz, start_st_a .., start_st_x .., start_st_sp .., hrest, hmoved⟩

/-- Settles O47: the encodings, and the two index registers with two functions each. -/
theorem indexIncrement : Obligations.IndexIncrement :=
  ⟨index_codes, fun _ =>
    ⟨impliedForm_mapX (i := .inx) (· + 1#8) rfl (ite_cost_const rfl rfl),
      impliedForm_mapY (i := .iny) (· + 1#8) rfl (ite_cost_const rfl rfl),
      impliedForm_mapX (i := .dex) (· - 1#8) rfl (ite_cost_const rfl rfl),
      impliedForm_mapY (i := .dey) (· - 1#8) rfl (ite_cost_const rfl rfl)⟩⟩

/-! ### The memory forms: one read and one write -/

/-- The instructions that read and write the byte at their effective address (R240): INC, DEC and the memory forms
of the shifts. -/
def modifiesMemory (i : Instr) : Bool :=
  match i with
  | .inc _ | .dec _ => true
  | .asl m | .lsr m | .rol m | .ror m => decide (m ≠ .acc)
  | _ => false

/-- For each of them the ROM's length and cycles are those of the mode tables, whether or not a page is crossed (R101,
R240, R414). -/
theorem rom_of_modifiesMemory {i : Instr} (hi : modifiesMemory i = true) (s : State) :
    i.info.advance = formLength i.operand ∧
    (if crossedOf i.operand s then i.info.pagecycles else 0) + i.info.cycles = rmwCost i.operand := by
  cases i with
  | inc m | dec m => cases m <;> exact ⟨rfl, ite_cost_const rfl rfl⟩
  | asl m | lsr m | rol m | ror m =>
    cases m with
    | acc => cases hi
    | zp _ | zpx _ | abs _ | abx _ => exact ⟨rfl, ite_cost_const rfl rfl⟩
  | _ => cases hi

/-- Their operand M is not A: it is read at the effective address. -/
theorem operand_of_modifiesMemory {i : Instr} (hi : modifiesMemory i = true) (s : State) :
    i.operand ≠ .acc ∧ readM i s = memRead (start i s).ea (start i s).st := by
  cases i with
  | inc m | dec m => cases m <;> exact ⟨nofun, rfl⟩
  | asl m | lsr m | rol m | ror m =>
    cases m with
    | acc => cases hi
    | zp _ | zpx _ | abs _ | abx _ => exact ⟨nofun, rfl⟩
  | _ => cases hi

section
variable {i : Instr} (hi : modifiesMemory i = true) {s : State} (hs : MemoryOk s)
include hi

/-- The RMW form by the operand value: M's image is written back, with N and Z of it. -/
theorem rmwForm_eq (f : Byte → Byte) :
    rmwForm i f s = .next ((memWrite (eaOf i.operand s) (f (operandM i.operand s)) (readM i s).2).setP
      (nzFlags (f (operandM i.operand s)) s.p)) := by
  have hp : (memWrite (eaOf i.operand s) (f (readM i s).1) (readM i s).2).p = s.p := by simp
  obtain ⟨-, hread⟩ := operand_of_modifiesMemory hi s
  rw [← readM_fst, ← hp, hread]
  rfl

/-- The memory form of a shift by the operand value and the carry in. -/
theorem shiftForm_eq (f : Byte → Bool → Byte × Bool) :
    shiftForm i f s =
      let r := f (operandM i.operand s) (s.flag .c)
      .next ((memWrite (eaOf i.operand s) r.1 (readM i s).2).setP (shiftFlags r.1 r.2 s.p)) := by
  obtain ⟨hacc, -⟩ := operand_of_modifiesMemory hi s
  have hform : shiftForm i f s =
      let r := f (readM i s).1 ((readM i s).2.flag .c)
      .next ((memWrite (eaOf i.operand s) r.1 (readM i s).2).setP
        (shiftFlags r.1 r.2 (memWrite (eaOf i.operand s) r.1 (readM i s).2).p)) := by
    simp only [shiftForm, if_neg hacc]
    rfl
  rw [hform]
  simp [readM_fst]

include hs

/-- Writing `r` back to the effective address, and P, is their whole effect. -/
theorem modifiesMemory_next (r p : Byte) :
    let t := (memWrite (eaOf i.operand s) r (readM i s).2).setP p
    Stored (eaOf i.operand s) r s t ∧ SameAXY s t ∧ t.sp = s.sp ∧ SameControls s t ∧ t.lastBranch = s.lastBranch ∧
      Moved (formLength i.operand) (rmwCost i.operand) s t := by
  obtain ⟨hlength, hcost⟩ := rom_of_modifiesMemory hi s
  obtain ⟨-, hread⟩ := operand_of_modifiesMemory hi s
  exact rmw_next hs hlength hcost (by rw [hread]; rfl)

/-- The RMW form of INC and DEC: one write of M's image, N and Z. -/
theorem rmwForm_next (f : Byte → Byte) :
    let r := f (operandM i.operand s)
    ∃ t, rmwForm i f s = .next t ∧ Stored (eaOf i.operand s) r s t ∧ NZOf r [] s t ∧ SameAXY s t ∧ t.sp = s.sp ∧
      SameControls s t ∧ t.lastBranch = s.lastBranch ∧ Moved (formLength i.operand) (rmwCost i.operand) s t := by
  intro r
  obtain ⟨hstored, hframe⟩ := modifiesMemory_next hi hs r (nzFlags r s.p)
  exact ⟨_, rmwForm_eq hi f, hstored, nzOf_of_nzFlags rfl fun _ _ => rfl, hframe⟩

end

/-- Settles O46: the encodings, and the two instructions as one shape with two functions. -/
theorem memoryIncrement : Obligations.MemoryIncrement :=
  ⟨inc_codes, dec_codes, fun m _ hs => ⟨rmwForm_next (i := .inc m) rfl hs (· + 1#8),
    rmwForm_next (i := .dec m) rfl hs (· - 1#8)⟩⟩

/-! ### ASL, LSR, ROL and ROR -/

/-- C, N and Z after a shift, and the flags it keeps (R240). -/
theorem carry_nzOf_of_shiftFlags {s t : State} {r : Byte} {c : Bool} (hp : t.p = shiftFlags r c s.p) :
    t.flag .c = c ∧ NZOf r [.c] s t := by
  refine ⟨by rw [State.flag_eq, hp, getFlag_shiftFlags]; rfl, nzOf_of_nzFlags hp fun f hf => ?_⟩
  rw [getFlag_setFlag, if_neg (by simpa using hf), State.flag_eq]

/-- The memory form of a shift: one write of the result, C, N and Z. -/
theorem shiftForm_next {i : Instr} (hi : modifiesMemory i = true) {s : State} (hs : MemoryOk s)
    (f : Byte → Bool → Byte × Bool) :
    let r := f (operandM i.operand s) (s.flag .c)
    ∃ t, shiftForm i f s = .next t ∧ Stored (eaOf i.operand s) r.1 s t ∧ t.flag .c = r.2 ∧ NZOf r.1 [.c] s t ∧
      SameAXY s t ∧ t.sp = s.sp ∧ SameControls s t ∧ t.lastBranch = s.lastBranch ∧
      Moved (formLength i.operand) (rmwCost i.operand) s t := by
  intro r
  obtain ⟨hstored, hframe⟩ := modifiesMemory_next hi hs r.1 (shiftFlags r.1 r.2 s.p)
  obtain ⟨hcarry, hnz⟩ := carry_nzOf_of_shiftFlags (s := s)
    (t := (memWrite (eaOf i.operand s) r.1 (readM i s).2).setP (shiftFlags r.1 r.2 s.p)) rfl
  exact ⟨_, shiftForm_eq hi f, hstored, hcarry, hnz, hframe⟩

/-- The Accumulator form of a shift is an implied instruction that puts the result into A. -/
theorem shiftForm_acc_next {i : Instr} (hop : i.operand = .acc) {s : State} {n c : Nat} (hn : i.info.advance = n)
    (hc : (if crossedOf i.operand s then i.info.pagecycles else 0) + i.info.cycles = c)
    (f : Byte → Bool → Byte × Bool) :
    let r := f s.a (s.flag .c)
    ∃ t, shiftForm i f s = .next t ∧ t.a = r.1 ∧ t.flag .c = r.2 ∧ NZOf r.1 [.c] s t ∧ t.x = s.x ∧ t.y = s.y ∧
      t.sp = s.sp ∧ RestSame s t ∧ Moved n c s t := by
  intro r
  obtain ⟨hnext, hrest, hmoved⟩ := impliedForm_next
    (f := fun u => (u.setA r.1).setP (shiftFlags r.1 r.2 u.p)) hn hc fun u => settled_of u r.1 u.x u.y u.sp _
  obtain ⟨hcarry, hnz⟩ := carry_nzOf_of_shiftFlags (s := s)
    (t := ((start i s).st.setA r.1).setP (shiftFlags r.1 r.2 (start i s).st.p)) (r := r.1) (c := r.2) (by simp)
  have hform : shiftForm i f s = impliedForm i (fun u => (u.setA r.1).setP (shiftFlags r.1 r.2 u.p)) s := by
    simp only [shiftForm, hop, if_true, operandValue, start_st_a, start_st_flag]
    rfl
  exact ⟨_, hform.trans hnext, rfl, hcarry, hnz, start_st_x .., start_st_y .., start_st_sp .., hrest, hmoved⟩

/-- N is the result's bit 7 (R155). -/
theorem NZOf.flag_n {v : Byte} {fs : List Flag} {s t : State} (h : NZOf v fs s t) : t.flag .n = v.getLsbD 7 := by
  obtain ⟨-, hn, -⟩ := h
  exact hn

/-- The carry into ROR enters at bit 7. -/
theorem rorOut_eq (v : Byte) (c : Bool) :
    rorOut v c = ((v >>> 1) ||| (if c then 0x80#8 else 0x00#8), v.getLsbD 0) := by
  cases c <;> rfl

/-- LSR clears bit 7. -/
theorem getLsbD_seven_shiftRight_one (v : Byte) : (v >>> 1).getLsbD 7 = false := by simp

/-- ROR moves the carry into bit 7. -/
theorem getLsbD_seven_rotateRight (v : Byte) (c : Bool) :
    ((v >>> 1) ||| (if c then 0x80#8 else 0x00#8)).getLsbD 7 = c := by
  cases c <;> simp

/-- Settles O48: the encodings, and in either form the four instructions as one shape with four functions. -/
theorem shiftInstructions : Obligations.ShiftInstructions := by
  refine ⟨asl_codes, lsr_codes, rol_codes, ror_codes, fun s => ⟨?_, ?_, ?_, ?_⟩, fun m s hs hm => ⟨?_, ?_, ?_, ?_⟩⟩
  · exact shiftForm_acc_next (i := .asl .acc) rfl rfl (ite_cost_const rfl rfl) aslOut
  · obtain ⟨t, hnext, ha, hc, hnz, hframe⟩ :=
      shiftForm_acc_next (i := .lsr .acc) rfl (s := s) rfl (ite_cost_const rfl rfl) lsrOut
    exact ⟨t, hnext, ha, hc, hnz.flag_n.trans (getLsbD_seven_shiftRight_one _), hnz, hframe⟩
  · obtain ⟨t, hnext, ha, hc, hnz, hframe⟩ :=
      shiftForm_acc_next (i := .rol .acc) rfl (s := s) rfl (ite_cost_const rfl rfl) rolOut
    exact ⟨t, hnext, ha, hc, ha ▸ hnz, hframe⟩
  · obtain ⟨t, hnext, ha, hc, hnz, hframe⟩ :=
      shiftForm_acc_next (i := .ror .acc) rfl (s := s) rfl (ite_cost_const rfl rfl) rorOut
    rw [rorOut_eq] at ha hc hnz
    exact ⟨t, hnext, ha, hc, hnz.flag_n.trans (getLsbD_seven_rotateRight ..), ha ▸ hnz, hframe⟩
  · exact shiftForm_next (i := .asl m) (decide_eq_true hm) hs aslOut
  · obtain ⟨t, hnext, hstored, hc, hnz, hframe⟩ := shiftForm_next (i := .lsr m) (decide_eq_true hm) hs lsrOut
    exact ⟨t, hnext, hstored, hc, hnz.flag_n.trans (getLsbD_seven_shiftRight_one _), hnz, hframe⟩
  · exact shiftForm_next (i := .rol m) (decide_eq_true hm) hs rolOut
  · have hror := shiftForm_next (i := .ror m) (decide_eq_true hm) hs rorOut
    rwa [rorOut_eq] at hror

end Sys2Proof.Machine
end

section
/-! The eight conditional branches (R260 to R269): encodings, and one lemma for all of them over the shared shape. -/

namespace Sys2Proof.Machine

theorem branch_codes (d : Byte) :
    Codes [0x90#8, d] (.bcc d) ∧ Codes [0xB0#8, d] (.bcs d) ∧ Codes [0xF0#8, d] (.beq d) ∧ Codes [0x30#8, d] (.bmi d) ∧
    Codes [0xD0#8, d] (.bne d) ∧ Codes [0x10#8, d] (.bpl d) ∧ Codes [0x50#8, d] (.bvc d) ∧
    Codes [0x70#8, d] (.bvs d) :=
  ⟨codes_two rfl fun _ => rfl, codes_two rfl fun _ => rfl, codes_two rfl fun _ => rfl, codes_two rfl fun _ => rfl,
    codes_two rfl fun _ => rfl, codes_two rfl fun _ => rfl, codes_two rfl fun _ => rfl, codes_two rfl fun _ => rfl⟩

/-- S4 and S5 change no register but PC. -/
theorem start_regs (i : Instr) (s : State) : SameRegs s (start i s).st :=
  ⟨start_st_a .., start_st_x .., start_st_y .., start_st_sp .., start_st_p ..⟩

theorem start_rest (i : Instr) (s : State) : RestSame s (start i s).st :=
  restSame_of (start_world i s) (start_controls i s) (start_st_lastBranch i s)

/-- A branch is two bytes long and costs two cycles until it is taken (R101, R269). -/
theorem start_moved_of_branch {i : Instr} {d : Byte} (hi : i.operand = .rel d) (s : State) :
    Moved 2 2 s (start i s).st := by
  have hcrossed : crossedOf i.operand s = false := by rw [hi]; rfl
  cases i with
  | bcc _ | bcs _ | beq _ | bmi _ | bne _ | bpl _ | bvc _ | bvs _ => exact start_moved rfl (by rw [hcrossed]; rfl)
  | lda m | ldx m | ldy m | sta m | stx m | sty m | adc m | sbc m | and m | ora m | eor m | bit m | cmp m | cpx m
  | cpy m | inc m | dec m | asl m | lsr m | rol m | ror m | jmp m => cases m <;> cases hi
  | _ => cases hi

/-- The two cycles and those of taking the branch (R147, R269). -/
theorem two_add_takenCycles (next target : Word) :
    2#64 + cyc (takenCycles next target) = if hi next = hi target then 3#64 else 4#64 := by
  rw [takenCycles, ite_not]
  split <;> rfl

/-- A branch with its own condition, not taken or taken without the watchdog's abort. -/
theorem branchCompletes_of_rel {i : Instr} {d : Byte} (hi : i.operand = .rel d) (s : State) :
    BranchCompletes i d (branchTaken i s) s := by
  unfold BranchCompletes
  intro next target
  have hea : eaOf i.operand s = target := by rw [hi]; exact eaOf_rel d s
  obtain ⟨hpc, hcycles⟩ := start_moved_of_branch hi s
  obtain ⟨hstorage, -⟩ := start_rest i s
  rw [exec_of_branch hi]
  refine ⟨fun hcond => ?_, fun hcond hw => ?_⟩
  · rw [branchForm_untaken ((branchTaken_start i i s).trans hcond)]
    exact ⟨_, rfl, ⟨hpc, hcycles⟩, start_regs i s, hstorage, rfl⟩
  · rw [← hea] at hw
    rw [branchForm_taken ((branchTaken_start i i s).trans hcond) hw, hea]
    refine ⟨_, rfl, rfl, ?_, start_regs i s, hstorage, rfl⟩
    calc (start i s).st.cycles + cyc (takenCycles (start i s).st.pc target)
        = s.cycles + (2#64 + cyc (takenCycles next target)) := by rw [hpc, hcycles, BitVec.add_assoc]
      _ = _ := by rw [two_add_takenCycles]

/-- Settles O49: the encodings, and the eight branches as one shape with eight conditions. -/
theorem conditionalBranches : Obligations.ConditionalBranches := fun d s =>
  ⟨branch_codes d, branchCompletes_of_rel rfl s, branchCompletes_of_rel rfl s, branchCompletes_of_rel rfl s,
    branchCompletes_of_rel rfl s, branchCompletes_of_rel rfl s, branchCompletes_of_rel rfl s,
    branchCompletes_of_rel rfl s, branchCompletes_of_rel rfl s⟩

end Sys2Proof.Machine
end

section
/-! The watchdog (R270): its abort, and who writes `last_branch`. -/

namespace Sys2Proof.Machine

/-- The second consecutive taken branch to itself aborts. -/
theorem exec_selfLoop {i : Instr} {d : Byte} {s : State} (hi : i.operand = .rel d)
    (habort : s.params.selfLoopAbort = true) (htaken : branchTaken i s = true) (hea : eaOf i.operand s = s.pc)
    (hlast : s.lastBranch = some (s.pc, s.pc)) : exec i s = .fault (.selfLoop s.pc) := by
  rw [exec_of_branch hi]
  exact branchForm_abort ((branchTaken_start i i s).trans htaken) habort hea hlast

/-- Without `SELF_LOOP_ABORT` every instruction completes, and none writes `last_branch`. -/
theorem exec_lastBranch_of_no_watchdog (i : Instr) {s : State} (h : s.params.selfLoopAbort = false) :
    ∃ t, exec i s = .next t ∧ t.lastBranch = s.lastBranch := by
  obtain ⟨t, ht⟩ | ⟨-, habort, -⟩ := exec_cases i s
  · obtain ⟨-, -, -, hlast⟩ := exec_effect ht
    exact ⟨t, ht, hlast h⟩
  · rw [h] at habort
    cases habort

/-! The stack operations write SP, work RAM, P and PC. -/

@[simp] theorem push_lastBranch (v : Byte) (s : State) : (push v s).lastBranch = s.lastBranch := by rw [push_eq]

@[simp] theorem push16_lastBranch (w : Word) (s : State) : (push16 w s).lastBranch = s.lastBranch := by
  rw [push16_eq]

@[simp] theorem pull_snd_lastBranch (s : State) : (pull s).2.lastBranch = s.lastBranch := by rw [pull_eq]

@[simp] theorem pull16_snd_lastBranch (s : State) : (pull16 s).2.lastBranch = s.lastBranch := by rw [pull16_eq]

theorem takeInterrupt_irqVector_lastBranch (b : Bool) (s : State) :
    (takeInterrupt irqVector b s).lastBranch = s.lastBranch := by
  rw [takeInterrupt_eq _ (.inr rfl)]

@[simp] theorem returnFromInterrupt_lastBranch (s : State) : (returnFromInterrupt s).lastBranch = s.lastBranch := by
  rw [returnFromInterrupt_eq]

/-- An instruction that is no branch completes and does not write `last_branch`, by its shape. -/
theorem exec_lastBranch_of_not_branch {i : Instr} (hi : ∀ d, i.operand ≠ .rel d) (s : State) :
    ∃ t, exec i s = .next t ∧ t.lastBranch = s.lastBranch := by
  have hstart := start_st_lastBranch i s
  cases i with
  | bcc d | bcs d | beq d | bmi d | bne d | bpl d | bvc d | bvs d => exact absurd rfl (hi d)
  | lda _ | ldx _ | ldy _ | and _ | ora _ | eor _ | adc _ | sbc _ | bit _ | cmp _ | cpx _ | cpy _ =>
    exact ⟨_, rfl, readM_snd_lastBranch _ s⟩
  | sta _ | stx _ | sty _ | inc _ | dec _ => exact ⟨_, rfl, (memWrite_lastBranch ..).trans hstart⟩
  | asl _ | lsr _ | rol _ | ror _ =>
    refine ⟨_, rfl, ?_⟩
    dsimp only
    split <;> rw [operandValue_snd]
    · exact hstart
    · exact (memWrite_lastBranch ..).trans hstart
  | tax | tay | txa | tya | tsx | txs | inx | iny | dex | dey | clc | cld | cli | clv | sec | sed | sei | nop
  | jmp _ => exact ⟨_, rfl, hstart⟩
  | pha | php => exact ⟨_, rfl, (push_lastBranch ..).trans hstart⟩
  | pla | plp => exact ⟨_, rfl, (pull_snd_lastBranch _).trans hstart⟩
  | jsr _ => exact ⟨_, rfl, (push16_lastBranch ..).trans hstart⟩
  | rts => exact ⟨_, rfl, (pull16_snd_lastBranch _).trans hstart⟩
  | brk => exact ⟨_, rfl, (takeInterrupt_irqVector_lastBranch ..).trans hstart⟩
  | rti => exact ⟨_, rfl, (returnFromInterrupt_lastBranch _).trans hstart⟩
  | illegal _ => exact ⟨_, rfl, rfl⟩

/-- Settles O50: the abort, the two cases in which nothing is written, and Reset. -/
theorem selfLoopWatchdog : Obligations.SelfLoopWatchdog := fun i s =>
  ⟨fun ⟨_, hi⟩ => exec_selfLoop hi, exec_lastBranch_of_no_watchdog i, fun hi => exec_lastBranch_of_not_branch hi s,
    by rw [hostReset_eq]⟩

end Sys2Proof.Machine
end

section
/-! JMP, RTS and RTI (R271, R273, R275), JSR (R272), and BRK (R274): PC loaded after S5, with nothing, pulls or pushes
before it. -/

namespace Sys2Proof.Machine

/-! ### Jumps without a push -/

/-- Loading SP, P and PC after S5 leaves all else as S4 and S5 do. -/
theorem start_transfer {i : Instr} {s : State} {c : Nat}
    (hc : (if crossedOf i.operand s then i.info.pagecycles else 0) + i.info.cycles = c) (sp p : Byte) (pc : Word) :
    let t := { (start i s).st with sp := sp, p := p, pc := pc }
    t.cycles = s.cycles + BitVec.ofNat 64 c ∧ SameAXY s t ∧ RestSame s t := by
  obtain ⟨-, hcycles⟩ := start_moved (i := i) rfl hc
  exact ⟨hcycles, ⟨start_st_a .., start_st_x .., start_st_y ..⟩, start_rest i s⟩

theorem jmp_codes (l h : Byte) :
    Codes [0x4C#8, l, h] (.jmp (.abs (mkWord h l))) ∧ Codes [0x6C#8, l, h] (.jmp (.ind (mkWord h l))) :=
  ⟨codes_three rfl rfl, codes_three rfl rfl⟩

/-- The cycles of JMP (R271). -/
def jmpCost : JmpMode → Nat
  | .abs _ => 3
  | .ind _ => 5

/-- JMP goes to its effective address (R271). -/
theorem exec_jmp (m : JmpMode) (s : State) : ∃ t, exec (.jmp m) s = .next t ∧ t.pc = eaOf m.operand s ∧
    t.cycles = s.cycles + BitVec.ofNat 64 (jmpCost m) ∧ SameRegs s t ∧ RestSame s t := by
  have hcost : (if crossedOf (Instr.jmp m).operand s then (Instr.jmp m).info.pagecycles else 0) +
      (Instr.jmp m).info.cycles = jmpCost m := by
    cases m <;> exact ite_cost_const rfl rfl
  obtain ⟨hcycles, -, hrest⟩ := start_transfer hcost (start (.jmp m) s).st.sp (start (.jmp m) s).st.p (eaOf m.operand s)
  exact ⟨_, rfl, rfl, hcycles, start_regs (.jmp m) s, hrest⟩

/-- The high byte of a pointer at a page's end comes from the page's first address (R108). -/
theorem exec_jmp_ind_page_end {s : State} (hlo : s.peek 0x10FF#16 = 0x12#8) (hhi : s.peek 0x1000#16 = 0x34#8) :
    ∃ t, exec (.jmp (.ind 0x10FF#16)) s = .next t ∧ t.pc = 0x3412#16 := by
  obtain ⟨t, hnext, hpc, -⟩ := exec_jmp (.ind 0x10FF#16) s
  refine ⟨t, hnext, ?_⟩
  calc t.pc = mkWord ((s.touch 0x10FF#16).peek 0x1000#16) (s.peek 0x10FF#16) := hpc
    _ = 0x3412#16 := by rw [touch_of_not_isExternal s (by decide), hlo, hhi]; rfl

/-- Settles O51: the encodings, the two forms, and the pointer at the end of a page. -/
theorem jumpInstruction : Obligations.JumpInstruction :=
  ⟨jmp_codes, fun w s => ⟨exec_jmp (.abs w) s, exec_jmp (.ind w) s⟩, fun _ => exec_jmp_ind_page_end⟩

/-! ### JSR and RTS -/

theorem jsr_codes (l h : Byte) : Codes [0x20#8, l, h] (.jsr (mkWord h l)) := codes_three rfl rfl

theorem exec_jsr (w : Word) {s : State} (hs : MemoryOk s) : ∃ t, exec (.jsr w) s = .next t ∧
    Pushed [hi (s.pc + 2#16), lo (s.pc + 2#16)] s t ∧ t.pc = w ∧ t.cycles = s.cycles + 6#64 ∧ SameAXY s t ∧
    t.p = s.p := by
  obtain ⟨hpc, hcycles⟩ := start_moved (i := .jsr w) (s := s) (n := 3) (c := 6) rfl (ite_cost_const rfl rfl)
  have hreturn : (start (.jsr w) s).st.pc - 1#16 = s.pc + 2#16 := by rw [hpc]; bv_omega
  obtain ⟨hpushed, ⟨ha, hx, hy⟩, hp, hc⟩ :=
    push16_pushed hs (start_agrees (.jsr w) s) ((start (.jsr w) s).st.pc - 1#16) w
  exact ⟨_, rfl, by rw [← hreturn]; exact hpushed, rfl, hc.trans hcycles,
    ⟨ha.trans (start_st_a ..), hx.trans (start_st_x ..), hy.trans (start_st_y ..)⟩, hp.trans (start_st_p ..)⟩

theorem exec_rts (s : State) : ∃ t, exec .rts s = .next t ∧ t.pc = mkWord (stackByte s 2) (stackByte s 1) + 1#16 ∧
    t.sp = s.sp + 2#8 ∧ t.cycles = s.cycles + 6#64 ∧ SameAXY s t ∧ t.p = s.p ∧ RestSame s t := by
  obtain ⟨hcycles, haxy, hrest⟩ := start_transfer (i := .rts) (s := s) (c := 6) (ite_cost_const rfl rfl) (s.sp + 2#8)
    (start .rts s).st.p (mkWord (stackByte s 2) (stackByte s 1) + 1#16)
  refine ⟨_, ?_, rfl, rfl, hcycles, haxy, start_st_p .., hrest⟩
  simp only [exec, execRts, impliedForm, pull16_eq_stackByte, stackByte_start_st, start_st_sp, State.setPC]

/-- Settles O52: the encodings, the push and the jump, and the pull one past the pushed address. -/
theorem subroutineInstructions : Obligations.SubroutineInstructions :=
  ⟨jsr_codes, codes_one rfl fun _ _ => rfl, fun w _ hs => exec_jsr w hs, exec_rts⟩

/-- Settles O53: RTS pulls the two bytes that JSR pushed. -/
theorem callThenReturn : Obligations.CallThenReturn := by
  intro w s hs
  obtain ⟨t, hjsr, hpushed, -, hcycles, ⟨ha, hx, hy⟩, hp⟩ := exec_jsr w hs
  obtain ⟨u, hrts, hpc', hsp', hcycles', ⟨ha', hx', hy'⟩, hp', -⟩ := exec_rts t
  have hhi : stackByte t 2 = hi (s.pc + 2#16) := hpushed.stackByte_eq (j := 0) (by simp)
  have hlo : stackByte t 1 = lo (s.pc + 2#16) := hpushed.stackByte_eq (j := 1) (by simp)
  obtain ⟨hsp, -⟩ := hpushed
  refine ⟨t, u, hjsr, hrts, ?_, ?_, ⟨ha'.trans ha, hx'.trans hx, hy'.trans hy⟩, hp'.trans hp, ?_⟩
  · rw [hpc', hhi, hlo, mkWord_hi_lo, BitVec.add_assoc]; rfl
  · rw [hsp', hsp]; exact BitVec.sub_add_cancel ..
  · rw [hcycles', hcycles, BitVec.add_assoc]; rfl

/-! ### BRK and RTI -/

/-- Settles O54: the interrupt sequence after S5, when PC is past the padding byte. -/
theorem softwareInterrupt : Obligations.SoftwareInterrupt := by
  refine ⟨fun pad => codes_two rfl fun _ => rfl, fun s hs => ?_⟩
  obtain ⟨hpc, hcycles⟩ := start_moved (i := .brk) (s := s) (n := 2) (c := 7) rfl (ite_cost_const rfl rfl)
  obtain ⟨hpushed, hp, hvector, hc, ha, hx, hy⟩ := takeInterrupt_pushed hs (start_agrees .brk s) (.inr rfl) true
  rw [hpc, start_st_p, pushedFlags_true] at hpushed
  obtain ⟨hset, hother⟩ := flagsSameBut_setFlag .i true (hp.trans (by rw [start_st_p]))
  exact ⟨_, rfl, hpushed, hset, hother, hvector, hc.trans hcycles,
    ha.trans (start_st_a ..), hx.trans (start_st_x ..), hy.trans (start_st_y ..)⟩

/-- The return from interrupt in the bytes above the stack pointer (R275). -/
theorem returnFromInterrupt_eq_stackByte (s : State) :
    returnFromInterrupt s =
      { s with
        p := pulledFlags (stackByte s 1), sp := s.sp + 3#8, pc := mkWord (stackByte s 3) (stackByte s 2) } := by
  rw [returnFromInterrupt_eq, stackByte_eq, stackByte_eq, stackByte_eq]

/-- Settles O55: the encoding, and the three pulls. (The bare name is the operation that RTI runs.) -/
theorem returnFromInterruptInstruction : Obligations.ReturnFromInterrupt := by
  refine ⟨codes_one rfl fun _ _ => rfl, fun s => ?_⟩
  obtain ⟨hcycles, haxy, hrest⟩ := start_transfer (i := .rti) (s := s) (c := 6) (ite_cost_const rfl rfl) (s.sp + 3#8)
    (pulledFlags (stackByte s 1)) (mkWord (stackByte s 3) (stackByte s 2))
  refine ⟨_, ?_, rfl, rfl, rfl, hcycles, haxy, hrest⟩
  simp only [exec, execRti, impliedForm, returnFromInterrupt_eq_stackByte, stackByte_start_st, start_st_sp]

end Sys2Proof.Machine
end

section
/-! The flag instructions and NOP (R291 to R298): the encodings, and one lemma for the seven over the flag and its new
value. -/

namespace Sys2Proof.Machine

theorem clear_codes : Codes [0x18#8] .clc ∧ Codes [0xD8#8] .cld ∧ Codes [0x58#8] .cli ∧ Codes [0xB8#8] .clv :=
  ⟨codes_one rfl fun _ _ => rfl, codes_one rfl fun _ _ => rfl, codes_one rfl fun _ _ => rfl,
    codes_one rfl fun _ _ => rfl⟩

theorem set_nop_codes : Codes [0x38#8] .sec ∧ Codes [0xF8#8] .sed ∧ Codes [0x78#8] .sei ∧ Codes [0xEA#8] .nop :=
  ⟨codes_one rfl fun _ _ => rfl, codes_one rfl fun _ _ => rfl, codes_one rfl fun _ _ => rfl,
    codes_one rfl fun _ _ => rfl⟩

/-- An instruction that writes one flag leaves everything else alone and moves on by its length and cost. -/
theorem impliedForm_setF {i : Instr} (f : Flag) (v : Bool) {s : State} {n c : Nat} (hn : i.info.advance = n)
    (hc : (if crossedOf i.operand s then i.info.pagecycles else 0) + i.info.cycles = c) :
    ∃ t, impliedForm i (fun u => u.setF f v) s = .next t ∧ t.flag f = v ∧ FlagsSameBut [f] s t ∧ SameAXY s t ∧
      t.sp = s.sp ∧ RestSame s t ∧ Moved n c s t := by
  obtain ⟨hnext, hrest, hmoved⟩ := impliedForm_next (f := fun u => u.setF f v) hn hc
    fun u => settled_of u u.a u.x u.y u.sp (setFlag f v u.p)
  obtain ⟨hset, hother⟩ :=
    flagsSameBut_setFlag f v (s := s) (t := (start i s).st.setF f v) (by rw [State.setF_p, start_st_p])
  exact ⟨_, hnext, hset, hother, ⟨start_st_a .., start_st_x .., start_st_y ..⟩, start_st_sp .., hrest, hmoved⟩

/-- Settles O56: the encodings, the seven instructions by the flag and value of each, and NOP as S4 and S5 alone. -/
theorem flagInstructions : Obligations.FlagInstructions := by
  obtain ⟨hclc, hcld, hcli, hclv⟩ := clear_codes
  refine ⟨⟨hclc, hcld, hcli, hclv, set_nop_codes⟩, fun s => ⟨fun i f v hmem => ?_, ?_⟩⟩
  · simp only [List.mem_cons, Prod.mk.injEq, List.not_mem_nil, or_false] at hmem
    obtain ⟨rfl, rfl, rfl⟩ | ⟨rfl, rfl, rfl⟩ | ⟨rfl, rfl, rfl⟩ | ⟨rfl, rfl, rfl⟩ | ⟨rfl, rfl, rfl⟩ |
      ⟨rfl, rfl, rfl⟩ | ⟨rfl, rfl, rfl⟩ := hmem <;>
    exact impliedForm_setF _ _ rfl (ite_cost_const rfl rfl)
  · exact ⟨_, rfl, start_regs .nop s, start_rest .nop s, start_moved rfl (ite_cost_const rfl rfl)⟩

end Sys2Proof.Machine
end

section
/-! An illegal opcode (R300): one event, PC and the cycle counter. -/

namespace Sys2Proof.Machine

/-- An event recorded on top of the earlier ones is the step's one new event. -/
theorem newEvents_of_cons {s t : State} {e : Event} (h : t.events = e :: s.events) : newEvents s t = [e] := by
  rw [newEvents, h, List.length_cons, Nat.add_sub_cancel_left]
  rfl

/-- A step whose one event is an illegal opcode raises that diagnostic. -/
theorem diagnosticOf_newEvents_of_cons {s t : State} {op : Byte} {addr : Word}
    (h : t.events = .illegalOpcode op addr :: s.events) : diagnosticOf (newEvents s t) = some (op, addr) := by
  rw [newEvents_of_cons h]
  rfl

/-- An illegal opcode writes PC, the cycle counter and the events, and nothing else. -/
theorem execIllegal_eq (op : Byte) (s : State) :
    execIllegal op s = .next { s with
      pc := s.pc + 1#16, cycles := s.cycles + cyc (Config.illegalCycles op),
      events := .illegalOpcode op s.pc :: s.events } := rfl

/-- Settles O57 from the written-out next state: what it does not name is unchanged. -/
theorem illegalOpcode : Obligations.IllegalOpcode := by
  intro op s _
  exact ⟨_, execIllegal_eq op s, rfl, rfl, rfl, diagnosticOf_newEvents_of_cons rfl, ⟨rfl, rfl, rfl, rfl, rfl⟩,
    ⟨fun _ _ => rfl, fun _ => rfl, fun _ => rfl, fun _ => rfl⟩, ⟨rfl, rfl, rfl, rfl, rfl⟩,
    ⟨rfl, rfl, rfl, rfl, rfl, rfl⟩, rfl, rfl⟩

end Sys2Proof.Machine
end

section
/-! Decoding and encoding are inverse to each other (R100, R101, R122, R124): the encoder's opcode and operand bytes lead
the decoder back to the instruction, and a decoded instruction has the opcode and the operand bytes it was read from. -/

namespace Sys2Proof.Machine

/-! ### The decoder on an encoding -/

open Laws in
/-- The ROM's length for an instruction's opcode is that of its encoding, and its mode has as many bytes as its operand. -/
theorem romFits : ∀ i, RomFits.Statement i
  | .lda m => RomFits.lda m | .ldx m => RomFits.ldx m | .ldy m => RomFits.ldy m | .sta m => RomFits.sta m
  | .stx m => RomFits.stx m | .sty m => RomFits.sty m | .tax => RomFits.tax | .tay => RomFits.tay
  | .txa => RomFits.txa | .tya => RomFits.tya | .tsx => RomFits.tsx | .txs => RomFits.txs | .pha => RomFits.pha
  | .php => RomFits.php | .pla => RomFits.pla | .plp => RomFits.plp | .adc m => RomFits.adc m
  | .sbc m => RomFits.sbc m | .and m => RomFits.and m | .ora m => RomFits.ora m | .eor m => RomFits.eor m
  | .bit m => RomFits.bit m | .cmp m => RomFits.cmp m | .cpx m => RomFits.cpx m | .cpy m => RomFits.cpy m
  | .inc m => RomFits.inc m | .dec m => RomFits.dec m | .inx => RomFits.inx | .iny => RomFits.iny
  | .dex => RomFits.dex | .dey => RomFits.dey | .asl m => RomFits.asl m | .lsr m => RomFits.lsr m
  | .rol m => RomFits.rol m | .ror m => RomFits.ror m | .bcc d => RomFits.bcc d | .bcs d => RomFits.bcs d
  | .beq d => RomFits.beq d | .bmi d => RomFits.bmi d | .bne d => RomFits.bne d | .bpl d => RomFits.bpl d
  | .bvc d => RomFits.bvc d | .bvs d => RomFits.bvs d | .jmp m => RomFits.jmp m | .jsr w => RomFits.jsr w
  | .rts => RomFits.rts | .brk => RomFits.brk | .rti => RomFits.rti | .clc => RomFits.clc | .cld => RomFits.cld
  | .cli => RomFits.cli | .clv => RomFits.clv | .sec => RomFits.sec | .sed => RomFits.sed | .sei => RomFits.sei
  | .nop => RomFits.nop | .illegal op => RomFits.illegal op

/-- Byte `k` after the opcode, of an operand that has it. -/
def operandByte (o : Operand) (k : Nat) : Byte := o.bytes.getD k 0#8

/-- A form whose word is put together from its two bytes. -/
theorem eq_of_eq_mkWord {i : Instr} {f : Word → Instr} (w : Word) (h : i = f (mkWord (hi w) (lo w))) : i = f w := by
  rwa [mkWord_hi_lo] at h

/-- The opcode and the operand bytes of an instruction decode to it (R122). -/
theorem decodeOpcode_opcode {i : Instr} (hw : i.WellFormed) :
    decodeOpcode i.opcode (operandByte i.operand 0) (operandByte i.operand 1) = i := by
  cases i with
  | illegal op => exact decodeOpcode_of_isIllegal op _ _ ((illegal_bytes_agree op).symm.trans hw)
  | lda m | adc m | sbc m | and m | ora m | eor m | cmp m | sta m => cases m with
    | abs w | abx w | aby w => apply eq_of_eq_mkWord w; rfl
    | _ => rfl
  | ldx m => cases m with
    | abs w | aby w => apply eq_of_eq_mkWord w; rfl
    | _ => rfl
  | ldy m | inc m | dec m | asl m | lsr m | rol m | ror m => cases m with
    | abs w | abx w => apply eq_of_eq_mkWord w; rfl
    | _ => rfl
  | stx m | sty m | bit m | cpx m | cpy m => cases m with
    | abs w => apply eq_of_eq_mkWord w; rfl
    | _ => rfl
  | jmp m => cases m with
    | abs w | ind w => apply eq_of_eq_mkWord w; rfl
  | jsr w => apply eq_of_eq_mkWord w; rfl
  | _ => rfl

/-- Bytes of the opcode's length are decoded, and what follows them is left. -/
theorem decode_append {op : Byte} {bs : List Byte} (h : (op :: bs).length = (romEntry op).advance) (rest : List Byte) :
    decode (op :: bs ++ rest) =
      .ok (decodeOpcode op ((bs ++ rest).getD 0 0#8) ((bs ++ rest).getD 1 0#8), rest) := by
  have hlen : bs.length + 1 = (romEntry op).advance := h
  have hdrop : (bs ++ rest).drop ((romEntry op).advance - 1) = rest := List.drop_left' (by omega)
  rw [List.cons_append, decode, hdrop, if_neg (by rw [List.length_append]; omega)]

/-- Settles O1: the decoder reads the operand bytes of the encoding, and with the opcode they decode to `i`. -/
theorem decodeAfterEncode : Obligations.DecodeAfterEncode := by
  intro i rest hw
  obtain ⟨hlen, hbytes⟩ := romFits i hw
  rw [encode, decode_append hlen]
  have hread : ∀ k < operandBytes (romEntry i.opcode).mode, ∀ pad : List Byte,
      (i.operand.bytes ++ pad ++ rest).getD k 0#8 = operandByte i.operand k := fun k hk pad => by
    rw [List.append_assoc, List.getD_append _ _ _ _ (by omega), operandByte]
  rw [decodeOpcode_congr _ _ _ _ _ (hread 0 · _) (hread 1 · _), decodeOpcode_opcode hw]

/-! ### The encoder on what was decoded -/

/-- An instruction's opcode does not depend on its operand bytes. -/
theorem build_opcode (n : Mnemonic) (m : Mode) (l h : Byte) :
    (build n m l h).map (·.opcode) = (build n m 0#8 0#8).map (·.opcode) := by
  cases n with
  | lda | ldx | ldy | sta | stx | sty | adc | sbc | and | ora | eor | bit | cmp | cpx | cpy | inc | dec | asl | lsr
  | rol | ror | jmp => cases m <;> rfl
  | _ => rfl

theorem opcode_decodeOpcode (op l h : Byte) : (decodeOpcode op l h).opcode = op := by
  have hzero : ∀ op : Byte, (decodeOpcode op 0#8 0#8).opcode = op := by decide +kernel
  have hmap : ∀ l h, (decodeOpcode op l h).opcode =
      ((build (romEntry op).mnemonic (romEntry op).mode l h).map (·.opcode)).getD op := fun _ _ =>
    (Option.getD_map Instr.opcode (.illegal op) _).symm
  rw [hmap, build_opcode, ← hmap, hzero]

theorem wellFormed_of_ne_illegal {i : Instr} (h : ∀ op, i ≠ .illegal op) : i.WellFormed := by
  cases i with
  | illegal op => exact absurd rfl (h op)
  | _ => rfl

/-- Whatever byte is decoded, the instruction is one of the set (R123). -/
theorem decodeOpcode_wellFormed (op l h : Byte) : (decodeOpcode op l h).WellFormed := by
  by_cases hill : ∃ op', decodeOpcode op l h = .illegal op'
  · obtain ⟨op', hd⟩ := hill
    rw [hd]
    exact (illegal_bytes_agree op').trans (isIllegal_of_decodeOpcode hd)
  · exact wellFormed_of_ne_illegal (not_exists.mp hill)

theorem bytes_mkWord (h l : Byte) : [lo (mkWord h l), hi (mkWord h l)] = [l, h] := by rw [lo_mkWord, hi_mkWord]

/-- The operand bytes of an instruction are those it was built from, as many as its form has (R101). -/
theorem build_operand_bytes (n : Mnemonic) (m : Mode) (l h : Byte) :
    ∀ i ∈ build n m l h, i.operand.bytes = [l, h].take i.operand.bytes.length := by
  cases n with
  | lda | ldx | ldy | sta | stx | sty | adc | sbc | and | ora | eor | bit | cmp | cpx | cpy | inc | dec | asl | lsr
  | rol | ror | jmp => cases m with
    | absolute | absoluteX | absoluteY | indirect => rintro _ ⟨⟩ <;> exact bytes_mkWord h l
    | _ => rintro _ ⟨⟩ <;> rfl
  | jsr => rintro _ ⟨⟩; exact bytes_mkWord h l
  | _ => rintro _ ⟨⟩ <;> rfl

/-- The decoded instruction's operand bytes are those its opcode's mode reads. -/
theorem decodeOpcode_operand_bytes (op l h : Byte) :
    (decodeOpcode op l h).operand.bytes = [l, h].take (operandBytes (romEntry op).mode) := by
  rw [← decodeOpcode_operand_length op l h]
  unfold decodeOpcode
  cases hb : build (romEntry op).mnemonic (romEntry op).mode l h with
  | none => rfl
  | some i => exact build_operand_bytes _ _ _ _ i hb

/-- The first bytes of a list, read one by one, are its beginning. -/
theorem take_getD_eq_take {n : Nat} {bs : List Byte} (hn : n ≤ 2) (hlen : n ≤ bs.length) :
    [bs.getD 0 0#8, bs.getD 1 0#8].take n = bs.take n := by
  match n, bs, hn, hlen with
  | 0, _, _, _ => rfl
  | 1, _ :: _, _, _ => rfl
  | 2, _ :: _ :: _, _, _ => rfl

theorem encode_of_ne_brk {i : Instr} (h : i ≠ .brk) : encode i = i.opcode :: i.operand.bytes := by
  rw [encode, if_neg h, List.append_nil]

/-- What a successful decoding says of the bytes: they are long enough for the opcode, and the rest is left. -/
theorem decode_cons_eq_ok {op : Byte} {bs rest : List Byte} {i : Instr} (hd : decode (op :: bs) = .ok (i, rest)) :
    (romEntry op).advance ≤ bs.length + 1 ∧ decodeOpcode op (bs.getD 0 0#8) (bs.getD 1 0#8) = i ∧
      bs.drop ((romEntry op).advance - 1) = rest := by
  rw [decode] at hd
  split at hd
  · cases hd
  next hlen =>
    cases hd
    exact ⟨by omega, rfl, rfl⟩

/-- Settles O2: the opcode and the operand bytes are found again, and BRK's length is that of opcode and padding. -/
theorem encodeAfterDecode : Obligations.EncodeAfterDecode := by
  intro bs rest i hd
  cases bs with
  | nil => cases hd
  | cons op bs =>
    obtain ⟨hlen, rfl, rfl⟩ := decode_cons_eq_ok hd
    have hop := opcode_decodeOpcode op (bs.getD 0 0#8) (bs.getD 1 0#8)
    have hbytes := decodeOpcode_operand_bytes op (bs.getD 0 0#8) (bs.getD 1 0#8)
    have hw := decodeOpcode_wellFormed op (bs.getD 0 0#8) (bs.getD 1 0#8)
    generalize decodeOpcode op (bs.getD 0 0#8) (bs.getD 1 0#8) = i at hop hbytes hw ⊢
    subst hop
    refine ⟨hw, fun hbrk => ?_, fun hbrk => ?_⟩
    · obtain ⟨hfit, hread⟩ := romFits i hw
      rw [encode_of_ne_brk hbrk, List.length_cons, hread] at hfit
      rw [take_getD_eq_take (operandBytes_le_two _) (by omega)] at hbytes
      rw [encode_of_ne_brk hbrk, hbytes, ← hfit, Nat.add_sub_cancel, List.cons_append, List.take_append_drop]
    · subst hbrk
      match bs, hlen with
      | pad :: _, _ => exact ⟨pad, rfl⟩
      | [], hlen => exact absurd hlen (by decide)

/-- Settles O4 by running the decoder on each word. -/
theorem sampleEncodings : Obligations.SampleEncodings :=
  ⟨rfl, rfl, rfl, rfl, rfl, rfl, rfl, rfl, rfl, rfl⟩

end Sys2Proof.Machine
end

section
/-! `Reset()` (R400, R401, R403): the values it writes, what it leaves alone, and that the invariant holds after it. -/

namespace Sys2Proof.Machine

/-- `Reset()` touches no storage, mapper register, parameter or event (R401). -/
theorem hostReset_world (s : State) : SameWorld s (hostReset s) := by
  rw [hostReset_eq]
  exact ⟨rfl, rfl, rfl, ⟨rfl, rfl, rfl, rfl, rfl⟩, rfl, rfl⟩

/-- A word read outside the external region sees only what `SameWorld` compares. -/
theorem SameWorld.vectorWord {s t : State} (h : SameWorld s t) {v : Word} (hv : isExternal v = false)
    (hv' : isExternal (v + 1#16) = false) : vectorWord t v = vectorWord s v := by
  rw [Machine.vectorWord, Machine.vectorWord, h.peek hv, h.peek hv']

theorem hostReset_hostReset (s : State) : hostReset (hostReset s) = hostReset s := by
  have hvector := (hostReset_world s).vectorWord (v := resetVector) (by decide) (by decide)
  rw [hostReset_eq (hostReset s), hvector, hostReset_eq s]

/-- Settles O20: the written-out state of `Reset()`, whose storage, mapper and events are those before. -/
theorem resetProcedure : Obligations.ResetProcedure := by
  intro s t
  have hbytes := (hostReset_world s).sameBytes
  obtain ⟨-, -, -, hmapper, hparams, hevents⟩ := hostReset_world s
  have ht := hostReset_eq s
  refine ⟨?_, ?_, ?_, ?_, ?_, ?_, ?_, ?_, ?_, ?_, congrArg State.pc ht, hbytes, hmapper, hparams, hevents,
    hostReset_hostReset s⟩
  all_goals simp only [t, ht]

/-- `Reset()` establishes the invariant in any legal cartridge whose serial register holds its sentinel. -/
theorem hostReset_invariant {s : State} (hv : s.params.valid = true) (hm : MemoryOk s) (hs : SentinelOk s) :
    Invariant (hostReset s) := by
  have hworld := hostReset_world s
  refine ⟨?_, hostReset_resetDone s, hworld.memoryOk hm, ?_, hworld.sentinelOk hs, fun _ => ?_⟩
  · rw [hworld.params_eq]; exact hv
  · rw [hostReset_eq]; exact (by decide : getFlag .u 0x24#8 = true ∧ getFlag .b 0x24#8 = false)
  · rw [hostReset_eq]

theorem load_hostReset_invariant {p : Params} {r g c : List Host.Cell} {t : State} (h : load p r g c = .next t) :
    Invariant (hostReset t) := by
  obtain ⟨rfl, hv, hm⟩ := load_ok h
  exact hostReset_invariant hv hm (by decide : shiftEmpty ≠ 0#5)

/-- Settles O12: `State.reset` is the Reset of the empty cartridge. -/
theorem resetMeetsInvariant : Obligations.ResetMeetsInvariant := by
  refine ⟨?_, fun _ _ _ _ _ h => load_hostReset_invariant h⟩
  rw [← reset_is_powerOn_then_reset]
  exact load_hostReset_invariant (p := Config.defaultParams) (r := []) (g := []) (c := []) rfl

end Sys2Proof.Machine
end

section
/-! Interrupt service (R363, R364, R366, R368) and the return from it (R373). -/

namespace Sys2Proof.Machine

/-! ### Entry -/

/-- An entry leaves the latches as they are; its caller clears the one it serves (R366). -/
theorem enter_controls {v : Word} (hv : v = nmiVector ∨ v = irqVector) (b : Bool) (s : State) :
    SameControls s (enter v b s) := by
  rw [enter, takeInterrupt_eq v hv]
  exact ⟨rfl, rfl, rfl, rfl, rfl, rfl⟩

theorem serviceInterrupt_of_nmi {s : State} (h : s.nmiPending = true) :
    serviceInterrupt s = enter nmiVector s.params.hwIntPushB { s with nmiPending := false } := by
  rw [serviceInterrupt, if_pos h]

theorem serviceInterrupt_of_irq {s : State} (hn : s.nmiPending = false) (hq : s.irqPending = true)
    (hi : s.flag .i = false) :
    serviceInterrupt s = enter irqVector s.params.hwIntPushB { s with irqPending := false } := by
  simp [serviceInterrupt, hn, hq, hi]

theorem serviceInterrupt_of_none {s : State} (hn : s.nmiPending = false)
    (hq : s.irqPending = false ∨ s.flag .i = true) : serviceInterrupt s = s := by
  obtain hq | hq := hq <;> simp [serviceInterrupt, hn, hq]

theorem serviceInterrupt_latches_of_nmi {s : State} (h : s.nmiPending = true) :
    (serviceInterrupt s).nmiPending = false ∧ (serviceInterrupt s).irqPending = s.irqPending := by
  obtain ⟨-, hn, hq, -⟩ := enter_controls (.inl rfl) s.params.hwIntPushB { s with nmiPending := false }
  rw [serviceInterrupt_of_nmi h]
  exact ⟨hn, hq⟩

/-- Settles O15: the three cases of S2, and the latches each leaves. -/
theorem interruptSelection : Obligations.InterruptSelection := by
  refine fun s => ⟨fun h => ⟨serviceInterrupt_of_nmi h, serviceInterrupt_latches_of_nmi h⟩, fun hn hq hi => ?_,
    fun hn hq => serviceInterrupt_of_none hn hq⟩
  obtain ⟨-, -, hq', -⟩ := enter_controls (.inr rfl) s.params.hwIntPushB { s with irqPending := false }
  have he := serviceInterrupt_of_irq hn hq hi
  exact ⟨he, by rw [he]; exact hq'⟩

/-- Settles O16: the sequence that BRK shares, with the 7 cycles of interrupt service. -/
theorem interruptEntry : Obligations.InterruptEntry := by
  intro s vector b hs hv t
  obtain ⟨hpushed, hp, hpc, hcycles, haxy⟩ := takeInterrupt_pushed hs (Agrees.refl s) hv b
  obtain ⟨hset, hother⟩ := flagsSameBut_setFlag .i true hp
  rw [pushedFlags_eq] at hpushed
  exact ⟨hpushed, hset, hother, hpc, congrArg (· + cyc 7) hcycles, haxy⟩

/-! ### The latches over a step -/

/-- A step that answers was stalled, or ran the instruction that was fetched after S2. -/
theorem step_next_cases {s t : State} (h : step s = .next t) :
    (0 < s.stall ∧ t = stallStep s) ∨
    (s.stall = 0 ∧ exec (fetch (serviceInterrupt s)).1 (fetch (serviceInterrupt s)).2 = .next t) := by
  obtain ⟨-, he⟩ | ⟨-, hs, he⟩ | ⟨-, hs, he⟩ := step_cases s <;> rw [he] at h
  · cases h
  · cases h
    exact .inl ⟨hs, rfl⟩
  · exact .inr ⟨hs, h⟩

/-- Nothing after S2 touches the requests, the stall and the parameters (R365). -/
theorem step_controls {s t : State} (hs : s.stall = 0) (h : step s = .next t) : SameControls (serviceInterrupt s) t := by
  obtain ⟨hs', -⟩ | ⟨-, he⟩ := step_next_cases h
  · omega
  · obtain ⟨-, hc, -⟩ := exec_effect he
    exact (fetch_controls _).trans hc

/-- Settles O17: S2 serves the request before anything is fetched. -/
theorem nmiCannotBeMasked : Obligations.NmiCannotBeMasked := by
  refine fun s => ⟨rfl, rfl, fun t hn hs h => ?_⟩
  obtain ⟨-, hn', hq', -⟩ := step_controls hs h
  obtain ⟨hcleared, hkept⟩ := serviceInterrupt_latches_of_nmi hn
  refine ⟨hn'.trans hcleared, hq'.trans hkept, ?_⟩
  obtain ⟨hs', -⟩ | ⟨-, he⟩ := step_next_cases h
  · omega
  · rw [h, ← he, serviceInterrupt_of_nmi hn]
    rfl

/-- A step keeps a pending IRQ unless S2 serves it (R364, R366). -/
theorem step_irqPending {s t : State} (hq : s.irqPending = true) (h : step s = .next t) :
    t.irqPending = true ∨ (s.stall = 0 ∧ s.nmiPending = false ∧ s.flag .i = false) := by
  obtain ⟨-, rfl⟩ | ⟨hs, -⟩ := step_next_cases h
  · exact .inl hq
  · obtain ⟨-, -, hq', -⟩ := step_controls hs h
    obtain ⟨hn, he⟩ | ⟨hn, -, hi, -⟩ | ⟨-, -, he⟩ := serviceInterrupt_cases s
    · exact .inl (hq'.trans (by rw [he]; exact hq))
    · exact .inr ⟨hs, hn, hi⟩
    · exact .inl (hq'.trans (by rw [he]; exact hq))

/-- Settles O18: the request goes only where S2 serves it, which a set P.I forbids. -/
theorem maskedIrqIsDeferred : Obligations.MaskedIrqIsDeferred := by
  refine fun s => ⟨rfl, fun t hq hi h => ?_, fun t hq hq' h => ?_, by rw [hostReset_eq]⟩
  · obtain hkept | ⟨-, -, hi'⟩ := step_irqPending hq h
    · exact hkept
    · rw [hi] at hi'; cases hi'
  · obtain hkept | hserved := step_irqPending hq h
    · rw [hq'] at hkept; cases hkept
    · exact hserved

/-! ### Return -/

/-- A flags word with U set and B clear survives the stack (R37, R39). -/
theorem pulledFlags_pushedFlags {p : Byte} (h : PFlagsOk p) (b : Bool) : pulledFlags (pushedFlags p b) = p := by
  obtain ⟨hu, hb⟩ := h
  refine flags_ext fun f => ?_
  rw [getFlag_pulledFlags, getFlag_pushedFlags]
  split_ifs with hfu hfb
  · rw [hfu, hu]
  · rw [hfb, hb]
  · rfl

/-- Settles O19: RTI pulls the three bytes that the entry pushed. -/
theorem returnAfterEntry : Obligations.ReturnAfterEntry := by
  intro s vector b hs hf hv
  obtain ⟨hpushed, -, -, -, -, ha, hx, hy⟩ := interruptEntry s vector b hs hv
  obtain ⟨t, hrti, hp, hpc, hsp, -, ⟨ha', hx', hy'⟩, -⟩ := returnFromInterruptInstruction.2 (enter vector b s)
  have hhi : stackByte (enter vector b s) 3 = hi s.pc := hpushed.stackByte_eq (j := 0) (by simp)
  have hlo : stackByte (enter vector b s) 2 = lo s.pc := hpushed.stackByte_eq (j := 1) (by simp)
  have hflags : stackByte (enter vector b s) 1 = pushedFlags s.p b :=
    (hpushed.stackByte_eq (j := 2) (by simp)).trans (pushedFlags_eq s.p b).symm
  obtain ⟨hsp', -⟩ := hpushed
  refine ⟨t, hrti, ?_, ?_, ?_, ha'.trans ha, hx'.trans hx, hy'.trans hy⟩
  · rw [hpc, hhi, hlo, mkWord_hi_lo]
  · rw [hp, hflags]; exact pulledFlags_pushedFlags hf b
  · rw [hsp, hsp']; exact BitVec.sub_add_cancel ..

end Sys2Proof.Machine
end

section
/-! The disassembler's reads (R313, R319): the cursor it returns, and that reading makes external draws at most. -/

namespace Sys2Proof.Machine

/-- Every instruction is one to three bytes long (R100). -/
theorem advance_bounds : ∀ op : Byte, 1 ≤ (romEntry op).advance ∧ (romEntry op).advance ≤ 3 := by decide +kernel

/-- The disassembler reads as many bytes as the instruction has (R314). -/
theorem fetchBytes_length (sp : Space) (cursor : Word) (s : State) :
    (fetchBytes sp cursor s).1.length = (romEntry (readSpace sp cursor s).1).advance := by
  obtain ⟨hmin, hmax⟩ := advance_bounds (readSpace sp cursor s).1
  simp only [fetchBytes]
  split_ifs with h1 h2 <;> simp only [List.length_cons, List.length_nil] <;> omega

/-- What the reads at the cursor and the two addresses after it keep, disassembling keeps. -/
theorem fetchBytes_keeps {P : State → Prop} {sp : Space} {cursor : Word} {s : State} (hs : P s)
    (hread : ∀ a ∈ [cursor, cursor + 1#16, cursor + 2#16], ∀ u, P u → P (readSpace sp a u).2) :
    P (fetchBytes sp cursor s).2 := by
  have h0 := hread cursor (by simp) s hs
  have h1 := hread (cursor + 1#16) (by simp) _ h0
  have h2 := hread (cursor + 2#16) (by simp) _ h1
  simp only [fetchBytes]
  split_ifs
  · exact h0
  · exact h1
  · exact h2

/-- A read changes the number of the next external draw at most (R75). -/
theorem readSpace_snd (sp : Space) (a : Word) (s : State) : ∃ n, (readSpace sp a s).2 = { s with extReads := n } := by
  cases sp <;> exact ⟨_, rfl⟩

theorem readSpace_snd_of_not_isExternal (sp : Space) {a : Word} (h : isExternal a = false) (s : State) :
    (readSpace sp a s).2 = s := by
  cases sp with
  | cpu => exact touch_of_not_isExternal s h
  | bank b => rfl

/-- Settles O58: the bytes read give the cursor, and the state is what their reads leave. -/
theorem disassemblerLeavesStateAlone : Obligations.DisassemblerLeavesStateAlone := by
  intro sp cursor s d
  refine ⟨?_, ?_, ?_, ?_⟩
  · show cursor + BitVec.ofNat 16 (fetchBytes sp cursor s).1.length = _
    rw [fetchBytes_length]
  · refine fetchBytes_keeps (P := fun u => ∃ n, u = { s with extReads := n }) ⟨s.extReads, rfl⟩ ?_
    rintro a - _ ⟨n, rfl⟩
    exact readSpace_snd sp a _
  · rintro b rfl
    exact fetchBytes_keeps (P := (· = s)) rfl fun a _ u hu => hu
  · intro h0 h1 h2
    refine fetchBytes_keeps (P := (· = s)) rfl fun a ha u hu => ?_
    have hext : isExternal a = false := by
      simp only [List.mem_cons, List.not_mem_nil, or_false] at ha
      obtain rfl | rfl | rfl := ha <;> assumption
    rw [readSpace_snd_of_not_isExternal sp hext, hu]

end Sys2Proof.Machine
end

section
/-! The assembler: which codes a line that succeeds can have (R332, R333), and that assembling and resolving write bytes
and nothing else (R331, R350). -/

namespace Sys2Proof.Machine

/-! ### Codes -/

/-- The codes that report an error (R332, R333). -/
def AsmCode.isError : AsmCode → Bool
  | .unknownOpcode | .invalidOperand | .invalidMode => true
  | .codeNone | .codeEnd | .codeMeta => false

theorem assembleInstruction_ok {sp : Space} {l : List Char} {cursor : Word} {ss : Session} {e : Emitted}
    (h : assembleInstruction sp l cursor ss = .ok e) : e.code.isError = false := by
  simp only [assembleInstruction] at h
  repeat' split at h
  all_goals cases h
  rfl

theorem assembleData_ok {sp : Space} {w : Nat} {l : List Char} {cursor : Word} {ss : Session} {e : Emitted}
    (h : assembleData sp w l cursor ss = .ok e) : e.code.isError = false := by
  unfold assembleData at h
  split at h <;> cases h
  rfl

theorem assembleDirective_ok {sp : Space} {name rest : List Char} {cursor : Word} {ss : Session} {e : Emitted}
    (h : assembleDirective sp name rest cursor ss = .ok e) : e.code.isError = false := by
  unfold assembleDirective at h
  split at h
  · exact assembleData_ok h
  · exact assembleData_ok h
  · exact assembleData_ok h
  · split at h <;> cases h
    rfl
  · split at h <;> cases h
    rfl
  · cases h

/-- A line that is assembled has the code None, End or Meta. -/
theorem assembleStripped_ok {sp : Space} {l : List Char} {cursor : Word} {ss : Session} {e : Emitted}
    (h : assembleStripped sp l cursor ss = .ok e) : e.code.isError = false := by
  simp only [assembleStripped] at h
  split at h
  · cases h; rfl
  · split at h
    · split at h <;> cases h
      rfl
    · split at h <;> cases h
      rfl
    · split at h
      · exact assembleDirective_ok h
      · exact assembleInstruction_ok h

/-- Settles O59: an error code comes from a line that was not assembled, and such a line leaves everything. -/
theorem failingLineChangesNothing : Obligations.FailingLineChangesNothing := by
  intro sp line cursor ss s r hcode
  have herror : r.code.isError = true := by obtain h | h | h := hcode <;> rw [h] <;> rfl
  have hr : r = assemble sp line cursor ss s := rfl
  unfold assemble at hr
  split at hr
  next e hok =>
    rw [hr, assembleStripped_ok hok] at herror
    cases herror
  next =>
    rw [hr]
    exact ⟨rfl, rfl, rfl⟩

/-! ### Writes -/

/-- From `s` to `t` only bytes of RAM and PRG, events and the number of the next external draw may differ. -/
def BytesOnly (s t : State) : Prop :=
  ∃ ram prg events extReads, t = { s with ram := ram, prg := prg, events := events, extReads := extReads }

theorem BytesOnly.refl (s : State) : BytesOnly s s := ⟨s.ram, s.prg, s.events, s.extReads, rfl⟩

theorem BytesOnly.trans {s t u : State} (h : BytesOnly s t) (h' : BytesOnly t u) : BytesOnly s u := by
  obtain ⟨_, _, _, _, rfl⟩ := h
  obtain ⟨_, _, _, _, rfl⟩ := h'
  exact ⟨_, _, _, _, rfl⟩

/-- What such a change leaves alone. -/
theorem BytesOnly.frame {s t : State} (h : BytesOnly s t) :
    SameRegs s t ∧ t.pc = s.pc ∧ t.cycles = s.cycles ∧ SameMapper s t ∧ SameControls s t ∧
      t.lastBranch = s.lastBranch := by
  obtain ⟨_, _, _, _, rfl⟩ := h
  exact ⟨⟨rfl, rfl, rfl, rfl, rfl⟩, rfl, rfl, ⟨rfl, rfl, rfl, rfl, rfl⟩, ⟨rfl, rfl, rfl, rfl, rfl, rfl⟩, rfl⟩

/-- A host write never goes to the serial port (R68). -/
theorem hostWrite_bytesOnly (a : Word) (v : Byte) (s : State) : BytesOnly s (hostWrite a v s) := by
  unfold hostWrite
  split
  next h =>
    obtain hram | hext := Bool.or_eq_true_iff.mp h
    · rw [memWrite_of_isRam v s hram]; exact ⟨_, _, _, _, rfl⟩
    · rw [memWrite_of_isExternal v s hext]; exact ⟨_, _, _, _, rfl⟩
  next => exact ⟨_, _, _, _, rfl⟩

theorem writeSpace_bytesOnly (sp : Space) (a : Word) (v : Byte) (s : State) : BytesOnly s (writeSpace sp a v s) := by
  cases sp with
  | cpu => exact hostWrite_bytesOnly a v s
  | bank b => exact ⟨_, _, _, _, rfl⟩

theorem writeBytes_bytesOnly (sp : Space) (a : Word) (bs : List Byte) (s : State) :
    BytesOnly s (writeBytes sp a bs s) := by
  induction bs generalizing a s with
  | nil => exact .refl s
  | cons b bs ih => exact (writeSpace_bytesOnly sp a b s).trans (ih _ _)

theorem readSpace_bytesOnly (sp : Space) (a : Word) (s : State) : BytesOnly s (readSpace sp a s).2 := by
  obtain ⟨n, h⟩ := readSpace_snd sp a s
  rw [h]
  exact ⟨_, _, _, n, rfl⟩

theorem assemble_bytesOnly (sp : Space) (line : List Char) (cursor : Word) (ss : Session) (s : State) :
    BytesOnly s (assemble sp line cursor ss s).st := by
  unfold assemble
  split
  · exact writeBytes_bytesOnly ..
  · exact .refl s

/-! ### Fixups -/

theorem applyCodeFixup_bytesOnly (t : List (SymbolName × Word)) (f : Fixup) (s : State) :
    BytesOnly s (applyCodeFixup t f s).2 := by
  have hread := readSpace_bytesOnly f.space (f.addr - 1#16) s
  simp only [applyCodeFixup]
  split
  · exact .refl s
  · split
    · split
      · exact hread.trans (writeSpace_bytesOnly ..)
      · exact hread
    · exact hread.trans (writeBytes_bytesOnly ..)

theorem applyDataFixup_bytesOnly (t : List (SymbolName × Word)) (f : Fixup) (s : State) :
    BytesOnly s (applyDataFixup t f s).2 := by
  unfold applyDataFixup
  split
  · exact .refl s
  · exact writeBytes_bytesOnly ..

theorem applyAll_bytesOnly {one : Fixup → State → List (List Char) × State}
    (hone : ∀ f s, BytesOnly s (one f s).2) (fs : List Fixup) (s : State) : BytesOnly s (applyAll one fs s).2 := by
  induction fs generalizing s with
  | nil => exact .refl s
  | cons f fs ih => exact (hone f s).trans (ih _)

theorem applyFixups_bytesOnly (ss : Session) (s : State) : BytesOnly s (applyFixups ss s).2.2 :=
  (applyAll_bytesOnly (applyCodeFixup_bytesOnly ss.labels) _ _).trans
    (applyAll_bytesOnly (applyDataFixup_bytesOnly ss.labels) _ _)

/-- Settles O60: both entry points write bytes only. -/
theorem assemblerTouchesBytesOnly : Obligations.AssemblerTouchesBytesOnly := by
  intro sp line cursor ss s
  obtain ⟨hregs, hpc, hcycles, hmapper, hcontrols, -⟩ := (applyFixups_bytesOnly ss s).frame
  exact ⟨(assemble_bytesOnly sp line cursor ss s).frame, hregs, hpc, hcycles, hmapper, hcontrols, rfl, rfl, rfl⟩

end Sys2Proof.Machine
end
